-- ==== Sys2Proof/Word.lean ====
section
/-! DEFINITION. The word types of the QCrypto CORE block (R5, R6 of spec/00_scope.md): a byte, a ChaCha20 word,
a CRC word, and the header word of a command or response. All are unsigned; there are no signed values (R5). -/

namespace Sys2Proof

/-- A byte: 8 bits (R6). -/
abbrev Byte := BitVec 8

/-- A ChaCha20 word: 32 bits (R100 of spec/41_chacha20.md). -/
abbrev Word32 := BitVec 32

/-- A CRC word, a counter or a length: 64 bits (R22, R24, R27 of spec/10_state.md). -/
abbrev Word64 := BitVec 64

/-- The 32-bit header word of a command or of a response (R60, R62 of spec/30_encoding.md). -/
abbrev Header := BitVec 32

end Sys2Proof
end

