-- ==== Sys2Proof/Config.lean ====
section
/-! DEFINITION. The implementation parameters the spec asks a model to carry as configuration (R4 of
spec/00_scope.md). Parameters the source fixes (widths, sizes, round count) are the types and constants themselves.
`NCTX = 1` (D7) is the shape of State. The values this machine has are `Machine.params` in Machine/Params.lean. -/

namespace Sys2Proof

/-- `NONCE_COMBINE`: how counter bits 63:32 enter state word 13 (R4, R104; D15). -/
inductive NonceCombine where
  | add
  | xor
  | or
  deriving DecidableEq, Repr

/-- The three parameters that change computed bytes (R4; "Parameters left to the model" in
spec/92_eei_decisions.md). -/
structure Config where
  /-- `NONCE_COMBINE` (D15). -/
  nonceCombine : NonceCombine
  /-- `RR_PAD_FILL_OFFSET`: 0 or 1 (D20). -/
  rrPadFillOffset : Fin 2
  /-- `RR_LEN_BSWAP` (D21). -/
  rrLenBswap : Bool
  deriving DecidableEq, Repr

/-- `MAX_LEN`: the largest payload of one command, in bytes (R4; D2). It is what the 16-bit `LEN` field holds (R61). -/
abbrev Config.maxLen : Nat := 65535

end Sys2Proof
end

