-- ==== Sys2Proof/Syntax.lean ====
section
/-! DEFINITION. The commands of the block, one constructor per row of spec/opcode_table.json (R65 of
spec/30_encoding.md), with the operands R64 gives each.

A header selects its row whatever `LEN` is ("an illegal `LEN` for the selected command is a length error, not a
different command", R65), so a command with a fixed operand layout carries a `Payload`: its operands, or the bytes
of a payload whose length is not legal for it (R66, R164). -/

namespace Sys2Proof

/-- What stands in the payload of a command whose operands have a fixed layout: the operands, or a payload of a
length R66 does not allow for the command. -/
inductive Payload (α : Type) where
  | fits (operands : α)
  | wrongLength (bytes : List Byte)
  deriving DecidableEq, Repr

/-- Operands of `CRC.INIT`, in payload order (R64, R84). -/
structure CrcConfig where
  width : Byte
  poly : Word64
  init : Word64
  xorout : Word64
  deriving DecidableEq, Repr

/-- Operands of `CRC.REFLECT` (R64, R89). -/
structure ReflectArgs where
  bits : Byte
  x : Word64
  deriving DecidableEq, Repr

/-- Operands of `CC.SETUP` (R64, R111). -/
structure KeyNonce where
  key : Vector Byte 32
  nonce : Vector Byte 12
  deriving DecidableEq, Repr

/-- Operands of `CC.QR`, and its result (R64, R101, R115). -/
structure QrWords where
  a : Word32
  b : Word32
  c : Word32
  d : Word32
  deriving DecidableEq, Repr

/-- The 19 rows of the opcode map (R65). -/
inductive Opcode where
  | sysNop | sysReset
  | crcInit | crcUpdate | crcFinal | crcFinaln | crcFree | crcReflect | crcRdtab
  | ccInit | ccSetup | ccEnc | ccDec | ccFree | ccQr
  | rrInit | rrUpdate | rrFinal | rrFree
  deriving DecidableEq, Repr

/-- A command: the row its header selects and its payload (R60, R64, R65). -/
inductive Instr where
  /-- `SYS.NOP` (R150). -/
  | sysNop (p : Payload Unit)
  /-- `SYS.RESET` (R151). -/
  | sysReset (p : Payload Unit)
  /-- `CRC.INIT width, poly, init, xorout` (R84). -/
  | crcInit (p : Payload CrcConfig)
  /-- `CRC.UPDATE bytes` (R85). -/
  | crcUpdate (data : List Byte)
  /-- `CRC.FINAL` (R86). -/
  | crcFinal (p : Payload Unit)
  /-- `CRC.FINALN` (R87). -/
  | crcFinaln (p : Payload Unit)
  /-- `CRC.FREE` (R88). -/
  | crcFree (p : Payload Unit)
  /-- `CRC.REFLECT bits, x` (R89). -/
  | crcReflect (p : Payload ReflectArgs)
  /-- `CRC.RDTAB index` (R90). -/
  | crcRdtab (p : Payload Byte)
  /-- `CC.INIT ctr` (R110). -/
  | ccInit (p : Payload Word64)
  /-- `CC.SETUP key32, nonce12` (R111). -/
  | ccSetup (p : Payload KeyNonce)
  /-- `CC.ENC bytes` (R112). -/
  | ccEnc (data : List Byte)
  /-- `CC.DEC bytes` (R113). -/
  | ccDec (data : List Byte)
  /-- `CC.FREE` (R114). -/
  | ccFree (p : Payload Unit)
  /-- `CC.QR a, b, c, d` (R115). -/
  | ccQr (p : Payload QrWords)
  /-- `RR.INIT` (R135). -/
  | rrInit (p : Payload Unit)
  /-- `RR.UPDATE bytes` (R136). -/
  | rrUpdate (data : List Byte)
  /-- `RR.FINAL` (R137). -/
  | rrFinal (p : Payload Unit)
  /-- `RR.FREE` (R138). -/
  | rrFree (p : Payload Unit)
  deriving DecidableEq, Repr

/-- The row of the opcode map a command belongs to (R65). -/
def Instr.opcode : Instr → Opcode
  | .sysNop _ => .sysNop
  | .sysReset _ => .sysReset
  | .crcInit _ => .crcInit
  | .crcUpdate _ => .crcUpdate
  | .crcFinal _ => .crcFinal
  | .crcFinaln _ => .crcFinaln
  | .crcFree _ => .crcFree
  | .crcReflect _ => .crcReflect
  | .crcRdtab _ => .crcRdtab
  | .ccInit _ => .ccInit
  | .ccSetup _ => .ccSetup
  | .ccEnc _ => .ccEnc
  | .ccDec _ => .ccDec
  | .ccFree _ => .ccFree
  | .ccQr _ => .ccQr
  | .rrInit _ => .rrInit
  | .rrUpdate _ => .rrUpdate
  | .rrFinal _ => .rrFinal
  | .rrFree _ => .rrFree

end Sys2Proof
end

