-- ==== Sys2Proof/Machine/Operands.lean ====
section
/-! DEFINITION. Operands: the byte-sequence functions of R6 (spec/00_scope.md), the byte orders of R41 to R44
(spec/20_memory.md), and how the operands of every command are cut from its payload and laid into it (R64 of
spec/30_encoding.md), with the payload lengths R66 makes legal. -/

namespace Sys2Proof.Machine

/-! ### Byte sequences (R6) -/

/-- `BEn(v)`: the low `8n` bits of `v`, most significant byte first; element `k` is bits `8(n-1-k)+7 : 8(n-1-k)`. -/
def beBytes (n : Nat) (v : Word64) : List Byte :=
  (List.range n).map fun k => v.extractLsb' (8 * (n - 1 - k)) 8

/-- `BE64(v)`: 8 bytes, most significant first. -/
def be64 (v : Word64) : List Byte := beBytes 8 v

/-- `FromBE(B)`: the number whose big-endian image is `B` (at most 8 bytes). -/
def fromBE (bs : List Byte) : Word64 :=
  bs.foldl (fun acc b => (acc <<< 8) ||| b.setWidth 64) 0

/-- `BSWAP64(v)`: `FromBE` of the bytes `v[8k+7 : 8k]`, that is `v` with its eight bytes in reverse order. -/
def bswap64 (v : Word64) : Word64 :=
  fromBE ((List.range 8).map fun k => v.extractLsb' (8 * k) 8)

/-- `LE32` of four bytes, the least significant first. -/
def le32 (b0 b1 b2 b3 : Byte) : Word32 :=
  b0.setWidth 32 ||| (b1.setWidth 32 <<< 8) ||| (b2.setWidth 32 <<< 16) ||| (b3.setWidth 32 <<< 24)

/-- `LE32(B, o)`: the word at byte offset `o` of `B`. -/
def le32At {n : Nat} (b : Vector Byte n) (o : Nat) (h : o + 3 < n) : Word32 :=
  le32 b[o] b[o + 1] b[o + 2] b[o + 3]

/-- `ToLE32(w)`: 4 bytes, least significant first. -/
def toLE32 (w : Word32) : List Byte :=
  (List.range 4).map fun k => w.extractLsb' (8 * k) 8

/-! ### Cutting operands from a payload (R64) -/

/-- `P[a .. a+n-1]` of a payload. -/
def slice {m : Nat} (p : Vector Byte m) (a n : Nat) : List Byte := (p.toList.drop a).take n

/-- A payload of exactly `n` bytes gives its operands by `f`; any other length is not legal (R66). -/
def cutPayload {α : Type} (n : Nat) (f : Vector Byte n → α) (p : List Byte) : Payload α :=
  if h : p.length = n then .fits (f ⟨p.toArray, by simpa using h⟩) else .wrongLength p

/-- `CRC.INIT`: `P[0]` width, `P[1..8]` poly, `P[9..16]` init, `P[17..24]` xorout. -/
def cutCrcConfig (p : Vector Byte 25) : CrcConfig where
  width := p[0]
  poly := fromBE (slice p 1 8)
  init := fromBE (slice p 9 8)
  xorout := fromBE (slice p 17 8)

/-- `CRC.REFLECT`: `P[0]` bits, `P[1..8]` x. -/
def cutReflectArgs (p : Vector Byte 9) : ReflectArgs where
  bits := p[0]
  x := fromBE (slice p 1 8)

/-- `CRC.RDTAB`: `P[0]` index. -/
def cutIndex (p : Vector Byte 1) : Byte := p[0]

/-- `CC.INIT`: `P[0..7]` ctr. -/
def cutCounter (p : Vector Byte 8) : Word64 := fromBE (slice p 0 8)

/-- `CC.SETUP`: `P[0..31]` key, `P[32..43]` nonce. -/
def cutKeyNonce (p : Vector Byte 44) : KeyNonce where
  key := Vector.ofFn fun j : Fin 32 => p[j.val]
  nonce := Vector.ofFn fun j : Fin 12 => p[32 + j.val]

/-- `CC.QR`: `a`, `b`, `c`, `d` are `LE32` at 0, 4, 8, 12. -/
def cutQrWords (p : Vector Byte 16) : QrWords where
  a := le32At p 0 (by decide)
  b := le32At p 4 (by decide)
  c := le32At p 8 (by decide)
  d := le32At p 12 (by decide)

/-! ### Laying operands into a payload (R64, R70) -/

/-- The payload of `CRC.INIT`. -/
def layCrcConfig (c : CrcConfig) : List Byte :=
  c.width :: (be64 c.poly ++ be64 c.init ++ be64 c.xorout)

/-- The payload of `CRC.REFLECT`. -/
def layReflectArgs (r : ReflectArgs) : List Byte := r.bits :: be64 r.x

/-- The payload of `CC.SETUP`. -/
def layKeyNonce (k : KeyNonce) : List Byte := k.key.toList ++ k.nonce.toList

/-- The payload of `CC.QR`; also how its four result words are emitted (R115). -/
def layQrWords (q : QrWords) : List Byte := toLE32 q.a ++ toLE32 q.b ++ toLE32 q.c ++ toLE32 q.d

/-- The payload bytes of a command: its operands laid out by `f`, or the bytes it came with. -/
def layPayload {α : Type} (f : α → List Byte) : Payload α → List Byte
  | .fits a => f a
  | .wrongLength bs => bs

/-! ### Legal payload lengths (R66) -/

/-- The one legal `LEN` of a command, or `none` where every `LEN` from 0 to 65535 is legal (R66). -/
def fixedLen : Opcode → Option Nat
  | .sysNop => some 0
  | .sysReset => some 0
  | .crcInit => some 25
  | .crcUpdate => none
  | .crcFinal => some 0
  | .crcFinaln => some 0
  | .crcFree => some 0
  | .crcReflect => some 9
  | .crcRdtab => some 1
  | .ccInit => some 8
  | .ccSetup => some 44
  | .ccEnc => none
  | .ccDec => none
  | .ccFree => some 0
  | .ccQr => some 16
  | .rrInit => some 0
  | .rrUpdate => none
  | .rrFinal => some 0
  | .rrFree => some 0

/-- Whether `LEN = n` is legal for the command (R66). -/
def legalLen (o : Opcode) (n : Nat) : Bool :=
  match fixedLen o with
  | some k => n == k
  | none => true

end Sys2Proof.Machine
end

