-- ==== Sys2Proof/WellFormed.lean ====
section
/-! DEFINITION. Which terms of `Instr` are commands some byte string of the command port stands for: the payload fits
the 16-bit `LEN` field (R61, R66 of spec/30_encoding.md), and a payload kept as `wrongLength` has a length that is
not legal for its row (R66), so that each command has one term. -/

namespace Sys2Proof

/-- A payload of a fixed-layout command: a `wrongLength` payload has an illegal length and fits `LEN`. -/
def Payload.wellFormed {α : Type} (o : Opcode) : Payload α → Bool
  | .fits _ => true
  | .wrongLength bs => !Machine.legalLen o bs.length && decide (bs.length ≤ Config.maxLen)

/-- The payload of a data command fits `LEN`. -/
def dataWellFormed (data : List Byte) : Bool := decide (data.length ≤ Config.maxLen)

/-- The well-formed commands. -/
def Instr.wellFormed : Instr → Bool
  | .sysNop p => p.wellFormed .sysNop
  | .sysReset p => p.wellFormed .sysReset
  | .crcInit p => p.wellFormed .crcInit
  | .crcUpdate data => dataWellFormed data
  | .crcFinal p => p.wellFormed .crcFinal
  | .crcFinaln p => p.wellFormed .crcFinaln
  | .crcFree p => p.wellFormed .crcFree
  | .crcReflect p => p.wellFormed .crcReflect
  | .crcRdtab p => p.wellFormed .crcRdtab
  | .ccInit p => p.wellFormed .ccInit
  | .ccSetup p => p.wellFormed .ccSetup
  | .ccEnc data => dataWellFormed data
  | .ccDec data => dataWellFormed data
  | .ccFree p => p.wellFormed .ccFree
  | .ccQr p => p.wellFormed .ccQr
  | .rrInit p => p.wellFormed .rrInit
  | .rrUpdate data => dataWellFormed data
  | .rrFinal p => p.wellFormed .rrFinal
  | .rrFree p => p.wellFormed .rrFree

end Sys2Proof
end

