-- ==== Sys2Proof/Decode.lean ====
section
/-! DEFINITION. Command decoding and encoding (R60 to R69, R72 of spec/30_encoding.md). Decoding is total on any
bytes: it frames one command (header and `LEN` payload bytes), selects its row by match and mask (R65), and rejects
an illegal header by name (R67). The encoder writes the same encoding back. -/

namespace Sys2Proof

open Machine

/-! ### The header (R61, R63) -/

/-- `OPC = H[31:24]`. -/
def Header.opc (h : Header) : Byte := BitVec.extractLsb' 24 8 h

/-- `UNIT = H[31:28]`. -/
def Header.unit (h : Header) : BitVec 4 := BitVec.extractLsb' 28 4 h

/-- `FN = H[27:24]`. -/
def Header.fn (h : Header) : BitVec 4 := BitVec.extractLsb' 24 4 h

/-- `RSV = H[23:16]`. -/
def Header.rsv (h : Header) : Byte := BitVec.extractLsb' 16 8 h

/-- `LEN = H[15:0]`, a number of bytes. -/
def Header.len (h : Header) : Nat := (BitVec.extractLsb' 0 16 h).toNat

/-- The header word with opcode `opc`, bits 23:16 equal to `mid` and bits 15:0 equal to `len` modulo 2^16. -/
def mkHeader (opc mid : Byte) (len : Nat) : Header := opc ++ mid ++ BitVec.ofNat 16 len

/-- `BE4(H)`: a header word on a byte transport, bits 31:24 first (R63). -/
def headerBytes (h : Header) : List Byte :=
  [BitVec.extractLsb' 24 8 h, BitVec.extractLsb' 16 8 h, BitVec.extractLsb' 8 8 h, BitVec.extractLsb' 0 8 h]

/-- The header word whose byte image is the four bytes given (R63). -/
def headerOfBytes (b0 b1 b2 b3 : Byte) : Header := b0 ++ b1 ++ b2 ++ b3

/-! ### The opcode map (R65) -/

/-- `OPC` of each row. -/
def opcodeByte : Opcode → Byte
  | .sysNop => 0x00
  | .sysReset => 0x01
  | .crcInit => 0x10
  | .crcUpdate => 0x11
  | .crcFinal => 0x12
  | .crcFinaln => 0x13
  | .crcFree => 0x14
  | .crcReflect => 0x15
  | .crcRdtab => 0x16
  | .ccInit => 0x20
  | .ccSetup => 0x21
  | .ccEnc => 0x22
  | .ccDec => 0x23
  | .ccFree => 0x24
  | .ccQr => 0x25
  | .rrInit => 0x30
  | .rrUpdate => 0x31
  | .rrFinal => 0x32
  | .rrFree => 0x34

/-- Every row of the opcode map, in the table's order. -/
def allOpcodes : List Opcode :=
  [.sysNop, .sysReset, .crcInit, .crcUpdate, .crcFinal, .crcFinaln, .crcFree, .crcReflect, .crcRdtab,
   .ccInit, .ccSetup, .ccEnc, .ccDec, .ccFree, .ccQr, .rrInit, .rrUpdate, .rrFinal, .rrFree]

/-- The row a header selects: `H & 0xFFFF0000 = OPC << 24` (R65). -/
def selectOpcode (h : Header) : Option Opcode :=
  allOpcodes.find? fun o => h &&& 0xFFFF0000#32 == (opcodeByte o).setWidth 32 <<< 24

/-- Why a header is illegal (R67). -/
inductive DecodeError where
  /-- `RSV ≠ 0`, with any `OPC`. -/
  | reservedNonzero
  /-- `UNIT` 4 to 15. -/
  | noSuchUnit
  /-- An `FN` with no row for its unit. -/
  | noSuchFunction
  deriving DecidableEq, Repr

/-- The name of the reason a header that selects no row is illegal (R67). -/
def illegalReason (h : Header) : DecodeError :=
  if h.rsv ≠ 0 then .reservedNonzero else if 4 ≤ h.unit.toNat then .noSuchUnit else .noSuchFunction

/-- The command of a row with the payload given (R64, R66). -/
def instrOf (o : Opcode) (p : List Byte) : Instr :=
  match o with
  | .sysNop => .sysNop (cutPayload 0 (fun _ => ()) p)
  | .sysReset => .sysReset (cutPayload 0 (fun _ => ()) p)
  | .crcInit => .crcInit (cutPayload 25 cutCrcConfig p)
  | .crcUpdate => .crcUpdate p
  | .crcFinal => .crcFinal (cutPayload 0 (fun _ => ()) p)
  | .crcFinaln => .crcFinaln (cutPayload 0 (fun _ => ()) p)
  | .crcFree => .crcFree (cutPayload 0 (fun _ => ()) p)
  | .crcReflect => .crcReflect (cutPayload 9 cutReflectArgs p)
  | .crcRdtab => .crcRdtab (cutPayload 1 cutIndex p)
  | .ccInit => .ccInit (cutPayload 8 cutCounter p)
  | .ccSetup => .ccSetup (cutPayload 44 cutKeyNonce p)
  | .ccEnc => .ccEnc p
  | .ccDec => .ccDec p
  | .ccFree => .ccFree (cutPayload 0 (fun _ => ()) p)
  | .ccQr => .ccQr (cutPayload 16 cutQrWords p)
  | .rrInit => .rrInit (cutPayload 0 (fun _ => ()) p)
  | .rrUpdate => .rrUpdate p
  | .rrFinal => .rrFinal (cutPayload 0 (fun _ => ()) p)
  | .rrFree => .rrFree (cutPayload 0 (fun _ => ()) p)

/-- A header and its payload: the command, or the reason the header is illegal (R72 steps 2 and 3). -/
def decodeCommand (h : Header) (p : List Byte) : Except DecodeError Instr :=
  match selectOpcode h with
  | some o => .ok (instrOf o p)
  | none => .error (illegalReason h)

/-! ### Framing (R60, R69) -/

/-- One framed command and the bytes after it. -/
structure Frame where
  header : Header
  payload : List Byte
  rest : List Byte
  deriving DecidableEq, Repr

/-- Takes one command of `4 + LEN` bytes, whether or not its header is legal (R69); `none` while the header or the
payload is not wholly there ("the command does not begin until its whole payload is present", R189). -/
def frame (bs : List Byte) : Option Frame :=
  match bs with
  | b0 :: b1 :: b2 :: b3 :: tail =>
    let h := headerOfBytes b0 b1 b2 b3
    if h.len ≤ tail.length then some ⟨h, tail.take h.len, tail.drop h.len⟩ else none
  | _ => none

/-- What a byte string begins with. -/
inductive Decoded where
  /-- A command of the opcode map, and the bytes after it. -/
  | command (i : Instr) (rest : List Byte)
  /-- An illegal header (R67): the reason, the `OPC` its response echoes (R62), the bytes after its payload. -/
  | illegal (why : DecodeError) (opc : Byte) (rest : List Byte)
  /-- Not yet a whole command. -/
  | incomplete
  deriving DecidableEq, Repr

/-- The decoder (R72 steps 1 to 3), total on any bytes. -/
def decode (bs : List Byte) : Decoded :=
  match frame bs with
  | none => .incomplete
  | some f =>
    match decodeCommand f.header f.payload with
    | .ok i => .command i f.rest
    | .error e => .illegal e f.header.opc f.rest

/-! ### The encoder -/

/-- The payload bytes of a command (R64). -/
def Instr.payload : Instr → List Byte
  | .sysNop p => layPayload (fun _ => []) p
  | .sysReset p => layPayload (fun _ => []) p
  | .crcInit p => layPayload layCrcConfig p
  | .crcUpdate data => data
  | .crcFinal p => layPayload (fun _ => []) p
  | .crcFinaln p => layPayload (fun _ => []) p
  | .crcFree p => layPayload (fun _ => []) p
  | .crcReflect p => layPayload layReflectArgs p
  | .crcRdtab p => layPayload (fun b => [b]) p
  | .ccInit p => layPayload be64 p
  | .ccSetup p => layPayload layKeyNonce p
  | .ccEnc data => data
  | .ccDec data => data
  | .ccFree p => layPayload (fun _ => []) p
  | .ccQr p => layPayload layQrWords p
  | .rrInit p => layPayload (fun _ => []) p
  | .rrUpdate data => data
  | .rrFinal p => layPayload (fun _ => []) p
  | .rrFree p => layPayload (fun _ => []) p

/-- The header of a command: its row's `OPC`, `RSV = 0`, `LEN` the number of its payload bytes (R61, R70). -/
def Instr.header (i : Instr) : Header := mkHeader (opcodeByte i.opcode) 0 i.payload.length

/-- The bytes of a command on a byte transport (R60, R63). -/
def encode (i : Instr) : List Byte := headerBytes i.header ++ i.payload

/-! ### The opcode table's words -/

/-- The bytes, as a byte transport carries them, of the command whose header is the low 32 bits of `w` and whose
payload byte `k` is bits `32+8k+7 : 32+8k` of `w`; every bit from `nbits` on is 0. -/
def tableBytes (nbits w : Nat) : List Byte :=
  let v := w % 2 ^ nbits
  let h : Header := BitVec.ofNat 32 v
  headerBytes h ++ (List.range h.len).map fun k => BitVec.ofNat 8 (v >>> (32 + 8 * k))

/-- The command the decoder reads from a word numbered as spec/opcode_table.json numbers it; `none` where it refuses. -/
def decodeTableWord (nbits w : Nat) : Option Instr :=
  match decode (tableBytes nbits w) with
  | .command i [] => some i
  | _ => none

end Sys2Proof
end

