-- ==== Sys2Proof/Machine/State.lean ====
section
/-! DEFINITION. The state of the block (R20 to R35 of spec/10_state.md), the responses it gives (R62 of
spec/30_encoding.md, R160 of spec/60_exceptions.md), the reasons a step could stop, and the state after reset (R32).
Register names are the spec's, in lower case. -/

namespace Sys2Proof.Machine

/-! ### Phases (R29) -/

/-- `CRC.PHASE`: `Idle` = 0, `Ready` = 1, `Finalized` = 2; 3 never occurs (R22). -/
inductive CrcPhase where
  | idle
  | ready
  | finalized
  deriving DecidableEq, Repr

/-- `PHASE` of a ChaCha20 instance: `Idle` = 0, `Unkeyed` = 1, `Keyed` = 2, `Keystreaming` = 3 (R24). -/
inductive CcPhase where
  | idle
  | unkeyed
  | keyed
  | keystreaming
  deriving DecidableEq, Repr

/-- `RR.PHASE`: `Idle` = 0, `Absorbing` = 1, `Finalized` = 2; 3 never occurs (R27). -/
inductive RrPhase where
  | idle
  | absorbing
  | finalized
  deriving DecidableEq, Repr

/-! ### The units -/

/-- The CRC unit (R22). -/
structure CrcUnit where
  /-- `CRC.PHASE`. -/
  phase : CrcPhase
  /-- `CRC.WIDTH`: the configured width in bits. -/
  width : BitVec 7
  /-- `CRC.POLY`: the polynomial as configured. -/
  poly : Word64
  /-- Register `CRC.INIT`: the initial value as configured. -/
  init : Word64
  /-- `CRC.XOROUT`: the output-xor mask as configured. -/
  xorout : Word64
  /-- `CRC.RPOLY`: the reflected polynomial. -/
  rpoly : Word64
  /-- `CRC.RINIT`: the reflected initial value. -/
  rinit : Word64
  /-- `CRC.TAB[0..255]`. -/
  tab : Vector Word64 256
  /-- `CRC.S`: the current state word. -/
  s : Word64
  deriving DecidableEq, Repr

/-- A ChaCha20 instance (R24). -/
structure ChaCha where
  /-- `PHASE`. -/
  phase : CcPhase
  /-- `KEY[0..31]`. -/
  key : Vector Byte 32
  /-- `NONCE[0..11]`. -/
  nonce : Vector Byte 12
  /-- `CTR0`: the starting block counter stored by Init; it never counts (R24, D16). -/
  ctr0 : Word64
  /-- `ST[0..15]`: the permutation state; `ST[12]`, `ST[13]` hold the running counter. -/
  st : Vector Word32 16
  /-- `KS[0..63]`: the keystream window. -/
  ks : Vector Byte 64
  /-- `OFF`: offset of the next keystream byte, 0..64; 64 means stale or exhausted (R26 (a)). A 7-bit register whose
  values above 64 never occur (R40); DEDUCED, log 9. -/
  off : Fin 65
  deriving DecidableEq, Repr

/-- The RoundRobin256 unit (R27). -/
structure RrUnit where
  /-- `RR.PHASE`. -/
  phase : RrPhase
  /-- `RR.CC`: the unit's own ChaCha20 instance. -/
  cc : ChaCha
  /-- `RR.ACC[0..43]`: the accumulator. -/
  acc : Vector Byte 44
  /-- `RR.BLK[0..63]`: the absorption block. -/
  blk : Vector Byte 64
  /-- `RR.IDX`: bytes of `RR.BLK` filled since the last fold, 0..63 between commands (R28 (a)). A 7-bit register
  whose values above 63 never occur between commands; DEDUCED, log 9. -/
  idx : Fin 64
  /-- `RR.LEN`: the processed-length counter, in bytes. -/
  len : Word64
  /-- `RR.OUTSZ`: the output size in bytes. -/
  outsz : BitVec 6
  deriving DecidableEq, Repr

/-! ### Statuses and responses -/

/-- The statuses of a response (R160). -/
inductive Status where
  /-- `OK` = 0x00. -/
  | ok
  /-- `ERR_UNSUPPORTED` = 0x01: the header selects no command (R161). -/
  | errUnsupported
  /-- `ERR_NOT_INITIALIZED` = 0x02: no context, or no key, for the command (R162). -/
  | errNotInitialized
  /-- `ERR_CONFIG` = 0x03: an operand value outside its legal range (R165). -/
  | errConfig
  /-- `ERR_LENGTH` = 0x04: the payload length is not legal for the command (R164). -/
  | errLength
  /-- `ERR_PHASE` = 0x05: the unit is in a phase that does not accept the command (R167). -/
  | errPhase
  deriving DecidableEq, Repr

/-- A response (R62): the echoed `OPC`, the status, the output bytes. -/
structure Response where
  opc : Byte
  status : Status
  out : List Byte
  deriving DecidableEq, Repr

/-! ### The port -/

/-- What the host does to the block (R189: "present any sequence of commands; apply reset at any time"). Where a reset
stands among the bytes says when it arrives; which of the two kinds it is says whether the command before it is still
in progress (R180). The representation is DESIGN CHOICE, logs 1 and 5. -/
inductive PortItem where
  /-- A byte of a command. -/
  | byte (b : Byte)
  /-- A reset that arrives when every whole command before it has been answered. -/
  | reset
  /-- A reset that arrives while the whole command directly before it is in progress: that command is abandoned. With
  no whole command directly before it, it is as `reset`. -/
  | resetInProgress
  deriving DecidableEq, Repr

/-! ### The whole state -/

/-- The state of the block. The three units share nothing (R2, R34). -/
structure State where
  /-- The CRC unit. -/
  crc : CrcUnit
  /-- The CC unit: exactly one ChaCha20 instance (R25). -/
  cc : ChaCha
  /-- The RR unit. -/
  rr : RrUnit
  /-- What the host has presented and the block has not yet taken, in order. The model's own field: the spec leaves
  to the transport how bytes arrive (R8); DESIGN CHOICE, log 1. -/
  port : List PortItem
  /-- The responses produced, oldest first ("one response per command, in command order", R189). The model's own
  field; DESIGN CHOICE, log 2. -/
  responses : List Response
  deriving DecidableEq, Repr

/-- The reasons a step could stop with a fault: none. "Every command in every state has a defined response and a
defined next state" (spec/93_implementation_defined.md); a refused command is a response, not a fault (R170). -/
inductive Fault where
  deriving DecidableEq, Repr

/-- The reasons a step could have no meaning. -/
inductive Refusal where
  /-- An instruction the model gives no meaning. Raised by an arm of `exec` that names its mnemonic; safe (the
  machine stops where the hardware goes on). No arm raises it. -/
  | notModelled (mnemonic : String)
  deriving DecidableEq, Repr

/-! ### Zero and reset (R32) -/

/-- The CRC unit with every register and table entry zero, phase `Idle`. -/
def CrcUnit.zero : CrcUnit where
  phase := .idle
  width := 0
  poly := 0
  init := 0
  xorout := 0
  rpoly := 0
  rinit := 0
  tab := Vector.replicate 256 0
  s := 0

/-- A ChaCha20 instance with every field zero, phase `Idle`: what `InstZero` leaves (R109). -/
def ChaCha.zero : ChaCha where
  phase := .idle
  key := Vector.replicate 32 0
  nonce := Vector.replicate 12 0
  ctr0 := 0
  st := Vector.replicate 16 0
  ks := Vector.replicate 64 0
  off := 0

/-- The RR unit with every register zero, phase `Idle`. -/
def RrUnit.zero : RrUnit where
  phase := .idle
  cc := ChaCha.zero
  acc := Vector.replicate 44 0
  blk := Vector.replicate 64 0
  idx := 0
  len := 0
  outsz := 0

/-- The state after reset (R32, R180, R181): every register, array element and instance field zero, every phase
`Idle`. The two port fields are empty; DESIGN CHOICE, logs 1 and 2. -/
def State.reset : State where
  crc := CrcUnit.zero
  cc := ChaCha.zero
  rr := RrUnit.zero
  port := []
  responses := []

end Sys2Proof.Machine
end

