-- ==== Sys2Proof/Machine/Flags.lean ====
section
/-! DEFINITION. The block has no condition codes, carry or overflow flags (R29 of spec/10_state.md). What plays their
part is the status of a response: its codes (R160), and the phase checks that decide it (R162, R167, R176 of
spec/60_exceptions.md); with the numeric codes of the phases (R22, R24, R27 of spec/10_state.md). -/

namespace Sys2Proof.Machine

/-- The status codes (R160); 0x06 to 0xFF are never produced. -/
def Status.code : Status → Byte
  | .ok => 0x00
  | .errUnsupported => 0x01
  | .errNotInitialized => 0x02
  | .errConfig => 0x03
  | .errLength => 0x04
  | .errPhase => 0x05

/-- The code of a CRC phase (R22). -/
def CrcPhase.code : CrcPhase → BitVec 2
  | .idle => 0
  | .ready => 1
  | .finalized => 2

/-- The code of a ChaCha20 phase (R24). -/
def CcPhase.code : CcPhase → BitVec 2
  | .idle => 0
  | .unkeyed => 1
  | .keyed => 2
  | .keystreaming => 3

/-- The code of an RR phase (R27). -/
def RrPhase.code : RrPhase → BitVec 2
  | .idle => 0
  | .absorbing => 1
  | .finalized => 2

/-- `CRC.UPDATE`, `CRC.FINAL`, `CRC.FINALN` (R176). -/
def crcStreamStatus : CrcPhase → Status
  | .idle => .errNotInitialized
  | .ready => .ok
  | .finalized => .errPhase

/-- `CRC.RDTAB` (R176). -/
def crcReadStatus : CrcPhase → Status
  | .idle => .errNotInitialized
  | .ready => .ok
  | .finalized => .ok

/-- `CC.SETUP` (R176). -/
def ccSetupStatus : CcPhase → Status
  | .idle => .errNotInitialized
  | .unkeyed => .ok
  | .keyed => .ok
  | .keystreaming => .errPhase

/-- `CC.ENC`, `CC.DEC` (R176). -/
def ccCryptStatus : CcPhase → Status
  | .idle => .errNotInitialized
  | .unkeyed => .errNotInitialized
  | .keyed => .ok
  | .keystreaming => .ok

/-- `RR.UPDATE`, `RR.FINAL` (R176). -/
def rrStreamStatus : RrPhase → Status
  | .idle => .errNotInitialized
  | .absorbing => .ok
  | .finalized => .errPhase

end Sys2Proof.Machine
end

