-- ==== Sys2Proof/Machine/Ops.lean ====
section
/-! DEFINITION. The named operations every command is made of: writing one unit, answering with a response, refusing
a command (R166 of spec/60_exceptions.md, the block's only exceptional event), the checks made before a command is
performed (R72, R168), the whole-block reset (R180), and the byte form of a response (R62, R63). There is no trap entry and no
trap return (R170, R171), and no memory (R40). -/

namespace Sys2Proof.Machine

/-- What a step answers. -/
abbrev Result := Host.Outcome State Fault Refusal

/-! ### Writing one part of the state -/

/-- Writes the CRC unit. -/
def State.withCrc (s : State) (u : CrcUnit) : State := { s with crc := u }

/-- Writes the CC unit. -/
def State.withCc (s : State) (u : ChaCha) : State := { s with cc := u }

/-- Writes the RR unit. -/
def State.withRr (s : State) (u : RrUnit) : State := { s with rr := u }

/-- Sets what the host has presented and the block has not yet taken. -/
def State.withPort (s : State) (p : List PortItem) : State := { s with port := p }

/-- Produces one response, after the responses already produced (R62, R189). -/
def State.respond (s : State) (r : Response) : State := { s with responses := s.responses ++ [r] }

/-! ### Answering a command -/

/-- A command that completes: status `OK` and its output bytes (R62). -/
def complete (o : Opcode) (out : List Byte) (s : State) : Result :=
  .next (s.respond ⟨opcodeByte o, .ok, out⟩)

/-- Effect of `raise` (R166): the response carries the echoed opcode and the status and no output bytes; nothing else
is written. Every refusal of a selected command goes through here. -/
def raise (o : Opcode) (st : Status) (s : State) : Result :=
  .next (s.respond ⟨opcodeByte o, st, []⟩)

/-- An illegal header (R161): `ERR_UNSUPPORTED`, echoing `H[31:24]` whatever its value (R62). -/
def raiseUnsupported (opc : Byte) (s : State) : Result :=
  .next (s.respond ⟨opc, .errUnsupported, []⟩)

/-- The length check (R72 step 3, R164): a payload of an illegal length is refused with `ERR_LENGTH`. -/
def withOperands {α : Type} (o : Opcode) (p : Payload α) (s : State) (perform : α → Result) : Result :=
  match p with
  | .fits a => perform a
  | .wrongLength _ => raise o .errLength s

/-- The phase check, and every other check that writes nothing (R168): `OK` performs the command, any other status
is raised. -/
def whenOk (o : Opcode) (st : Status) (s : State) (perform : Result) : Result :=
  if st = .ok then perform else raise o st s

/-! ### Reset (R180, R151) -/

/-- Every register, array element and instance field of the three units becomes zero (R32, R151, R180). The two port
fields are no registers of the block and stay. -/
def State.zeroUnits (s : State) : State :=
  { s with crc := CrcUnit.zero, cc := ChaCha.zero, rr := RrUnit.zero }

/-! ### The byte form of a response (R62, R63) -/

/-- `Q`: `OPC` in bits 31:24, `STATUS` in bits 23:16, `OLEN` in bits 15:0. -/
def Response.header (r : Response) : Header := mkHeader r.opc r.status.code r.out.length

/-- A response on a byte transport: `BE4(Q)`, then the output bytes. -/
def Response.bytes (r : Response) : List Byte := headerBytes r.header ++ r.out

end Sys2Proof.Machine
end

