-- ==== Sys2Proof/Machine/Crc.lean ====
section
/-! DEFINITION. The CRC unit (spec/40_crc.md): the functions of R80 to R83 and the meanings of the seven CRC commands
(R84 to R90). All arithmetic is on unsigned 64-bit words with bitwise operations and logical right shifts (R93). -/

namespace Sys2Proof.Machine

/-! ### Functions -/

/-- `Reflect(x, bits)` (R80), the loop as written: bit `i` of `x` goes to bit `bits-1-i`, for `i` in `0..bits-1`. -/
def reflect (x : Word64) (bits : Nat) : Word64 :=
  (List.range bits).foldl
    (fun r i => if x.getLsbD i then r ||| ((1#64) <<< (bits - 1 - i)) else r) 0

/-- `Mask(w) = 2^w - 1` (R81). -/
def mask (w : Nat) : Word64 := BitVec.ofNat 64 (2 ^ w - 1)

/-- One bit-serial divide step (R82): shift right, XOR with the polynomial when the bit shifted out is 1. -/
def divideStep (rpoly c : Word64) : Word64 :=
  if c.getLsbD 0 then (c >>> 1) ^^^ rpoly else c >>> 1

/-- `n` divide steps. -/
def divideSteps (rpoly : Word64) : Nat → Word64 → Word64
  | 0, c => c
  | n + 1, c => divideSteps rpoly n (divideStep rpoly c)

/-- `T[i]` of `BuildTable(rpoly, w)` (R82): 8 divide steps on the byte `i`, masked to the width. -/
def tableEntry (rpoly : Word64) (w : Nat) (i : Byte) : Word64 :=
  divideSteps rpoly 8 (i.setWidth 64) &&& mask w

/-- `BuildTable(rpoly, w)`: the 256 entries (R82). -/
def buildTable (rpoly : Word64) (w : Nat) : Vector Word64 256 :=
  Vector.ofFn fun i : Fin 256 => tableEntry rpoly w (BitVec.ofFin i)

/-- The table entry a byte-sized index selects; no index falls outside the table (R40). -/
def tableAt (tab : Vector Word64 256) (i : Byte) : Word64 := tab[i.toNat]'i.isLt

/-- `UpdateByte(S, b) = TAB[(S ^ zext_64(b)) & 0xFF] ^ (S >> 8)` (R83). -/
def updateByte (tab : Vector Word64 256) (s : Word64) (b : Byte) : Word64 :=
  tableAt tab ((s ^^^ b.setWidth 64).setWidth 8) ^^^ (s >>> 8)

/-- `UpdateByte` over the bytes in index order (R85). -/
def updateBytes (tab : Vector Word64 256) (s : Word64) (data : List Byte) : Word64 :=
  data.foldl (updateByte tab) s

/-- Whether `CRC.INIT` accepts the operands (R84): `1 ≤ width ≤ 64` and `poly ≠ 0`. -/
def legalConfig (c : CrcConfig) : Bool :=
  decide (c.width.toNat ≠ 0) && decide (c.width.toNat ≤ 64) && decide (c.poly ≠ 0)

/-- The CRC unit a legal configuration leaves (R84). -/
def configureCrc (c : CrcConfig) : CrcUnit where
  phase := .ready
  width := c.width.setWidth 7
  poly := c.poly
  init := c.init
  xorout := c.xorout
  rpoly := reflect c.poly c.width.toNat
  rinit := reflect c.init c.width.toNat
  tab := buildTable (reflect c.poly c.width.toNat) c.width.toNat
  s := reflect c.init c.width.toNat

/-- The number of bytes `CRC.FINALN` emits, for the widths that have a native form (R87). -/
def nativeBytes (w : BitVec 7) : Option Nat :=
  match w.toNat with
  | 8 => some 1
  | 16 => some 2
  | 32 => some 4
  | 64 => some 8
  | _ => none

/-! ### Commands -/

/-- `CRC.INIT width, poly, init, xorout` (R84). An illegal configuration zeroes the unit and answers `ERR_CONFIG`:
the one refusal that writes state (R165, R166). -/
def execCrcInit (p : Payload CrcConfig) (s : State) : Result :=
  withOperands .crcInit p s fun c =>
    if legalConfig c then complete .crcInit [] (s.withCrc (configureCrc c))
    else raise .crcInit .errConfig (s.withCrc CrcUnit.zero)

/-- `CRC.UPDATE bytes` (R85). Writes `CRC.S` only. -/
def execCrcUpdate (data : List Byte) (s : State) : Result :=
  whenOk .crcUpdate (crcStreamStatus s.crc.phase) s <|
    complete .crcUpdate [] (s.withCrc { s.crc with s := updateBytes s.crc.tab s.crc.s data })

/-- `CRC.FINAL` (R86): emits `BE64(CRC.S ^ CRC.XOROUT)`; only the phase changes. -/
def execCrcFinal (p : Payload Unit) (s : State) : Result :=
  withOperands .crcFinal p s fun _ =>
    whenOk .crcFinal (crcStreamStatus s.crc.phase) s <|
      complete .crcFinal (be64 (s.crc.s ^^^ s.crc.xorout)) (s.withCrc { s.crc with phase := .finalized })

/-- `CRC.FINALN` (R87): emits `BEn((CRC.S ^ CRC.XOROUT) & Mask(CRC.WIDTH))`, `n = CRC.WIDTH / 8`. The phase is
checked before the width (R168). -/
def execCrcFinaln (p : Payload Unit) (s : State) : Result :=
  withOperands .crcFinaln p s fun _ =>
    whenOk .crcFinaln (crcStreamStatus s.crc.phase) s <|
      match nativeBytes s.crc.width with
      | some n =>
        complete .crcFinaln (beBytes n ((s.crc.s ^^^ s.crc.xorout) &&& mask s.crc.width.toNat))
          (s.withCrc { s.crc with phase := .finalized })
      | none => raise .crcFinaln .errConfig s

/-- `CRC.FREE` (R88): legal in every phase; the unit is zeroed. -/
def execCrcFree (p : Payload Unit) (s : State) : Result :=
  withOperands .crcFree p s fun _ => complete .crcFree [] (s.withCrc CrcUnit.zero)

/-- `CRC.REFLECT bits, x` (R89): legal in every phase; reads and writes no state. -/
def execCrcReflect (p : Payload ReflectArgs) (s : State) : Result :=
  withOperands .crcReflect p s fun r =>
    if r.bits.toNat ≤ 64 then complete .crcReflect (be64 (reflect r.x r.bits.toNat)) s
    else raise .crcReflect .errConfig s

/-- `CRC.RDTAB index` (R90): legal in `Ready` and `Finalized`; writes nothing. -/
def execCrcRdtab (p : Payload Byte) (s : State) : Result :=
  withOperands .crcRdtab p s fun i =>
    whenOk .crcRdtab (crcReadStatus s.crc.phase) s <|
      complete .crcRdtab (be64 (tableAt s.crc.tab i)) s

end Sys2Proof.Machine
end

