-- ==== Sys2Proof/Machine/Params.lean ====
section
/-! DEFINITION. The parameter values this machine has: the spec's defaults (R4 of spec/00_scope.md). -/

namespace Sys2Proof.Machine

/-- `NONCE_COMBINE = add` (D15; log 6), `RR_PAD_FILL_OFFSET = 0` (D20; log 7), `RR_LEN_BSWAP = true` (D21; log 8). -/
def params : Config where
  nonceCombine := .add
  rrPadFillOffset := 0
  rrLenBswap := true

end Sys2Proof.Machine
end

