-- ==== Sys2Proof/Machine/ChaCha20.lean ====
section
/-! DEFINITION. The ChaCha20 functions on any instance (R100 to R109 of spec/41_chacha20.md) and the meanings of the
six CC commands (R110 to R115). Byte order, quarter round and round pattern are the spec's, taken by it from general
knowledge (G1 to G3); PRESUMED, log 13. -/

namespace Sys2Proof.Machine

/-! ### The permutation -/

/-- `ROTL32(v, n)` for `1 ≤ n ≤ 31` (R5). -/
def rotl32 (v : Word32) (n : Nat) : Word32 := (v <<< n) ||| (v >>> (32 - n))

/-- `QR(a, b, c, d)` (R101), step by step. -/
def quarterRound (q : QrWords) : QrWords :=
  let a := q.a + q.b
  let d := rotl32 (q.d ^^^ a) 16
  let c := q.c + d
  let b := rotl32 (q.b ^^^ c) 12
  let a := a + b
  let d := rotl32 (d ^^^ a) 8
  let c := c + d
  let b := rotl32 (b ^^^ c) 7
  ⟨a, b, c, d⟩

/-- The quarter round on four words of the state, in place. -/
def quarterAt (w : Vector Word32 16) (a b c d : Fin 16) : Vector Word32 16 :=
  let q := quarterRound ⟨w[a.val], w[b.val], w[c.val], w[d.val]⟩
  (((w.set a.val q.a).set b.val q.b).set c.val q.c).set d.val q.d

/-- `DoubleRound(W)`: four columns, then four diagonals (R105). -/
def doubleRound (w : Vector Word32 16) : Vector Word32 16 :=
  let w := quarterAt w 0 4 8 12
  let w := quarterAt w 1 5 9 13
  let w := quarterAt w 2 6 10 14
  let w := quarterAt w 3 7 11 15
  let w := quarterAt w 0 5 10 15
  let w := quarterAt w 1 6 11 12
  let w := quarterAt w 2 7 8 13
  quarterAt w 3 4 9 14

/-- `n` double rounds. -/
def doubleRounds : Nat → Vector Word32 16 → Vector Word32 16
  | 0, w => w
  | n + 1, w => doubleRounds n (doubleRound w)

/-- `Rounds(W)`: 10 double rounds (R105; `CC_ROUNDS = 20`, R4). -/
def rounds (w : Vector Word32 16) : Vector Word32 16 := doubleRounds 10 w

/-- The sixteen output words of the block function: the permuted state plus the state it came from (R106). -/
def blockWords (st : Vector Word32 16) : Vector Word32 16 :=
  Vector.ofFn fun i : Fin 16 => (rounds st)[i.val] + st[i.val]

/-- The keystream window of a block: `KS[4i + k]` is bits `8k+7 : 8k` of output word `i` (R42, R106). -/
def blockBytes (st : Vector Word32 16) : Vector Byte 64 :=
  let w := blockWords st
  Vector.ofFn fun m : Fin 64 => (w[m.val / 4]'(by omega)).extractLsb' (8 * (m.val % 4)) 8

/-- The counter step of `BlockNext` (R106): `ST[12]` plus 1, and a carry into `ST[13]` when it wraps to 0; a wrap of
`ST[13]` carries no further. -/
def advanceCounter (st : Vector Word32 16) : Vector Word32 16 :=
  let lo := st[12] + 1
  let st := st.set 12 lo
  if lo = 0 then st.set 13 (st[13] + 1) else st

/-! ### The state layout -/

/-- The four constant words, "expand 32-byte k" read with `LE32` (R103). -/
def constantWords : Vector Word32 4 := #v[0x61707865, 0x3320646E, 0x79622D32, 0x6B206574]

/-- How the counter's high half enters word 13 (R104, parameter `NONCE_COMBINE`). -/
def combine (how : NonceCombine) (nonceWord ctrHigh : Word32) : Word32 :=
  match how with
  | .add => nonceWord + ctrHigh
  | .xor => nonceWord ^^^ ctrHigh
  | .or => nonceWord ||| ctrHigh

/-- The sixteen words Setup lays out (R104): constants, key, counter low, nonce word 0 with counter high, nonce words
1 and 2. -/
def layout (cfg : Config) (key : Vector Byte 32) (nonce : Vector Byte 12) (ctr : Word64) : Vector Word32 16 :=
  #v[constantWords[0], constantWords[1], constantWords[2], constantWords[3],
     le32At key 0 (by decide), le32At key 4 (by decide), le32At key 8 (by decide), le32At key 12 (by decide),
     le32At key 16 (by decide), le32At key 20 (by decide), le32At key 24 (by decide), le32At key 28 (by decide),
     ctr.extractLsb' 0 32,
     combine cfg.nonceCombine (le32At nonce 0 (by decide)) (ctr.extractLsb' 32 32),
     le32At nonce 4 (by decide), le32At nonce 8 (by decide)]

/-! ### Operations on an instance -/

/-- `InstInit(I, ctr)` (R108). It writes every field, so what the instance held does not matter. -/
def instInit (ctr : Word64) : ChaCha where
  phase := .unkeyed
  key := Vector.replicate 32 0
  nonce := Vector.replicate 12 0
  ctr0 := ctr
  st := Vector.replicate 16 0
  ks := Vector.replicate 64 0
  off := 64

/-- `InstSetup(I, key, nonce)` (R104). Does not touch `KS`, `OFF` or `CTR0`. -/
def instSetup (cfg : Config) (c : ChaCha) (key : Vector Byte 32) (nonce : Vector Byte 12) : ChaCha :=
  { c with key := key, nonce := nonce, st := layout cfg key nonce c.ctr0, phase := .keyed }

/-- `BlockNext(I)` (R106). Does not touch `OFF`. -/
def blockNext (c : ChaCha) : ChaCha :=
  { c with ks := blockBytes c.st, st := advanceCounter c.st, phase := .keystreaming }

/-- One turn of the loop of `CryptBytes` (R107): a stale or exhausted window is replaced before the byte is taken.
Answers the instance and the output byte. -/
def cryptByte (c : ChaCha) (b : Byte) : ChaCha × Byte :=
  if h : c.off.val = 64 then
    ({ blockNext c with off := 1 }, b ^^^ (blockNext c).ks[0])
  else
    ({ c with off := ⟨c.off.val + 1, by omega⟩ }, b ^^^ c.ks[c.off.val]'(by omega))

/-- `CryptBytes(I, IN)` (R107): the instance afterwards and the output bytes. -/
def cryptBytes (c : ChaCha) : List Byte → ChaCha × List Byte
  | [] => (c, [])
  | b :: bs =>
    let r := cryptByte c b
    let t := cryptBytes r.1 bs
    (t.1, r.2 :: t.2)

/-- One output byte per input byte (R66, R107). -/
theorem cryptBytes_length (c : ChaCha) (bs : List Byte) : (cryptBytes c bs).2.length = bs.length := by
  induction bs generalizing c with
  | nil => rfl
  | cons b bs ih => simp [cryptBytes, ih]

/-! ### Commands -/

/-- `CC.INIT ctr` (R110): legal in every phase. -/
def execCcInit (p : Payload Word64) (s : State) : Result :=
  withOperands .ccInit p s fun ctr => complete .ccInit [] (s.withCc (instInit ctr))

/-- `CC.SETUP key32, nonce12` (R111): legal in `Unkeyed` and `Keyed`. -/
def execCcSetup (p : Payload KeyNonce) (s : State) : Result :=
  withOperands .ccSetup p s fun k =>
    whenOk .ccSetup (ccSetupStatus s.cc.phase) s <|
      complete .ccSetup [] (s.withCc (instSetup params s.cc k.key k.nonce))

/-- `CC.ENC bytes` (R112). -/
def execCcEnc (data : List Byte) (s : State) : Result :=
  whenOk .ccEnc (ccCryptStatus s.cc.phase) s <|
    complete .ccEnc (cryptBytes s.cc data).2 (s.withCc (cryptBytes s.cc data).1)

/-- `CC.DEC bytes` (R113): as `CC.ENC`, but for the opcode echoed. -/
def execCcDec (data : List Byte) (s : State) : Result :=
  whenOk .ccDec (ccCryptStatus s.cc.phase) s <|
    complete .ccDec (cryptBytes s.cc data).2 (s.withCc (cryptBytes s.cc data).1)

/-- `CC.FREE` (R114): `InstZero(CC)` (R109); legal in every phase. -/
def execCcFree (p : Payload Unit) (s : State) : Result :=
  withOperands .ccFree p s fun _ => complete .ccFree [] (s.withCc ChaCha.zero)

/-- `CC.QR a, b, c, d` (R115): legal in every phase; reads and writes no state. -/
def execCcQr (p : Payload QrWords) (s : State) : Result :=
  withOperands .ccQr p s fun q => complete .ccQr (layQrWords (quarterRound q)) s

end Sys2Proof.Machine
end

