-- ==== Sys2Proof/Machine/RoundRobin.lean ====
section
/-! DEFINITION. The RoundRobin256 unit (spec/42_roundrobin256.md): Transform, Absorb, Pad, FinalFold and Squeeze (R130
to R134) and the meanings of the four RR commands (R135 to R138). The CC unit is never involved (R34). -/

namespace Sys2Proof.Machine

/-! ### Functions -/

/-- `ACC[i mod 44] ^= BLK[i]` for `i` in `0..63` (R130). -/
def foldBlock (acc : Vector Byte 44) (blk : Vector Byte 64) : Vector Byte 44 :=
  (List.finRange 64).foldl
    (fun a i => a.set (i.val % 44) (a[i.val % 44]'(by omega) ^^^ blk[i.val]) (by omega)) acc

/-- `Transform()` (R130): encrypts the block in place with the unit's own instance and folds it into the accumulator.
Writes neither `RR.IDX` nor `RR.LEN`. -/
def transform (r : RrUnit) : RrUnit :=
  let e := cryptBytes r.cc r.blk.toList
  let blk : Vector Byte 64 := ⟨e.2.toArray, by simp [e, cryptBytes_length]⟩
  { r with cc := e.1, blk := blk, acc := foldBlock r.acc blk }

/-- One turn of the loop of `Absorb` (R131): the fold happens as soon as the 64th byte arrives. -/
def absorbByte (r : RrUnit) (b : Byte) : RrUnit :=
  let r1 := { r with blk := r.blk.set r.idx.val b }
  if h : r.idx.val + 1 = 64 then
    { transform r1 with len := r.len + 64, idx := 0 }
  else
    { r1 with idx := ⟨r.idx.val + 1, by omega⟩ }

/-- `Absorb(B)` (R131). -/
def absorb (r : RrUnit) (data : List Byte) : RrUnit := data.foldl absorbByte r

/-- The padded block of `Pad()` (R132): the pending bytes, `0x80` at the fill index `i`, then bytes of value
`i + RR_PAD_FILL_OFFSET`. -/
def padBlock (cfg : Config) (blk : Vector Byte 64) (i : Fin 64) : Vector Byte 64 :=
  Vector.ofFn fun j : Fin 64 =>
    if j.val < i.val then blk[j.val]
    else if j.val = i.val then 0x80
    else BitVec.ofNat 8 (i.val + cfg.rrPadFillOffset.val)

/-- `Pad()` (R132): adds the buffered byte count to the length and completes the block. -/
def pad (cfg : Config) (r : RrUnit) : RrUnit :=
  { r with len := r.len + BitVec.ofNat 64 r.idx.val, blk := padBlock cfg r.blk r.idx }

/-- `FinalFold()` on the accumulator (R133): bytes 24..43 XORed into 0..19; bytes 20..43 unchanged. -/
def finalFold (acc : Vector Byte 44) : Vector Byte 44 :=
  Vector.ofFn fun j : Fin 44 =>
    if h : j.val < 20 then acc[j.val] ^^^ acc[24 + j.val]'(by omega) else acc[j.val]

/-- The counter made from the total byte length (R134, parameter `RR_LEN_BSWAP`). -/
def lengthCounter (cfg : Config) (len : Word64) : Word64 :=
  if cfg.rrLenBswap then bswap64 len else len

/-- The 32-byte key the final accumulator is read as: `ACC[0..31]` (R134). -/
def accKey (acc : Vector Byte 44) : Vector Byte 32 := Vector.ofFn fun j : Fin 32 => acc[j.val]

/-- The 12-byte iv the final accumulator is read as: `ACC[32..43]` (R134). -/
def accIv (acc : Vector Byte 44) : Vector Byte 12 := Vector.ofFn fun j : Fin 12 => acc[32 + j.val]

/-- `Squeeze()` (R134): the first 32 keystream bytes of a fresh temporary instance keyed by the accumulator, with the
length as counter. The instance is not state (R31). -/
def squeeze (cfg : Config) (acc : Vector Byte 44) (len : Word64) : List Byte :=
  let t := instSetup cfg (instInit (lengthCounter cfg len)) (accKey acc) (accIv acc)
  (cryptBytes t (List.replicate 32 0)).2

/-- The RR unit `RR.INIT` leaves (R135). -/
def rrInitial (cfg : Config) : RrUnit where
  phase := .absorbing
  cc := instSetup cfg (instInit 0) (Vector.replicate 32 0) (Vector.replicate 12 0)
  acc := Vector.replicate 44 0
  blk := Vector.replicate 64 0
  idx := 0
  len := 0
  outsz := 32

/-- The digest `RR.FINAL` emits: Pad, one Transform, FinalFold, Squeeze (R137). -/
def rrDigest (cfg : Config) (r : RrUnit) : List Byte :=
  let r := transform (pad cfg r)
  squeeze cfg (finalFold r.acc) r.len

/-- The RR unit `RR.FINAL` leaves (R137): data registers zero, `RR.OUTSZ` kept, phase `Finalized`. -/
def rrFinalized (r : RrUnit) : RrUnit := { RrUnit.zero with outsz := r.outsz, phase := .finalized }

/-! ### Commands -/

/-- `RR.INIT` (R135): legal in every phase. -/
def execRrInit (p : Payload Unit) (s : State) : Result :=
  withOperands .rrInit p s fun _ => complete .rrInit [] (s.withRr (rrInitial params))

/-- `RR.UPDATE bytes` (R136). -/
def execRrUpdate (data : List Byte) (s : State) : Result :=
  whenOk .rrUpdate (rrStreamStatus s.rr.phase) s <|
    complete .rrUpdate [] (s.withRr (absorb s.rr data))

/-- `RR.FINAL` (R137). -/
def execRrFinal (p : Payload Unit) (s : State) : Result :=
  withOperands .rrFinal p s fun _ =>
    whenOk .rrFinal (rrStreamStatus s.rr.phase) s <|
      complete .rrFinal (rrDigest params s.rr) (s.withRr (rrFinalized s.rr))

/-- `RR.FREE` (R138): legal in every phase. -/
def execRrFree (p : Payload Unit) (s : State) : Result :=
  withOperands .rrFree p s fun _ => complete .rrFree [] (s.withRr RrUnit.zero)

end Sys2Proof.Machine
end

