-- ==== Sys2Proof/Machine/Sys.lean ====
section
/-! DEFINITION. The SYS commands (spec/43_sys.md, R150 and R151). -/

namespace Sys2Proof.Machine

/-- `SYS.NOP` (R150): reads no state and writes none. -/
def execSysNop (p : Payload Unit) (s : State) : Result :=
  withOperands .sysNop p s fun _ => complete .sysNop [] s

/-- `SYS.RESET` (R151): the three units are zeroed. -/
def execSysReset (p : Payload Unit) (s : State) : Result :=
  withOperands .sysReset p s fun _ => complete .sysReset [] s.zeroUnits

end Sys2Proof.Machine
end

