-- ==== Sys2Proof/Machine/Dispatch.lean ====
section
/-! DEFINITION. One arm per command: its meaning. -/

namespace Sys2Proof.Machine

def exec (i : Instr) (s : State) : Host.Outcome State Fault Refusal :=
  match i with
  | .sysNop p => Sys2Proof.Machine.execSysNop p s
  | .sysReset p => Sys2Proof.Machine.execSysReset p s
  | .crcInit p => Sys2Proof.Machine.execCrcInit p s
  | .crcUpdate data => Sys2Proof.Machine.execCrcUpdate data s
  | .crcFinal p => Sys2Proof.Machine.execCrcFinal p s
  | .crcFinaln p => Sys2Proof.Machine.execCrcFinaln p s
  | .crcFree p => Sys2Proof.Machine.execCrcFree p s
  | .crcReflect p => Sys2Proof.Machine.execCrcReflect p s
  | .crcRdtab p => Sys2Proof.Machine.execCrcRdtab p s
  | .ccInit p => Sys2Proof.Machine.execCcInit p s
  | .ccSetup p => Sys2Proof.Machine.execCcSetup p s
  | .ccEnc data => Sys2Proof.Machine.execCcEnc data s
  | .ccDec data => Sys2Proof.Machine.execCcDec data s
  | .ccFree p => Sys2Proof.Machine.execCcFree p s
  | .ccQr p => Sys2Proof.Machine.execCcQr p s
  | .rrInit p => Sys2Proof.Machine.execRrInit p s
  | .rrUpdate data => Sys2Proof.Machine.execRrUpdate data s
  | .rrFinal p => Sys2Proof.Machine.execRrFinal p s
  | .rrFree p => Sys2Proof.Machine.execRrFree p s

end Sys2Proof.Machine
end

