-- ==== Sys2Proof/Machine/Fetch.lean ====
section
/-! DEFINITION. Taking the next command from the port (R60, R69 of spec/30_encoding.md; R180, R189 of
spec/70_reset_and_hazards.md). There is no program counter and no memory to fetch from (R21, R50). -/

namespace Sys2Proof.Machine

/-- The command bytes presented before the first reset event, if any. -/
def portBytes : List PortItem → List Byte
  | [] => []
  | .byte b :: rest => b :: portBytes rest
  | .reset :: _ => []
  | .resetInProgress :: _ => []

/-- What was presented after the first reset event, if there is one. -/
def afterReset : List PortItem → Option (List PortItem)
  | [] => none
  | .byte _ :: rest => afterReset rest
  | .reset :: rest => some rest
  | .resetInProgress :: rest => some rest

/-- What the block takes from the port next. -/
inductive Fetched where
  /-- No whole command and no reset: the block waits. -/
  | waiting
  /-- A reset; the command before it that is in progress, or of which only a part was presented, is abandoned
  (R180). -/
  | reset (rest : List PortItem)
  /-- A whole command: header and payload. -/
  | command (h : Header) (p : List Byte) (rest : List PortItem)
  deriving DecidableEq, Repr

/-- A whole command and what was presented after it: the command, unless a reset arrives while it is in progress
("abandons that command: no response is produced for it and the state is the reset state, not a mixture", R180). -/
def fetchWhole (h : Header) (p : List Byte) : List PortItem → Fetched
  | .resetInProgress :: rest => .reset rest
  | rest => .command h p rest

/-- The next thing on the port: a command once its whole payload is present (R189), else a reset (R180). -/
def fetch (port : List PortItem) : Fetched :=
  match frame (portBytes port) with
  | some f => fetchWhole f.header f.payload (port.drop (4 + f.payload.length))
  | none =>
    match afterReset port with
    | some rest => .reset rest
    | none => .waiting

/-- A hardware reset (R180, R181): the units take their reset values, no response is produced. What the host
presented after the reset is still to come, and the responses it has had stay had; log 5. -/
def hardwareReset (rest : List PortItem) (s : State) : State := s.zeroUnits.withPort rest

end Sys2Proof.Machine
end

