-- ==== Sys2Proof/Machine/Step.lean ====
section
/-! DEFINITION. One step: one whole command taken, performed and answered (R8 of spec/00_scope.md, R46 and R48 of
spec/20_memory.md, R72 of spec/30_encoding.md), or one reset taken, or, with neither presented, the state held. -/

namespace Sys2Proof.Machine

/-- Decodes and performs a command that has been taken from the port (R72 steps 2 to 4). -/
def perform (h : Header) (p : List Byte) (s : State) : Host.Outcome State Fault Refusal :=
  match decodeCommand h p with
  | .ok i => exec i s
  | .error _ => raiseUnsupported h.opc s

/-- One step of the block. "With no command in progress the block simply holds its state" (R175). -/
def step (s : State) : Host.Outcome State Fault Refusal :=
  match fetch s.port with
  | .waiting => .next s
  | .reset rest => .next (hardwareReset rest s)
  | .command h p rest => perform h p (s.withPort rest)

/-- The bytes of a command as items of the port. -/
def portOf (bs : List Byte) : List PortItem := bs.map .byte

/-- Items that follow a command which runs to its end: a reset at their head arrives once it is answered. -/
def afterCommand : List PortItem → List PortItem
  | .resetInProgress :: rest => .reset :: rest
  | port => port

/-- `s` with the command of a table word presented next on the port: the very next step performs it; log 3. -/
def State.withFetchWord (s : State) (nbits w : Nat) : State :=
  s.withPort (portOf (tableBytes nbits w) ++ afterCommand s.port)

end Sys2Proof.Machine
end

