-- ==== Sys2Proof/Machine/Assembler.lean ====
section
/-! DEFINITION. The textual form of commands and responses (R70 of spec/30_encoding.md) and the pseudo-instructions
with their expansions (R71). The source has no toolchain; the form is the spec's own (D31). What R70 does not say
(blanks, operands out of range, hexadecimal digits of either case, the count in `zeros(n)`) is DESIGN CHOICE,
log 15. -/

namespace Sys2Proof.Machine

/-! ### Long data (R66, R71) -/

/-- Data cut into consecutive pieces of at most `MAX_LEN` bytes, in order; `fuel` bounds the number of cuts. -/
def splitData : Nat → List Byte → List (List Byte)
  | 0, bs => [bs]
  | fuel + 1, bs =>
    if bs.length ≤ Config.maxLen then [bs]
    else bs.take Config.maxLen :: splitData fuel (bs.drop Config.maxLen)

/-- A data command, or consecutive ones when the data is longer than one command carries (R71). -/
def dataCommands (mk : List Byte → Instr) (bs : List Byte) : List Instr :=
  (splitData bs.length bs).map mk

/-! ### Pseudo-instructions (R71) -/

/-- `CRC.RESET width, poly, init, xorout`. -/
def pseudoCrcReset (c : CrcConfig) : List Instr := [.crcInit (.fits c)]

/-- `CC.RESET ctr`. -/
def pseudoCcReset (ctr : Word64) : List Instr := [.ccInit (.fits ctr)]

/-- `RR.RESET`. -/
def pseudoRrReset : List Instr := [.rrInit (.fits ())]

/-- `CC.CRYPT bytes`. -/
def pseudoCcCrypt (bs : List Byte) : List Instr := dataCommands .ccEnc bs

/-- `CRC.SUM width, poly, init, xorout, bytes`. The closing `FREE` is always issued. -/
def pseudoCrcSum (c : CrcConfig) (bs : List Byte) : List Instr :=
  .crcInit (.fits c) :: dataCommands .crcUpdate bs ++ [.crcFinal (.fits ()), .crcFree (.fits ())]

/-- `RR.HASH bytes`. The closing `FREE` is always issued. -/
def pseudoRrHash (bs : List Byte) : List Instr :=
  .rrInit (.fits ()) :: dataCommands .rrUpdate bs ++ [.rrFinal (.fits ()), .rrFree (.fits ())]

/-- The result of a one-shot expansion, from its responses: the output of its `FINAL` when every status was `OK`,
otherwise the first status that was not (R71). -/
def oneShotResult (final : Opcode) (rs : List Response) : Except Status (List Byte) :=
  match rs.find? fun r => r.status != .ok with
  | some r => .error r.status
  | none => .ok ((rs.filter fun r => r.opc == opcodeByte final).flatMap Response.out)

/-! ### Words of a line (R70) -/

/-- What a line is made of. -/
inductive Token where
  | name (cs : List Char)
  | num (n : Nat)
  | bytes (bs : List Byte)
  | comma
  deriving DecidableEq, Repr

/-- An operand: a numeral or a byte sequence. -/
inductive AsmOperand where
  | num (n : Nat)
  | bytes (bs : List Byte)
  deriving DecidableEq, Repr

/-- The double quote character. -/
def quoteChar : Char := Char.ofNat 34

/-- The value of a digit, decimal or hexadecimal of either case. -/
def digitVal (c : Char) : Option Nat :=
  let n := c.toNat
  if 48 ≤ n ∧ n ≤ 57 then some (n - 48)
  else if 65 ≤ n ∧ n ≤ 70 then some (n - 55)
  else if 97 ≤ n ∧ n ≤ 102 then some (n - 87)
  else none

/-- Reads digits of the base given, most significant first. -/
def takeNumber (base : Nat) : List Char → Nat → Nat × List Char
  | [], acc => (acc, [])
  | c :: cs, acc =>
    match digitVal c with
    | some d => if d < base then takeNumber base cs (acc * base + d) else (acc, c :: cs)
    | none => (acc, c :: cs)

/-- Reads the characters up to the closing quote as their ASCII codes. -/
def takeText : List Char → Option (List Byte × List Char)
  | [] => none
  | c :: cs =>
    if c = quoteChar then some ([], cs)
    else if c.toNat < 128 then (takeText cs).map fun r => (BitVec.ofNat 8 c.toNat :: r.1, r.2)
    else none

/-- Reads pairs of hexadecimal digits up to the closing quote, two digits a byte, first byte first. -/
def takeHex : List Char → Option (List Byte × List Char)
  | [] => none
  | [c] => if c = quoteChar then some ([], []) else none
  | c :: d :: cs =>
    if c = quoteChar then some ([], d :: cs)
    else
      match digitVal c, digitVal d with
      | some x, some y => (takeHex cs).map fun r => (BitVec.ofNat 8 (16 * x + y) :: r.1, r.2)
      | _, _ => none

/-- Whether a character may stand in a mnemonic: an upper-case letter or a dot. -/
def nameChar (c : Char) : Bool := (65 ≤ c.toNat && c.toNat ≤ 90) || c.toNat == 46

/-- The first word of a text and what follows it; `none` where no word of R70 stands. R70 does not say which numerals may
be the `n` of `zeros(n)`: here a decimal numeral with no blank around it, so `zeros(0x20)` and `zeros( 32 )` are no
words; DESIGN CHOICE, log 15. -/
def takeToken (cs : List Char) : Option (Token × List Char) :=
  match cs with
  | ',' :: rest => some (.comma, rest)
  | '0' :: 'x' :: d :: rest =>
    if (digitVal d).isSome then
      let r := takeNumber 16 (d :: rest) 0
      some (.num r.1, r.2)
    else none
  | 'z' :: 'e' :: 'r' :: 'o' :: 's' :: '(' :: d :: rest =>
    if (digitVal d).any (· < 10) then
      match takeNumber 10 (d :: rest) 0 with
      | (n, ')' :: rest) => some (.bytes (List.replicate n 0), rest)
      | _ => none
    else none
  | c :: rest =>
    if c = quoteChar then (takeText rest).map fun r => (.bytes r.1, r.2)
    else if c = 'x' then
      match rest with
      | q :: rest => if q = quoteChar then (takeHex rest).map fun r => (.bytes r.1, r.2) else none
      | [] => none
    else if (digitVal c).any (· < 10) then
      let r := takeNumber 10 cs 0
      some (.num r.1, r.2)
    else if nameChar c then some (.name (cs.takeWhile nameChar), cs.dropWhile nameChar)
    else none
  | [] => none

/-- Whether a character separates words. -/
def blankChar (c : Char) : Bool := c.toNat == 32 || c.toNat == 9 || c.toNat == 13

/-- The words of a line, up to a comment; `fuel` bounds the number of words and blanks. -/
def lexLine : Nat → List Char → Option (List Token)
  | _, [] => some []
  | 0, _ => none
  | fuel + 1, c :: cs =>
    if c = ';' then some []
    else if blankChar c then lexLine fuel cs
    else
      match takeToken (c :: cs) with
      | some (t, rest) => (lexLine fuel rest).map (t :: ·)
      | none => none

/-- Operands separated by commas. -/
def parseOperands : List Token → Option (List AsmOperand)
  | [] => some []
  | [.num n] => some [.num n]
  | [.bytes bs] => some [.bytes bs]
  | .num n :: .comma :: rest => if rest.isEmpty then none else (parseOperands rest).map (.num n :: ·)
  | .bytes bs :: .comma :: rest => if rest.isEmpty then none else (parseOperands rest).map (.bytes bs :: ·)
  | _ => none

/-! ### Commands of a line (R70, R71) -/

/-- A numeral that fits `w` bits. -/
def fitBits (w n : Nat) : Option (BitVec w) := if n < 2 ^ w then some (BitVec.ofNat w n) else none

/-- A byte sequence of exactly `n` bytes. -/
def fitBytes (n : Nat) (bs : List Byte) : Option (Vector Byte n) :=
  if h : bs.length = n then some ⟨bs.toArray, by simpa using h⟩ else none

/-- The operands `width, poly, init, xorout`. -/
def asmCrcConfig (w p i x : Nat) : Option CrcConfig := do
  return ⟨← fitBits 8 w, ← fitBits 64 p, ← fitBits 64 i, ← fitBits 64 x⟩

/-- The commands one mnemonic with its operands stands for; `none` where the operands do not fit it. -/
def assembleOne (name : List Char) (ops : List AsmOperand) : Option (List Instr) :=
  let is (m : String) : Bool := name == m.toList
  match ops with
  | [] =>
    if is "SYS.NOP" then some [.sysNop (.fits ())]
    else if is "SYS.RESET" then some [.sysReset (.fits ())]
    else if is "CRC.FINAL" then some [.crcFinal (.fits ())]
    else if is "CRC.FINALN" then some [.crcFinaln (.fits ())]
    else if is "CRC.FREE" then some [.crcFree (.fits ())]
    else if is "CC.FREE" then some [.ccFree (.fits ())]
    else if is "RR.INIT" then some [.rrInit (.fits ())]
    else if is "RR.FINAL" then some [.rrFinal (.fits ())]
    else if is "RR.FREE" then some [.rrFree (.fits ())]
    else if is "RR.RESET" then some pseudoRrReset
    else none
  | [.num n] =>
    if is "CRC.RDTAB" then (fitBits 8 n).map fun i => [.crcRdtab (.fits i)]
    else if is "CC.INIT" then (fitBits 64 n).map fun c => [.ccInit (.fits c)]
    else if is "CC.RESET" then (fitBits 64 n).map pseudoCcReset
    else none
  | [.bytes bs] =>
    if is "CRC.UPDATE" then some (dataCommands .crcUpdate bs)
    else if is "CC.ENC" then some (dataCommands .ccEnc bs)
    else if is "CC.DEC" then some (dataCommands .ccDec bs)
    else if is "RR.UPDATE" then some (dataCommands .rrUpdate bs)
    else if is "CC.CRYPT" then some (pseudoCcCrypt bs)
    else if is "RR.HASH" then some (pseudoRrHash bs)
    else none
  | [.num b, .num x] =>
    if is "CRC.REFLECT" then do return [.crcReflect (.fits ⟨← fitBits 8 b, ← fitBits 64 x⟩)]
    else none
  | [.bytes k, .bytes n] =>
    if is "CC.SETUP" then do return [.ccSetup (.fits ⟨← fitBytes 32 k, ← fitBytes 12 n⟩)]
    else none
  | [.num a, .num b, .num c, .num d] =>
    if is "CRC.INIT" then (asmCrcConfig a b c d).map fun f => [.crcInit (.fits f)]
    else if is "CRC.RESET" then (asmCrcConfig a b c d).map pseudoCrcReset
    else if is "CC.QR" then do
      return [.ccQr (.fits ⟨← fitBits 32 a, ← fitBits 32 b, ← fitBits 32 c, ← fitBits 32 d⟩)]
    else none
  | [.num a, .num b, .num c, .num d, .bytes bs] =>
    if is "CRC.SUM" then (asmCrcConfig a b c d).map fun f => pseudoCrcSum f bs
    else none
  | _ => none

/-- One line: nothing, or a mnemonic and its operands. -/
def assembleLine (cs : List Char) : Option (List Instr) :=
  match lexLine (cs.length + 1) cs with
  | some [] => some []
  | some (.name m :: ops) => (parseOperands ops).bind (assembleOne m)
  | _ => none

/-- The lines of a text. -/
def textLines : List Char → List (List Char)
  | [] => [[]]
  | c :: cs =>
    match textLines cs with
    | [] => [[c]]
    | l :: ls => if c = '\n' then [] :: l :: ls else (c :: l) :: ls

/-- A program: one command a line, in order (R70). -/
def assemble (src : String) : Option (List Instr) :=
  ((textLines src.toList).mapM assembleLine).map List.flatten

/-! ### The textual form of a response (R70) -/

/-- The name of a status (R160). -/
def Status.text : Status → String
  | .ok => "OK"
  | .errUnsupported => "ERR_UNSUPPORTED"
  | .errNotInitialized => "ERR_NOT_INITIALIZED"
  | .errConfig => "ERR_CONFIG"
  | .errLength => "ERR_LENGTH"
  | .errPhase => "ERR_PHASE"

/-- A hexadecimal digit, upper case. -/
def hexDigit (n : Nat) : Char := if n < 10 then Char.ofNat (48 + n) else Char.ofNat (55 + n)

/-- Two hexadecimal digits a byte. -/
def hexText (bs : List Byte) : List Char :=
  bs.flatMap fun b => [hexDigit (b.toNat / 16), hexDigit (b.toNat % 16)]

/-- `-> STATUS`, or `-> OK x"output bytes"` where there are output bytes. -/
def Response.text (r : Response) : String :=
  "-> " ++ r.status.text ++
    if r.out.isEmpty then ""
    else String.ofList (' ' :: 'x' :: quoteChar :: hexText r.out ++ [quoteChar])

end Sys2Proof.Machine
end

