-- ==== Sys2Proof/Safety.lean ====
section
/-! DEFINITION. What holds of the block between commands: the invariants the spec states of each unit (R23, R26, R28
of spec/10_state.md, R94 of spec/40_crc.md). A safe run is one whose every state has them; the block has no fault to
be safe from. -/

namespace Sys2Proof.Machine

/-- The invariants of the CRC unit (R23; the reflected forms are those of R22). -/
structure CrcUnit.Inv (u : CrcUnit) : Prop where
  /-- R23 (a): the table is fully built. -/
  table : u.phase ≠ .idle → u.tab = buildTable u.rpoly u.width.toNat
  /-- R23 (b): the configuration is legal. -/
  config : u.phase ≠ .idle → 1 ≤ u.width.toNat ∧ u.width.toNat ≤ 64 ∧ u.poly ≠ 0
  /-- R22: the derived registers. -/
  reflected : u.phase ≠ .idle → u.rpoly = reflect u.poly u.width.toNat ∧ u.rinit = reflect u.init u.width.toNat
  /-- R23 (c): nothing at or above `2^CRC.WIDTH`. -/
  bound : u.rpoly.toNat < 2 ^ u.width.toNat ∧ u.rinit.toNat < 2 ^ u.width.toNat ∧ u.s.toNat < 2 ^ u.width.toNat ∧
    ∀ i : Byte, (tableAt u.tab i).toNat < 2 ^ u.width.toNat
  /-- R23 (d): in `Idle` everything is zero. -/
  idleZero : u.phase = .idle → u = CrcUnit.zero

/-- `n` counter steps, one for each block generated. -/
def advanceCounters : Nat → Vector Word32 16 → Vector Word32 16
  | 0, st => st
  | n + 1, st => advanceCounter (advanceCounters n st)

/-- The state after Setup and `n` block generations, from the stored key, nonce and starting counter. -/
def ChaCha.stAfter (cfg : Config) (c : ChaCha) (n : Nat) : Vector Word32 16 :=
  advanceCounters n (layout cfg c.key c.nonce c.ctr0)

/-- The invariants of a ChaCha20 instance (R26): (a) is the type of `OFF`; (c), (d) and (e) are these, (c) and (e)
through `stAfter`: the state words are those Setup laid out, advanced once a block. -/
structure ChaCha.Inv (cfg : Config) (c : ChaCha) : Prop where
  /-- R26 (d): in `Idle` every field is zero. -/
  idleZero : c.phase = .idle → c = ChaCha.zero
  /-- R26 (d): in `Unkeyed` nothing but the starting counter is set, and the window is stale. -/
  unkeyed : c.phase = .unkeyed → c = instInit c.ctr0
  /-- R26 (d): in `Keyed` no block has been generated since Setup. -/
  keyed : c.phase = .keyed → c.off = 64 ∧ c.st = c.stAfter cfg 0
  /-- R26 (c), (d): in `Keystreaming` some number `n + 1` of blocks has been generated since Setup; the window holds
  the latest. -/
  keystreaming : c.phase = .keystreaming →
    ∃ n, c.st = c.stAfter cfg (n + 1) ∧ c.ks = blockBytes (c.stAfter cfg n) ∧ c.off ≠ 0

/-- The invariants of the RR unit (R28): (a) is the type of `RR.IDX`. -/
structure RrUnit.Inv (cfg : Config) (r : RrUnit) : Prop where
  /-- R28 (b), (c): after `n` Transforms `RR.LEN` is `64 n`, the inner instance is that of the all-zero key, nonce and
  counter after `n` blocks, its window is used up, and its phase says whether a Transform has run. -/
  absorbing : r.phase = .absorbing → r.outsz = 32 ∧ r.cc.off = 64 ∧
    r.cc.key = Vector.replicate 32 0 ∧ r.cc.nonce = Vector.replicate 12 0 ∧ r.cc.ctr0 = 0 ∧
    ∃ n, r.len = BitVec.ofNat 64 (64 * n) ∧ r.cc.st = r.cc.stAfter cfg n ∧
      r.cc.phase = if n = 0 then .keyed else .keystreaming
  /-- R28 (d): in `Idle` everything is zero. -/
  idleZero : r.phase = .idle → r = RrUnit.zero
  /-- R28 (d): in `Finalized` everything is zero but the phase and the output size. -/
  finalizedZero : r.phase = .finalized → r = { RrUnit.zero with phase := .finalized, outsz := 32 }
  /-- The inner instance keeps the invariants of an instance (R26). -/
  inner : r.cc.Inv cfg

/-- The invariants of the block, true between commands. -/
structure State.Inv (s : State) : Prop where
  crc : s.crc.Inv
  cc : s.cc.Inv params
  rr : s.rr.Inv params

end Sys2Proof.Machine
end

