-- ==== Sys2Proof/Certificates/Slice0/Obligations.lean ====
section
/-! DEFINITION. The statements for the provers, each with the rule of spec/ it formalises, and the few terms they are
stated in. Next states are written out as record updates of the state before, so that each says its frame too. -/

namespace Sys2Proof.Machine

/-! ### Terms of the statements -/

/-- Performs commands in order (R48); each is answered before the next. -/
def performAll : List Instr → State → State
  | [], s => s
  | i :: is, s =>
    match exec i s with
    | .next t => performAll is t
    | _ => performAll is s

/-- `OLEN` of a command that answers `OK` (R66). -/
def okOutputLength (i : Instr) (s : State) : Nat :=
  match i with
  | .crcFinal _ => 8
  | .crcFinaln _ => s.crc.width.toNat / 8
  | .crcReflect _ => 8
  | .crcRdtab _ => 8
  | .ccEnc data => data.length
  | .ccDec data => data.length
  | .ccQr _ => 16
  | .rrFinal _ => 32
  | _ => 0

/-- The status a legal-length command answers, read off the matrix of R176, with the operand checks of R165 where the
matrix says `OK*`. -/
def matrixStatus (i : Instr) (s : State) : Status :=
  match i, s.crc.phase, s.cc.phase, s.rr.phase with
  | .sysNop _, _, _, _ => .ok
  | .sysReset _, _, _, _ => .ok
  | .crcInit (.fits c), _, _, _ =>
    if c.width = 0 ∨ 64 < c.width.toNat ∨ c.poly = 0 then .errConfig else .ok
  | .crcInit (.wrongLength _), _, _, _ => .errLength
  | .crcUpdate _, .idle, _, _ => .errNotInitialized
  | .crcUpdate _, .ready, _, _ => .ok
  | .crcUpdate _, .finalized, _, _ => .errPhase
  | .crcFinal _, .idle, _, _ => .errNotInitialized
  | .crcFinal _, .ready, _, _ => .ok
  | .crcFinal _, .finalized, _, _ => .errPhase
  | .crcFinaln _, .idle, _, _ => .errNotInitialized
  | .crcFinaln _, .ready, _, _ =>
    if s.crc.width = 8 ∨ s.crc.width = 16 ∨ s.crc.width = 32 ∨ s.crc.width = 64 then .ok else .errConfig
  | .crcFinaln _, .finalized, _, _ => .errPhase
  | .crcFree _, _, _, _ => .ok
  | .crcReflect (.fits r), _, _, _ => if 64 < r.bits.toNat then .errConfig else .ok
  | .crcReflect (.wrongLength _), _, _, _ => .errLength
  | .crcRdtab _, .idle, _, _ => .errNotInitialized
  | .crcRdtab _, .ready, _, _ => .ok
  | .crcRdtab _, .finalized, _, _ => .ok
  | .ccInit _, _, _, _ => .ok
  | .ccFree _, _, _, _ => .ok
  | .ccQr _, _, _, _ => .ok
  | .ccSetup _, _, .idle, _ => .errNotInitialized
  | .ccSetup _, _, .unkeyed, _ => .ok
  | .ccSetup _, _, .keyed, _ => .ok
  | .ccSetup _, _, .keystreaming, _ => .errPhase
  | .ccEnc _, _, .idle, _ => .errNotInitialized
  | .ccEnc _, _, .unkeyed, _ => .errNotInitialized
  | .ccEnc _, _, .keyed, _ => .ok
  | .ccEnc _, _, .keystreaming, _ => .ok
  | .ccDec _, _, .idle, _ => .errNotInitialized
  | .ccDec _, _, .unkeyed, _ => .errNotInitialized
  | .ccDec _, _, .keyed, _ => .ok
  | .ccDec _, _, .keystreaming, _ => .ok
  | .rrInit _, _, _, _ => .ok
  | .rrFree _, _, _, _ => .ok
  | .rrUpdate _, _, _, .idle => .errNotInitialized
  | .rrUpdate _, _, _, .absorbing => .ok
  | .rrUpdate _, _, _, .finalized => .errPhase
  | .rrFinal _, _, _, .idle => .errNotInitialized
  | .rrFinal _, _, _, .absorbing => .ok
  | .rrFinal _, _, _, .finalized => .errPhase

/-- `UNIT` of a command's opcode: 0 SYS, 1 CRC, 2 CC, 3 RR (R61, R65). -/
def unitOf (i : Instr) : Nat := (opcodeByte i.opcode).toNat / 16

/-- `UNIT` of the opcode a response echoes (R62). -/
def responseUnit (r : Response) : Nat := r.opc.toNat / 16

/-- The commands of one unit, and `SYS.RESET`, which writes every unit (R34). -/
def concerns (unit : Nat) (i : Instr) : Bool := unitOf i == unit || i.opcode == .sysReset

/-- The responses to the commands of one unit, in order. -/
def responsesOf (unit : Nat) (rs : List Response) : List Response := rs.filter fun r => responseUnit r == unit

/-- A native-width CRC engine's table entry: the identical algorithm on `w`-bit words (R87, R95). -/
def nativeEntry {w : Nat} (rpoly : BitVec w) (i : Byte) : BitVec w :=
  (List.range 8).foldl (fun c _ => if c.getLsbD 0 then (c >>> 1) ^^^ rpoly else c >>> 1) (i.setWidth w)

/-- A native-width CRC engine's state after the bytes given, from `w`-bit polynomial and initial value (R95). -/
def nativeState {w : Nat} (poly init : BitVec w) (data : List Byte) : BitVec w :=
  data.foldl (fun s b => nativeEntry poly.reverse (s.setWidth 8 ^^^ b) ^^^ (s >>> 8)) init.reverse

/-- The bytes of a `w`-bit word, most significant first. -/
def nativeBytesOf {w : Nat} (v : BitVec w) : List Byte :=
  (List.range (w / 8)).map fun k => v.extractLsb' (w - 8 * (k + 1)) 8

/-- The CRC state after a byte, bit by bit and with no table: eight divide steps of the low byte XORed in. -/
def bitSerialByte (rpoly s : Word64) (b : Byte) : Word64 := divideSteps rpoly 8 (s ^^^ b.setWidth 64)

/-- The word indices of the quarter rounds of one double round, in order: four columns, four diagonals (R105). -/
def doubleRoundSteps : List (Fin 16 × Fin 16 × Fin 16 × Fin 16) :=
  [(0, 4, 8, 12), (1, 5, 9, 13), (2, 6, 10, 14), (3, 7, 11, 15),
   (0, 5, 10, 15), (1, 6, 11, 12), (2, 7, 8, 13), (3, 4, 9, 14)]

/-- Block `B_t` of the padded message `M` of `L` bytes (R141). -/
def messageBlock (cfg : Config) (m : List Byte) (t : Nat) (j : Nat) : Byte :=
  let i := 64 * t + j
  if i < m.length then m.getD i 0
  else if i = m.length then 0x80
  else BitVec.ofNat 8 (m.length % 64 + cfg.rrPadFillOffset.val)

/-- The state `K_t` is computed from: all-zero key and nonce, running counter `t` (R141). -/
def innerState (t : Nat) : Vector Word32 16 :=
  #v[0x61707865, 0x3320646E, 0x79622D32, 0x6B206574, 0, 0, 0, 0, 0, 0, 0, 0,
     BitVec.ofNat 32 t, BitVec.ofNat 32 (t / 2 ^ 32), 0, 0]

/-- `E_t[i] = B_t[i] ^ K_t[i]` (R141). -/
def encryptedByte (cfg : Config) (m : List Byte) (t : Nat) (i : Fin 64) : Byte :=
  messageBlock cfg m t i.val ^^^ (blockBytes (innerState t))[i.val]

/-- `A[j]`: XOR over `t` in `0..n` and `i` in `{j, j+44}` with `i ≤ 63` of `E_t[i]` (R141). -/
def digestAccumulator (cfg : Config) (m : List Byte) (j : Fin 44) : Byte :=
  (List.range (m.length / 64 + 1)).foldl
    (fun a t => a ^^^ encryptedByte cfg m t ⟨j.val, by omega⟩ ^^^
      (if h : j.val + 44 < 64 then encryptedByte cfg m t ⟨j.val + 44, h⟩ else 0)) 0

/-- `A'[j]`: the accumulator after the final fold (R141). -/
def digestFolded (cfg : Config) (m : List Byte) (j : Fin 44) : Byte :=
  if h : j.val < 20 then digestAccumulator cfg m j ^^^ digestAccumulator cfg m ⟨24 + j.val, by omega⟩
  else digestAccumulator cfg m j

/-- The digest of a message as a function (R141). -/
def digestOf (cfg : Config) (m : List Byte) : List Byte :=
  let key : Vector Byte 32 := Vector.ofFn fun j : Fin 32 => digestFolded cfg m ⟨j.val, by omega⟩
  let nonce : Vector Byte 12 := Vector.ofFn fun j : Fin 12 => digestFolded cfg m ⟨32 + j.val, by omega⟩
  let len := BitVec.ofNat 64 m.length
  let ctr := if cfg.rrLenBswap then bswap64 len else len
  (blockBytes (layout cfg key nonce ctr)).toList.take 32

end Sys2Proof.Machine

open Sys2Proof Sys2Proof.Machine

/-! ### Reset and the step -/

/-- R32: "every register, array element and instance field of the block is zero, and therefore every phase is
`Idle`"; and the state after `FREE` of a unit is the unit's reset state. -/
def Obligations.ResetLeavesEveryRegisterZero : Prop :=
  (State.reset.crc.phase.code = 0 ∧ State.reset.crc.width = 0 ∧ State.reset.crc.poly = 0 ∧
    State.reset.crc.init = 0 ∧ State.reset.crc.xorout = 0 ∧ State.reset.crc.rpoly = 0 ∧
    State.reset.crc.rinit = 0 ∧ State.reset.crc.s = 0 ∧ ∀ i : Byte, tableAt State.reset.crc.tab i = 0) ∧
  (∀ c ∈ [State.reset.cc, State.reset.rr.cc],
    c.phase.code = 0 ∧ (∀ j : Fin 32, c.key[j] = 0) ∧ (∀ j : Fin 12, c.nonce[j] = 0) ∧ c.ctr0 = 0 ∧
    (∀ j : Fin 16, c.st[j] = 0) ∧ (∀ j : Fin 64, c.ks[j] = 0) ∧ c.off = 0) ∧
  (State.reset.rr.phase.code = 0 ∧ (∀ j : Fin 44, State.reset.rr.acc[j] = 0) ∧
    (∀ j : Fin 64, State.reset.rr.blk[j] = 0) ∧ State.reset.rr.idx = 0 ∧ State.reset.rr.len = 0 ∧
    State.reset.rr.outsz = 0) ∧
  ∀ s : State, (performAll [.crcFree (.fits ())] s).crc = State.reset.crc ∧
    (performAll [.ccFree (.fits ())] s).cc = State.reset.cc ∧ (performAll [.rrFree (.fits ())] s).rr = State.reset.rr

/-- The invariants of R23, R26 and R28 hold after reset (R32). Some of their clauses the spec marks [derived]. -/
def Obligations.ResetMeetsUnitInvariants : Prop := State.reset.Inv

/-- R23 is "true between commands": every step keeps it, from every state that has it. The spec marks R23 (c)
[derived]. -/
def Obligations.StepKeepsCrcInvariants : Prop :=
  ∀ s t : State, s.crc.Inv → step s = .next t → t.crc.Inv

/-- R26 is "true between commands" of the CC unit: every step keeps it, from every state that has it. The spec marks
R26 (c), (d), (e) [derived]. -/
def Obligations.StepKeepsChaChaInvariants : Prop :=
  ∀ s t : State, s.cc.Inv params → step s = .next t → t.cc.Inv params

/-- R28 is "true between commands": every step keeps it, from every state that has it. The spec marks R28 (a), (c)
[derived]. -/
def Obligations.StepKeepsRoundRobinInvariants : Prop :=
  ∀ s t : State, s.rr.Inv params → step s = .next t → t.rr.Inv params

/-- A step performs the command at the front of the port: when the bytes presented decode to a command and no reset
arrives while it is in progress, the step is the command's meaning at the state with those bytes taken (R8, R48, R72).
The port is the model's own (log 1); the command a reset interrupts is in IncompleteCommandWaitsOrIsAbandoned. -/
def Obligations.StepPerformsDecodedCommand : Prop :=
  ∀ (s : State) (bs : List Byte) (i : Instr) (later : List PortItem), decode bs = .command i [] →
    later.head? ≠ some .resetInProgress →
    step { s with port := portOf bs ++ later } = exec i { s with port := later }

/-- R161: an illegal header (`RSV ≠ 0`, or an `OPC` with no row) is answered `ERR_UNSUPPORTED`, its payload is taken
and discarded, no state of any unit changes, and every `FREE` remains legal afterwards. The port is the model's own
(log 1). -/
def Obligations.IllegalHeaderIsUnsupported : Prop :=
  ∀ (s : State) (h : Header) (p : List Byte) (later : List PortItem), p.length = h.len →
    later.head? ≠ some .resetInProgress → (h.rsv ≠ 0 ∨ ∀ o : Opcode, opcodeByte o ≠ h.opc) →
    ∃ t : State, step { s with port := portOf (headerBytes h ++ p) ++ later } = .next t ∧
      t = { s with port := later, responses := s.responses ++ [⟨h.opc, .errUnsupported, []⟩] } ∧
      ∀ i ∈ [Instr.crcFree (.fits ()), .ccFree (.fits ()), .rrFree (.fits ())],
        ∃ u : State, exec i t = .next u ∧ u.responses = t.responses ++ [⟨opcodeByte i.opcode, .ok, []⟩]

/-- R164: a header that selects a command and a `LEN` that is not legal for it: `ERR_LENGTH`, no state change, the
payload taken and discarded. The port is the model's own (log 1). -/
def Obligations.IllegalLengthIsRefused : Prop :=
  ∀ (s : State) (h : Header) (o : Opcode) (p : List Byte) (later : List PortItem), p.length = h.len →
    later.head? ≠ some .resetInProgress → h.rsv = 0 → h.opc = opcodeByte o → (∃ k, fixedLen o = some k ∧ h.len ≠ k) →
    step { s with port := portOf (headerBytes h ++ p) ++ later } =
      .next { s with port := later, responses := s.responses ++ [⟨h.opc, .errLength, []⟩] }

/-- With no whole command and no reset presented, the block holds its state (R175, R189); a reset that arrives while a
command is in progress, or before it is whole, abandons it: no response, and the reset state, not a mixture (R180).
That the port tells the two kinds of reset apart, that what was presented after the reset is still to come and that
responses already given stay given is the model's choice (logs 1, 5). -/
def Obligations.IncompleteCommandWaitsOrIsAbandoned : Prop :=
  ∀ s : State,
    (∀ bs : List Byte, bs.length < 4 → s.port = portOf bs → step s = .next s) ∧
    (∀ (h : Header) (p : List Byte), p.length < h.len → s.port = portOf (headerBytes h ++ p) → step s = .next s) ∧
    (∀ (h : Header) (p : List Byte) (later : List PortItem), p.length = h.len →
      s.port = portOf (headerBytes h ++ p) ++ .resetInProgress :: later →
      step s = .next { State.reset with port := later, responses := s.responses }) ∧
    (∀ (bs : List Byte) (later : List PortItem), frame bs = none →
      s.port = portOf bs ++ .reset :: later ∨ s.port = portOf bs ++ .resetInProgress :: later →
      step s = .next { State.reset with port := later, responses := s.responses })

/-! ### Encoding -/

/-- R65: the opcode map, and which headers select a row. -/
def Obligations.HeaderSelectsItsRow : Prop :=
  allOpcodes.map opcodeByte = [0x00, 0x01, 0x10, 0x11, 0x12, 0x13, 0x14, 0x15, 0x16,
    0x20, 0x21, 0x22, 0x23, 0x24, 0x25, 0x30, 0x31, 0x32, 0x34] ∧
  (∀ o : Opcode, o ∈ allOpcodes) ∧
  ∀ (h : Header) (o : Opcode),
    (selectOpcode h = some o ↔ h.opc = opcodeByte o ∧ h.rsv = 0) ∧
    (selectOpcode h = some o ↔ h &&& 0xFFFF0000#32 = (opcodeByte o).setWidth 32 <<< 24)

/-- Decode and encode agree: the bytes of a well-formed command, with anything after them, decode to it, whatever its
operands (R60 to R66, R72). -/
def Obligations.DecodeOfEncodeIsTheCommand : Prop :=
  ∀ (i : Instr) (rest : List Byte), i.wellFormed = true → decode (encode i ++ rest) = .command i rest

/-- The other direction: what decodes to a command is well-formed and is that command's bytes. -/
def Obligations.EncodeOfDecodeIsTheBytes : Prop :=
  ∀ (bs rest : List Byte) (i : Instr), decode bs = .command i rest → i.wellFormed = true ∧ encode i ++ rest = bs

/-- R64: for every payload of the legal length, which payload bytes are which operand, and in which byte order: numeric
operands most significant byte first, the words of `CC.QR` least significant first, byte sequences in order; all
others have no payload. Then words of the spec's own programs (P1, P4, P5, V38 of 95_test_vectors.md). -/
def Obligations.SpecCommandBytesDecode : Prop :=
  (∀ p : Vector Byte 25, ∃ c : CrcConfig,
    decode ([0x10, 0x00, 0x00, 0x19] ++ p.toList) = .command (.crcInit (.fits c)) [] ∧ c.width = p[0] ∧
    ∀ k : Fin 8, c.poly.extractLsb' (56 - 8 * k.val) 8 = p[1 + k.val] ∧
      c.init.extractLsb' (56 - 8 * k.val) 8 = p[9 + k.val] ∧
      c.xorout.extractLsb' (56 - 8 * k.val) 8 = p[17 + k.val]) ∧
  (∀ p : Vector Byte 9, ∃ r : ReflectArgs,
    decode ([0x15, 0x00, 0x00, 0x09] ++ p.toList) = .command (.crcReflect (.fits r)) [] ∧ r.bits = p[0] ∧
    ∀ k : Fin 8, r.x.extractLsb' (56 - 8 * k.val) 8 = p[1 + k.val]) ∧
  (∀ b : Byte, decode [0x16, 0x00, 0x00, 0x01, b] = .command (.crcRdtab (.fits b)) []) ∧
  (∀ p : Vector Byte 8, ∃ ctr : Word64,
    decode ([0x20, 0x00, 0x00, 0x08] ++ p.toList) = .command (.ccInit (.fits ctr)) [] ∧
    ∀ k : Fin 8, ctr.extractLsb' (56 - 8 * k.val) 8 = p[k.val]) ∧
  (∀ p : Vector Byte 44, ∃ a : KeyNonce,
    decode ([0x21, 0x00, 0x00, 0x2C] ++ p.toList) = .command (.ccSetup (.fits a)) [] ∧
    (∀ j : Fin 32, a.key[j.val] = p[j.val]) ∧ ∀ j : Fin 12, a.nonce[j.val] = p[32 + j.val]) ∧
  (∀ p : Vector Byte 16, ∃ q : QrWords,
    decode ([0x25, 0x00, 0x00, 0x10] ++ p.toList) = .command (.ccQr (.fits q)) [] ∧
    ∀ k : Fin 4, q.a.extractLsb' (8 * k.val) 8 = p[k.val] ∧ q.b.extractLsb' (8 * k.val) 8 = p[4 + k.val] ∧
      q.c.extractLsb' (8 * k.val) 8 = p[8 + k.val] ∧ q.d.extractLsb' (8 * k.val) 8 = p[12 + k.val]) ∧
  (∀ data : List Byte, data.length ≤ 65535 →
    let len : List Byte := [BitVec.ofNat 8 (data.length / 256), BitVec.ofNat 8 data.length]
    decode ([0x11, 0x00] ++ len ++ data) = .command (.crcUpdate data) [] ∧
    decode ([0x22, 0x00] ++ len ++ data) = .command (.ccEnc data) [] ∧
    decode ([0x23, 0x00] ++ len ++ data) = .command (.ccDec data) [] ∧
    decode ([0x31, 0x00] ++ len ++ data) = .command (.rrUpdate data) []) ∧
  (decode [0x00, 0x00, 0x00, 0x00] = .command (.sysNop (.fits ())) [] ∧
    decode [0x01, 0x00, 0x00, 0x00] = .command (.sysReset (.fits ())) [] ∧
    decode [0x12, 0x00, 0x00, 0x00] = .command (.crcFinal (.fits ())) [] ∧
    decode [0x13, 0x00, 0x00, 0x00] = .command (.crcFinaln (.fits ())) [] ∧
    decode [0x14, 0x00, 0x00, 0x00] = .command (.crcFree (.fits ())) [] ∧
    decode [0x24, 0x00, 0x00, 0x00] = .command (.ccFree (.fits ())) [] ∧
    decode [0x30, 0x00, 0x00, 0x00] = .command (.rrInit (.fits ())) [] ∧
    decode [0x32, 0x00, 0x00, 0x00] = .command (.rrFinal (.fits ())) [] ∧
    decode [0x34, 0x00, 0x00, 0x00] = .command (.rrFree (.fits ())) []) ∧
  decode [0x00, 0x00, 0x00, 0x00] = .command (.sysNop (.fits ())) [] ∧
  decode [0x11, 0x00, 0x00, 0x05, 0x68, 0x65, 0x6C, 0x6C, 0x6F] = .command (.crcUpdate [0x68, 0x65, 0x6C, 0x6C, 0x6F]) [] ∧
  decode [0x15, 0x00, 0x00, 0x09, 0x20, 0x00, 0x00, 0x00, 0x00, 0x04, 0xC1, 0x1D, 0xB7] =
    .command (.crcReflect (.fits ⟨32, 0x04C11DB7⟩)) [] ∧
  decode [0x20, 0x00, 0x00, 0x08, 0x00, 0x00, 0x00, 0x00, 0x00, 0x00, 0x00, 0x00] = .command (.ccInit (.fits 0)) [] ∧
  decode [0x25, 0x00, 0x00, 0x10, 0x11, 0x11, 0x11, 0x11, 0x04, 0x03, 0x02, 0x01, 0x43, 0x6F, 0x8D, 0x9B,
      0x67, 0x45, 0x23, 0x01] =
    .command (.ccQr (.fits ⟨0x11111111, 0x01020304, 0x9B8D6F43, 0x01234567⟩)) [] ∧
  decode [0x31, 0x00, 0x00, 0x01, 0x61] = .command (.rrUpdate [0x61]) [] ∧
  decode [0x12, 0x00, 0x00, 0x01, 0x00] = .command (.crcFinal (.wrongLength [0x00])) [] ∧
  decode [0xFF, 0x00, 0x00, 0x02, 0xAA, 0xBB] = .illegal .noSuchUnit 0xFF []

/-- R62: the fields of a response header, and a response's bytes; R160: the six status codes, the only ones. -/
def Obligations.ResponseHeaderHoldsItsFields : Prop :=
  (Status.code .ok = 0x00 ∧ Status.code .errUnsupported = 0x01 ∧ Status.code .errNotInitialized = 0x02 ∧
    Status.code .errConfig = 0x03 ∧ Status.code .errLength = 0x04 ∧ Status.code .errPhase = 0x05 ∧
    ∀ st : Status, st.code.toNat < 6) ∧
  ∀ r : Response, r.out.length ≤ 65535 →
    Header.opc r.header = r.opc ∧ Header.rsv r.header = r.status.code ∧ Header.len r.header = r.out.length ∧
    r.bytes = headerBytes r.header ++ r.out

/-! ### All commands -/

/-- Every command in every state is answered by exactly one response that echoes its opcode, carries no output bytes
when it is refused, and carries `OLEN` of R66 when it completes; the rest of the port is not touched (R62, R66). The
list of responses is the model's own (log 2). -/
def Obligations.EveryCommandIsAnsweredOnce : Prop :=
  ∀ (i : Instr) (s : State), ∃ (t : State) (r : Response), exec i s = .next t ∧
    t.responses = s.responses ++ [r] ∧ t.port = s.port ∧ r.opc = opcodeByte i.opcode ∧
    (r.status ≠ .ok → r.out = []) ∧ (r.status = .ok → r.out.length = okOutputLength i s)

/-- R176: the complete status matrix, for every command with a payload of a legal length. The spec marks it [derived].
-/
def Obligations.StatusMatrixHolds : Prop :=
  ∀ (i : Instr) (s : State), legalLen i.opcode i.payload.length = true → i.wellFormed = true →
    ∃ (t : State) (out : List Byte), exec i s = .next t ∧
      t.responses = s.responses ++ [⟨opcodeByte i.opcode, matrixStatus i s, out⟩]

/-- R166: a refused command writes no state, but for `CRC.INIT` failing its operand check, which zeroes the CRC
unit. -/
def Obligations.RefusedCommandWritesNoState : Prop :=
  ∀ (i : Instr) (s t : State) (r : Response), exec i s = .next t → t.responses = s.responses ++ [r] →
    r.status ≠ .ok → r.out = [] ∧
    (t = { s with responses := s.responses ++ [r] } ∨
     ((∃ c, i = .crcInit (.fits c)) ∧ r.status = .errConfig ∧
      t = { s with crc := CrcUnit.zero, responses := s.responses ++ [r] }))

/-- R34: a command writes only its own unit, `SYS.NOP` nothing. -/
def Obligations.CommandWritesOnlyItsUnit : Prop :=
  ∀ (i : Instr) (s t : State), exec i s = .next t → i.opcode ≠ .sysReset →
    (unitOf i ≠ 1 → t.crc = s.crc) ∧ (unitOf i ≠ 2 → t.cc = s.cc) ∧ (unitOf i ≠ 3 → t.rr = s.rr)

/-- R34: "No command of one unit changes the outcome of any later command of another unit": what one unit answers to
a sequence of commands, and the state it is left in, is what it answers to its own commands (and `SYS.RESET`) alone,
from any state in which that unit is the same. -/
def Obligations.UnitsDoNotInterfere : Prop :=
  ∀ (is : List Instr) (s s' : State),
    (s.crc = s'.crc → responsesOf 1 s.responses = responsesOf 1 s'.responses →
      (performAll is s).crc = (performAll (is.filter (concerns 1)) s').crc ∧
      responsesOf 1 (performAll is s).responses = responsesOf 1 (performAll (is.filter (concerns 1)) s').responses) ∧
    (s.cc = s'.cc → responsesOf 2 s.responses = responsesOf 2 s'.responses →
      (performAll is s).cc = (performAll (is.filter (concerns 2)) s').cc ∧
      responsesOf 2 (performAll is s).responses = responsesOf 2 (performAll (is.filter (concerns 2)) s').responses) ∧
    (s.rr = s'.rr → responsesOf 3 s.responses = responsesOf 3 s'.responses →
      (performAll is s).rr = (performAll (is.filter (concerns 3)) s').rr ∧
      responsesOf 3 (performAll is s).responses = responsesOf 3 (performAll (is.filter (concerns 3)) s').responses)

/-! ### SYS -/

/-- R150: `SYS.NOP` completes in every state and writes nothing; with a payload it is refused; the all-zero header word
is `SYS.NOP`. -/
def Obligations.SysNopChangesNothing : Prop :=
  decode [0, 0, 0, 0] = .command (.sysNop (.fits ())) [] ∧
  ∀ (s : State) (p : List Byte),
    exec (.sysNop (.fits ())) s = .next { s with responses := s.responses ++ [⟨0x00, .ok, []⟩] } ∧
    exec (.sysNop (.wrongLength p)) s = .next { s with responses := s.responses ++ [⟨0x00, .errLength, []⟩] }

/-- R151: `SYS.RESET` completes in every state and leaves the units in their reset state, as the three `FREE`
commands together do; it is idempotent; with a payload it is refused and resets nothing. That the port and the
responses already given survive it is the model's choice (log 12). -/
def Obligations.SysResetZeroesEveryUnit : Prop :=
  ∀ (s : State) (p : List Byte),
    exec (.sysReset (.wrongLength p)) s = .next { s with responses := s.responses ++ [⟨0x01, .errLength, []⟩] } ∧
    exec (.sysReset (.fits ())) s = .next { s with
      crc := State.reset.crc, cc := State.reset.cc, rr := State.reset.rr,
      responses := s.responses ++ [⟨0x01, .ok, []⟩] } ∧
    (let t := performAll [.crcFree (.fits ()), .ccFree (.fits ()), .rrFree (.fits ())] s
     t.crc = State.reset.crc ∧ t.cc = State.reset.cc ∧ t.rr = State.reset.rr) ∧
    (let t := performAll [.sysReset (.fits ()), .sysReset (.fits ())] s
     t.crc = State.reset.crc ∧ t.cc = State.reset.cc ∧ t.rr = State.reset.rr)

/-! ### CRC -/

/-- R80: `Reflect` reverses the low `bits` bits, drops the others, and is an involution below `2^bits`; with the
rule's examples. The spec marks the involution [derived]. -/
def Obligations.ReflectReversesLowBits : Prop :=
  (∀ (x : Word64) (bits : Nat), bits ≤ 64 →
    (∀ i, i < bits → (reflect x bits).getLsbD (bits - 1 - i) = x.getLsbD i) ∧
    (∀ j, bits ≤ j → (reflect x bits).getLsbD j = false) ∧
    (reflect (reflect x bits) bits).toNat = x.toNat % 2 ^ bits) ∧
  reflect 0x01 8 = 0x80 ∧ reflect 0x6 3 = 0x3 ∧ reflect 0xFF 4 = 0xF ∧ reflect 0x04C11DB7 32 = 0xEDB88320 ∧
  reflect 0x8000000000000000 64 = 0x1

/-- R82: `T[0] = 0` and `T[0x80] = rpoly` for every width and polynomial, and the entries named for the configuration
of the source's example. The spec marks it [derived]. -/
def Obligations.TableHasItsKnownEntries : Prop :=
  (∀ (poly : Word64) (w : Nat), 1 ≤ w → w ≤ 64 →
    tableAt (buildTable (reflect poly w) w) 0x00 = 0 ∧
    tableAt (buildTable (reflect poly w) w) 0x80 = reflect poly w) ∧
  tableAt (buildTable 0x6263CDAFD34C11D0 64) 0x01 = 0x7A3FF95F78398D87 ∧
  tableAt (buildTable 0x6263CDAFD34C11D0 64) 0xFF = 0x6A57DE004A609A1D

/-- R83: `UpdateByte` takes the entry at `(S ^ zext_64(b)) & 0xFF`, XORed with `S >> 8`, which is 0 when `S < 256`. -/
def Obligations.UpdateByteIndexesByLowByte : Prop :=
  ∀ (tab : Vector Word64 256) (s : Word64) (b i : Byte), i.setWidth 64 = (s ^^^ b.setWidth 64) &&& 0xFF#64 →
    updateByte tab s b = tableAt tab i ^^^ (s >>> 8) ∧ (s.toNat < 256 → updateByte tab s b = tableAt tab i)

/-- The table-driven state update is eight bit-serial divide steps of the state with the byte XORed in, for every
message (R82, R83, R93): the table is an optimisation that changes no value. -/
def Obligations.TableUpdateIsBitSerialDivision : Prop :=
  ∀ (rpoly s : Word64) (w : Nat) (data : List Byte), 1 ≤ w → w ≤ 64 → rpoly.toNat < 2 ^ w → s.toNat < 2 ^ w →
    updateBytes (buildTable rpoly w) s data = data.foldl (bitSerialByte rpoly) s

/-- R94: nothing reaches `2^CRC.WIDTH`, and the mask in `BuildTable` never changes a value. The spec marks it
[derived]. -/
def Obligations.CrcValuesStayBelowWidth : Prop :=
  ∀ (poly init rpoly s : Word64) (w : Nat) (b : Byte) (data : List Byte), 1 ≤ w → w ≤ 64 →
    (reflect poly w).toNat < 2 ^ w ∧ (reflect init w).toNat < 2 ^ w ∧
    (tableAt (buildTable rpoly w) b).toNat < 2 ^ w ∧
    (s.toNat < 2 ^ w → (updateBytes (buildTable rpoly w) s data).toNat < 2 ^ w) ∧
    (rpoly.toNat < 2 ^ w → divideSteps rpoly 8 (b.setWidth 64) &&& mask w = divideSteps rpoly 8 (b.setWidth 64))

/-- R84: `CRC.INIT` in every phase: what a legal configuration leaves, and that an illegal one zeroes the unit and
answers `ERR_CONFIG`. -/
def Obligations.CrcInitConfiguresOrZeroes : Prop :=
  ∀ (s : State) (c : CrcConfig),
    (1 ≤ c.width.toNat → c.width.toNat ≤ 64 → c.poly ≠ 0 →
      ∃ u : CrcUnit, exec (.crcInit (.fits c)) s =
          .next { s with crc := u, responses := s.responses ++ [⟨0x10, .ok, []⟩] } ∧
        u.phase = .ready ∧ u.width.toNat = c.width.toNat ∧ u.poly = c.poly ∧ u.init = c.init ∧
        u.xorout = c.xorout ∧ u.rpoly = reflect c.poly c.width.toNat ∧ u.rinit = reflect c.init c.width.toNat ∧
        u.tab = buildTable u.rpoly c.width.toNat ∧ u.s = u.rinit) ∧
    (c.width.toNat = 0 ∨ 64 < c.width.toNat ∨ c.poly = 0 →
      exec (.crcInit (.fits c)) s =
        .next { s with crc := CrcUnit.zero, responses := s.responses ++ [⟨0x10, .errConfig, []⟩] })

/-- R85: `CRC.UPDATE` in `Ready` folds the bytes into `CRC.S` in index order and writes nothing else; in the other
phases it is refused. -/
def Obligations.CrcUpdateFoldsBytesInOrder : Prop :=
  ∀ (s : State) (data : List Byte),
    (s.crc.phase = .ready →
      exec (.crcUpdate data) s = .next { s with
        crc := { s.crc with s := data.foldl (fun w b => updateByte s.crc.tab w b) s.crc.s },
        responses := s.responses ++ [⟨0x11, .ok, []⟩] }) ∧
    (s.crc.phase = .idle →
      exec (.crcUpdate data) s = .next { s with responses := s.responses ++ [⟨0x11, .errNotInitialized, []⟩] }) ∧
    (s.crc.phase = .finalized →
      exec (.crcUpdate data) s = .next { s with responses := s.responses ++ [⟨0x11, .errPhase, []⟩] })

/-- R86: `CRC.FINAL` in `Ready` emits the eight bytes of `CRC.S ^ CRC.XOROUT`, most significant first, and changes only
the phase; in the other phases it is refused; in `Finalized`, so are `CRC.UPDATE` and `CRC.FINALN`. -/
def Obligations.CrcFinalEmitsStateXorMask : Prop :=
  ∀ s : State,
    (s.crc.phase = .ready → ∃ out : List Byte,
      exec (.crcFinal (.fits ())) s = .next { s with
        crc := { s.crc with phase := .finalized }, responses := s.responses ++ [⟨0x12, .ok, out⟩] } ∧
      out.length = 8 ∧ ∀ k, k < 8 → out[k]? = some ((s.crc.s ^^^ s.crc.xorout).extractLsb' (56 - 8 * k) 8)) ∧
    (s.crc.phase = .idle →
      exec (.crcFinal (.fits ())) s =
        .next { s with responses := s.responses ++ [⟨0x12, .errNotInitialized, []⟩] }) ∧
    (s.crc.phase = .finalized →
      exec (.crcFinal (.fits ())) s = .next { s with responses := s.responses ++ [⟨0x12, .errPhase, []⟩] } ∧
      exec (.crcFinaln (.fits ())) s = .next { s with responses := s.responses ++ [⟨0x13, .errPhase, []⟩] } ∧
      ∀ data : List Byte,
        exec (.crcUpdate data) s = .next { s with responses := s.responses ++ [⟨0x11, .errPhase, []⟩] })

/-- R87: `CRC.FINALN` in `Ready` at a width of 8, 16, 32 or 64 emits the last `width/8` bytes of what `CRC.FINAL` would
have emitted and changes only the phase; at another width it answers `ERR_CONFIG` and writes nothing; in the other
phases it is refused, whatever the width. -/
def Obligations.CrcFinalnEmitsNativeWidth : Prop :=
  ∀ s : State,
    (s.crc.phase = .ready →
      s.crc.width.toNat = 8 ∨ s.crc.width.toNat = 16 ∨ s.crc.width.toNat = 32 ∨ s.crc.width.toNat = 64 →
      ∃ out : List Byte,
        exec (.crcFinaln (.fits ())) s = .next { s with
          crc := { s.crc with phase := .finalized }, responses := s.responses ++ [⟨0x13, .ok, out⟩] } ∧
        out.length = s.crc.width.toNat / 8 ∧
        (∀ k, k < s.crc.width.toNat / 8 →
          out[k]? = some ((s.crc.s ^^^ s.crc.xorout).extractLsb' (s.crc.width.toNat - 8 * (k + 1)) 8)) ∧
        ∃ full : List Byte,
          exec (.crcFinal (.fits ())) s = .next { s with
            crc := { s.crc with phase := .finalized }, responses := s.responses ++ [⟨0x12, .ok, full⟩] } ∧
          out = full.drop (8 - s.crc.width.toNat / 8)) ∧
    (s.crc.phase = .ready →
      ¬(s.crc.width.toNat = 8 ∨ s.crc.width.toNat = 16 ∨ s.crc.width.toNat = 32 ∨ s.crc.width.toNat = 64) →
      exec (.crcFinaln (.fits ())) s = .next { s with responses := s.responses ++ [⟨0x13, .errConfig, []⟩] }) ∧
    (s.crc.phase = .idle →
      exec (.crcFinaln (.fits ())) s =
        .next { s with responses := s.responses ++ [⟨0x13, .errNotInitialized, []⟩] }) ∧
    (s.crc.phase = .finalized →
      exec (.crcFinaln (.fits ())) s = .next { s with responses := s.responses ++ [⟨0x13, .errPhase, []⟩] })

/-- R88: `CRC.FREE` in every phase leaves the unit in its reset state; in `Idle` (where everything is zero, R23 (d)) it
changes nothing. -/
def Obligations.CrcFreeZeroesTheUnit : Prop :=
  ∀ s : State,
    exec (.crcFree (.fits ())) s =
      .next { s with crc := State.reset.crc, responses := s.responses ++ [⟨0x14, .ok, []⟩] } ∧
    (s.crc.Inv → s.crc.phase = .idle →
      exec (.crcFree (.fits ())) s = .next { s with responses := s.responses ++ [⟨0x14, .ok, []⟩] })

/-- R89: `CRC.REFLECT` in every phase emits the reflected value, most significant byte first, or answers `ERR_CONFIG`
when `bits > 64`; it writes no state. -/
def Obligations.CrcReflectEmitsReflection : Prop :=
  ∀ (s : State) (bits : Byte) (x : Word64),
    (bits.toNat ≤ 64 → ∃ out : List Byte,
      exec (.crcReflect (.fits ⟨bits, x⟩)) s = .next { s with responses := s.responses ++ [⟨0x15, .ok, out⟩] } ∧
      out.length = 8 ∧ ∀ k, k < 8 → out[k]? = some ((reflect x bits.toNat).extractLsb' (56 - 8 * k) 8)) ∧
    (64 < bits.toNat →
      exec (.crcReflect (.fits ⟨bits, x⟩)) s = .next { s with responses := s.responses ++ [⟨0x15, .errConfig, []⟩] })

/-- R90: `CRC.RDTAB` in `Ready` and `Finalized` emits the entry, most significant byte first, and writes nothing; in
`Idle` it is refused. -/
def Obligations.CrcRdtabEmitsTheEntry : Prop :=
  ∀ (s : State) (index : Byte),
    (s.crc.phase = .ready ∨ s.crc.phase = .finalized → ∃ out : List Byte,
      exec (.crcRdtab (.fits index)) s = .next { s with responses := s.responses ++ [⟨0x16, .ok, out⟩] } ∧
      out.length = 8 ∧ ∀ k, k < 8 → out[k]? = some ((tableAt s.crc.tab index).extractLsb' (56 - 8 * k) 8)) ∧
    (s.crc.phase = .idle →
      exec (.crcRdtab (.fits index)) s =
        .next { s with responses := s.responses ++ [⟨0x16, .errNotInitialized, []⟩] })

/-- R91: any cutting of a message into `CRC.UPDATE` commands leaves the unit as one `CRC.UPDATE` of the whole does.
The source states the property; the spec marks this form [derived]. -/
def Obligations.CrcUpdateIsChunkIndependent : Prop :=
  ∀ (s : State) (chunks : List (List Byte)),
    (performAll (chunks.map .crcUpdate) s).crc = (performAll [.crcUpdate chunks.flatten] s).crc

/-- R92: `CRC.INIT w, p, 0, 0` followed directly by `CRC.FINAL` emits eight zero bytes, for every valid width and
polynomial, in every state. The source states the property; the spec marks this form [derived]. -/
def Obligations.EmptyMessageHasZeroDigest : Prop :=
  ∀ (s : State) (w : Byte) (p : Word64), 1 ≤ w.toNat → w.toNat ≤ 64 → p ≠ 0 →
    (performAll [.crcInit (.fits ⟨w, p, 0, 0⟩), .crcFinal (.fits ())] s).responses =
      s.responses ++ [⟨0x10, .ok, []⟩, ⟨0x12, .ok, [0, 0, 0, 0, 0, 0, 0, 0]⟩]

/-- R95: at the widths 8, 16, 32 and 64 the low bits of the one 64-bit engine are at every step the state of a
native-width engine, and `CRC.FINALN` emits what that engine emits. The spec marks it [derived]. -/
def Obligations.NativeWidthEnginesAgree : Prop :=
  ∀ (s : State) (w : Nat) (poly init xorout : Word64) (data : List Byte),
    w = 8 ∨ w = 16 ∨ w = 32 ∨ w = 64 → poly ≠ 0 →
    let configured := performAll [.crcInit (.fits ⟨BitVec.ofNat 8 w, poly, init, xorout⟩)] s
    let fed := performAll [.crcUpdate data] configured
    fed.crc.s = (nativeState (poly.setWidth w) (init.setWidth w) data).setWidth 64 ∧
    ∃ full, (performAll [.crcFinaln (.fits ())] fed).responses = fed.responses ++
        [⟨0x13, .ok, nativeBytesOf (nativeState (poly.setWidth w) (init.setWidth w) data ^^^ xorout.setWidth w)⟩] ∧
      (performAll [.crcFinal (.fits ())] fed).responses = fed.responses ++ [⟨0x12, .ok, full⟩] ∧
      nativeBytesOf (nativeState (poly.setWidth w) (init.setWidth w) data ^^^ xorout.setWidth w) =
        full.drop (8 - w / 8)

/-! ### ChaCha20 -/

/-- R101: the quarter round, step by step with rotations left by 16, 12, 8 and 7; it is a bijection on 128 bits, and
the rule's values. R105: a quarter round in place on four of the sixteen words leaves the others, and `Rounds` is ten
double rounds, each the eight quarter rounds of `doubleRoundSteps` in order. The spec takes steps, amounts and indices
from general knowledge (G2, G3; log 13, PRESUMED). -/
def Obligations.QuarterRoundIsTheStandardOne : Prop :=
  (∀ a b c d : Word32,
    let a1 := a + b; let d1 := (d ^^^ a1).rotateLeft 16
    let c1 := c + d1; let b1 := (b ^^^ c1).rotateLeft 12
    let a2 := a1 + b1; let d2 := (d1 ^^^ a2).rotateLeft 8
    let c2 := c1 + d2; let b2 := (b1 ^^^ c2).rotateLeft 7
    quarterRound ⟨a, b, c, d⟩ = ⟨a2, b2, c2, d2⟩) ∧
  Function.Bijective quarterRound ∧
  quarterRound ⟨0, 0, 0, 0⟩ = ⟨0, 0, 0, 0⟩ ∧
  quarterRound ⟨0x11111111, 0x01020304, 0x9B8D6F43, 0x01234567⟩ = ⟨0xEA2A92F4, 0xCB1CF8CE, 0x4581472E, 0x5881C4BB⟩ ∧
  (∀ (w : Vector Word32 16) (a b c d : Fin 16), [a, b, c, d].Nodup →
    let t := quarterAt w a b c d
    quarterRound ⟨w[a.val], w[b.val], w[c.val], w[d.val]⟩ = ⟨t[a.val], t[b.val], t[c.val], t[d.val]⟩ ∧
    ∀ j : Fin 16, j ∉ [a, b, c, d] → t[j.val] = w[j.val]) ∧
  ∀ w : Vector Word32 16,
    rounds w = (List.replicate 10 doubleRoundSteps).flatten.foldl (fun v q => quarterAt v q.1 q.2.1 q.2.2.1 q.2.2.2) w

/-- R115: `CC.QR` in every phase emits the four result words, least significant byte first, and writes no state. -/
def Obligations.CcQrEmitsQuarterRound : Prop :=
  ∀ (s : State) (q : QrWords), ∃ out : List Byte,
    exec (.ccQr (.fits q)) s = .next { s with responses := s.responses ++ [⟨0x25, .ok, out⟩] } ∧
    out.length = 16 ∧ ∀ k, k < 4 →
      out[k]? = some ((quarterRound q).a.extractLsb' (8 * k) 8) ∧
      out[4 + k]? = some ((quarterRound q).b.extractLsb' (8 * k) 8) ∧
      out[8 + k]? = some ((quarterRound q).c.extractLsb' (8 * k) 8) ∧
      out[12 + k]? = some ((quarterRound q).d.extractLsb' (8 * k) 8)

/-- R110, R108: `CC.INIT` in every phase clears key, nonce, state and window, stores the counter, and makes the
window stale. -/
def Obligations.CcInitClearsAndStoresCounter : Prop :=
  ∀ (s : State) (ctr : Word64),
    exec (.ccInit (.fits ctr)) s = .next { s with
      cc := { phase := .unkeyed, key := Vector.replicate 32 0, nonce := Vector.replicate 12 0, ctr0 := ctr,
              st := Vector.replicate 16 0, ks := Vector.replicate 64 0, off := 64 },
      responses := s.responses ++ [⟨0x20, .ok, []⟩] }

/-- R104 (with `NONCE_COMBINE = add`), R111: `CC.SETUP` in `Unkeyed` and `Keyed` lays out the state words, each bit of
key, nonce and counter in its place, and touches neither `KS`, `OFF` nor `CTR0`; in the other phases it is refused.
The value of `NONCE_COMBINE` is the spec's default (log 6). -/
def Obligations.CcSetupLaysOutTheState : Prop :=
  ∀ (s : State) (key : Vector Byte 32) (nonce : Vector Byte 12),
    (s.cc.phase = .unkeyed ∨ s.cc.phase = .keyed → ∃ st : Vector Word32 16,
      exec (.ccSetup (.fits ⟨key, nonce⟩)) s = .next { s with
        cc := { s.cc with phase := .keyed, key := key, nonce := nonce, st := st },
        responses := s.responses ++ [⟨0x21, .ok, []⟩] } ∧
      st[0] = 0x61707865 ∧ st[1] = 0x3320646E ∧ st[2] = 0x79622D32 ∧ st[3] = 0x6B206574 ∧
      (∀ (j : Fin 8) (k : Fin 4), st[4 + j.val].extractLsb' (8 * k.val) 8 = key[4 * j.val + k.val]) ∧
      st[12] = s.cc.ctr0.extractLsb' 0 32 ∧
      (∃ n0 : Word32, (∀ k : Fin 4, n0.extractLsb' (8 * k.val) 8 = nonce[k.val]) ∧
        st[13] = n0 + s.cc.ctr0.extractLsb' 32 32) ∧
      (∀ k : Fin 4, st[14].extractLsb' (8 * k.val) 8 = nonce[4 + k.val]) ∧
      (∀ k : Fin 4, st[15].extractLsb' (8 * k.val) 8 = nonce[8 + k.val])) ∧
    (s.cc.phase = .idle →
      exec (.ccSetup (.fits ⟨key, nonce⟩)) s =
        .next { s with responses := s.responses ++ [⟨0x21, .errNotInitialized, []⟩] }) ∧
    (s.cc.phase = .keystreaming →
      exec (.ccSetup (.fits ⟨key, nonce⟩)) s = .next { s with responses := s.responses ++ [⟨0x21, .errPhase, []⟩] })

/-- R106: `BlockNext` makes the window of the permuted state plus the state, least significant byte first, counts in
`ST[12]` with a carry into `ST[13]` and no further, and touches nothing else. -/
def Obligations.BlockNextFillsWindowAndCounts : Prop :=
  ∀ c : ChaCha,
    (∀ (i : Fin 16) (k : Fin 4),
      (blockNext c).ks[4 * i.val + k.val] = ((rounds c.st)[i.val] + c.st[i.val]).extractLsb' (8 * k.val) 8) ∧
    (blockNext c).st[12] = c.st[12] + 1 ∧
    (blockNext c).st[13] = (if c.st[12] = 0xFFFFFFFF then c.st[13] + 1 else c.st[13]) ∧
    (∀ j : Fin 16, j ≠ 12 → j ≠ 13 → (blockNext c).st[j.val] = c.st[j.val]) ∧
    (blockNext c).phase = .keystreaming ∧ (blockNext c).off = c.off ∧ (blockNext c).key = c.key ∧
    (blockNext c).nonce = c.nonce ∧ (blockNext c).ctr0 = c.ctr0

/-- R112, R113: `CC.ENC` and `CC.DEC` in `Keyed` and `Keystreaming` complete with the output and the instance of
`CryptBytes`, one output byte per input byte, write only `KS`, `OFF`, `ST[12]`, `ST[13]` and the phase, and have the
same effect and output; with no input they change nothing, and the phase is `Keystreaming` from the first byte on (in
`Keyed`, `OFF` is 64 by R26 (d)). In the other phases they are refused. -/
def Obligations.CcEncAndDecDrawTheSameKeystream : Prop :=
  ∀ (s : State) (data : List Byte),
    (s.cc.phase = .keyed ∨ s.cc.phase = .keystreaming → ∃ (c : ChaCha) (out : List Byte),
      exec (.ccEnc data) s = .next { s with cc := c, responses := s.responses ++ [⟨0x22, .ok, out⟩] } ∧
      exec (.ccDec data) s = .next { s with cc := c, responses := s.responses ++ [⟨0x23, .ok, out⟩] } ∧
      (c, out) = cryptBytes s.cc data ∧
      out.length = data.length ∧ c.key = s.cc.key ∧ c.nonce = s.cc.nonce ∧ c.ctr0 = s.cc.ctr0 ∧
      (∀ j : Fin 16, j ≠ 12 → j ≠ 13 → c.st[j.val] = s.cc.st[j.val]) ∧ (data = [] → c = s.cc) ∧
      (data ≠ [] → s.cc.off = 64 ∨ s.cc.phase = .keystreaming → c.phase = .keystreaming)) ∧
    (s.cc.phase = .idle ∨ s.cc.phase = .unkeyed →
      exec (.ccEnc data) s = .next { s with responses := s.responses ++ [⟨0x22, .errNotInitialized, []⟩] } ∧
      exec (.ccDec data) s = .next { s with responses := s.responses ++ [⟨0x23, .errNotInitialized, []⟩] })

/-- R107, R52: the loop of `CryptBytes`, one byte: an exhausted window is replaced before the byte is taken, and the
byte taken is the one at `OFF`; output byte `k` depends only on input byte `k` and the instance, and the instance
afterwards only on how many bytes there were. -/
def Obligations.CryptBytesTakesOneWindowByteEach : Prop :=
  (∀ (c : ChaCha) (b : Byte) (rest : List Byte),
    cryptBytes c [] = (c, []) ∧
    (c.off = 64 → cryptBytes c (b :: rest) =
      (let t := cryptBytes { blockNext c with off := 1 } rest; (t.1, (b ^^^ (blockNext c).ks[0]) :: t.2))) ∧
    (∀ k : Fin 64, c.off.val = k.val → cryptBytes c (b :: rest) =
      (let t := cryptBytes { c with off := ⟨k.val + 1, by omega⟩ } rest; (t.1, (b ^^^ c.ks[k.val]) :: t.2)))) ∧
  ∀ (c : ChaCha) (xs ys : List Byte), xs.length = ys.length →
    (cryptBytes c xs).1 = (cryptBytes c ys).1 ∧
    ∀ k : Nat, xs[k]? = ys[k]? → (cryptBytes c xs).2[k]? = (cryptBytes c ys).2[k]?

/-- R107: keystream byte number `m` since Setup is byte `m mod 64` of the block generated with running counter value
`CTR0 + floor(m / 64)`, through the commands. The spec marks it [derived]. -/
def Obligations.KeystreamByteComesFromItsBlock : Prop :=
  ∀ (s : State) (ctr : Word64) (key : Vector Byte 32) (nonce : Vector Byte 12) (data : List Byte),
    ∃ out : List Byte,
      (performAll [.ccInit (.fits ctr), .ccSetup (.fits ⟨key, nonce⟩), .ccEnc data] s).responses =
        s.responses ++ [⟨0x20, .ok, []⟩, ⟨0x21, .ok, []⟩, ⟨0x22, .ok, out⟩] ∧
      out.length = data.length ∧
      ∀ m, m < data.length →
        out[m]? = some (data.getD m 0 ^^^
          (blockBytes (advanceCounters (m / 64) (layout params key nonce ctr)))[m % 64])

/-- R119: after `n` blocks the counter pair read as one 64-bit number is `LE32(NONCE,0)·2^32 + CTR0 + n` modulo 2^64,
under `NONCE_COMBINE = add`; configurations with the same combined word and all else equal have the same keystream;
after 2^64 blocks the pair is back at its start. The spec marks it [derived]. The value of `NONCE_COMBINE` is the
spec's default (log 6). -/
def Obligations.RunningCounterCountsBlocks : Prop :=
  ∀ (cfg : Config) (key : Vector Byte 32) (nonce : Vector Byte 12) (ctr : Word64) (n : Nat),
    cfg.nonceCombine = .add →
    (let st := advanceCounters n (layout cfg key nonce ctr)
     st[13].toNat * 2 ^ 32 + st[12].toNat =
       ((le32At nonce 0 (by decide)).toNat * 2 ^ 32 + ctr.toNat + n) % 2 ^ 64) ∧
    (∀ (nonce' : Vector Byte 12) (ctr' : Word64),
      le32At nonce 0 (by decide) + ctr.extractLsb' 32 32 = le32At nonce' 0 (by decide) + ctr'.extractLsb' 32 32 →
      ctr.extractLsb' 0 32 = ctr'.extractLsb' 0 32 → (∀ j : Fin 8, nonce[4 + j.val] = nonce'[4 + j.val]) →
      ∀ data, (cryptBytes (instSetup cfg (instInit ctr) key nonce) data).2 =
        (cryptBytes (instSetup cfg (instInit ctr') key nonce') data).2) ∧
    (let st := advanceCounters n (layout cfg key nonce ctr)
     let st' := advanceCounters (n + 2 ^ 64) (layout cfg key nonce ctr)
     st'[12] = st[12] ∧ st'[13] = st[13])

/-- R116: what `CC.ENC` emits after `CC.INIT c; CC.SETUP k, n`, `CC.DEC` turns back after the same two commands, from
any states. The source states the property; the spec marks this form [derived]. -/
def Obligations.DecryptInvertsEncrypt : Prop :=
  ∀ (s s' : State) (ctr : Word64) (k : KeyNonce) (m : List Byte), ∃ e : List Byte,
    (performAll [.ccInit (.fits ctr), .ccSetup (.fits k), .ccEnc m] s).responses =
      s.responses ++ [⟨0x20, .ok, []⟩, ⟨0x21, .ok, []⟩, ⟨0x22, .ok, e⟩] ∧
    (performAll [.ccInit (.fits ctr), .ccSetup (.fits k), .ccDec e] s').responses =
      s'.responses ++ [⟨0x20, .ok, []⟩, ⟨0x21, .ok, []⟩, ⟨0x23, .ok, m⟩]

/-- R117: any sequence of `CC.ENC` and `CC.DEC` commands emits, concatenated, the bytes of one command with the whole
payload, and leaves the same CC state, whenever the unit accepts them. The spec marks it [derived]. -/
def Obligations.CryptIsChunkIndependent : Prop :=
  ∀ (s : State) (chunks : List (Bool × List Byte)), s.cc.phase = .keyed ∨ s.cc.phase = .keystreaming →
    ∃ outs : List Response,
      (performAll (chunks.map fun c => if c.1 then .ccEnc c.2 else .ccDec c.2) s).responses = s.responses ++ outs ∧
      (performAll [.ccEnc (chunks.map Prod.snd).flatten] s).responses =
        s.responses ++ [⟨0x22, .ok, (outs.map Response.out).flatten⟩] ∧
      (∀ r ∈ outs, r.status = .ok) ∧
      (performAll (chunks.map fun c => if c.1 then .ccEnc c.2 else .ccDec c.2) s).cc =
        (performAll [.ccEnc (chunks.map Prod.snd).flatten] s).cc

/-- R114: `CC.FREE` in every phase leaves the unit in its reset state; in `Idle` it changes nothing. -/
def Obligations.CcFreeZeroesTheUnit : Prop :=
  ∀ s : State,
    exec (.ccFree (.fits ())) s =
      .next { s with cc := State.reset.cc, responses := s.responses ++ [⟨0x24, .ok, []⟩] } ∧
    (s.cc.Inv params → s.cc.phase = .idle →
      exec (.ccFree (.fits ())) s = .next { s with responses := s.responses ++ [⟨0x24, .ok, []⟩] })

/-! ### RoundRobin256 -/

/-- R135: what `RR.INIT` leaves, in every phase. -/
def Obligations.RrInitKeysInnerInstanceWithZeros : Prop :=
  ∀ s : State,
    exec (.rrInit (.fits ())) s = .next { s with
      rr := { phase := .absorbing,
              cc := { phase := .keyed, key := Vector.replicate 32 0, nonce := Vector.replicate 12 0, ctr0 := 0,
                      st := innerState 0, ks := Vector.replicate 64 0, off := 64 },
              acc := Vector.replicate 44 0, blk := Vector.replicate 64 0, idx := 0, len := 0, outsz := 32 },
      responses := s.responses ++ [⟨0x30, .ok, []⟩] }

/-- R130: Transform encrypts the block in place and folds it: accumulator bytes 0 to 19 take two block bytes, bytes 20
to 43 take one; `RR.IDX` and `RR.LEN` stay; from a used-up window exactly one block is generated. The spec marks the
explicit fold and the last clause [derived]. -/
def Obligations.TransformEncryptsAndFolds : Prop :=
  ∀ r : RrUnit,
    (transform r).blk.toList = (cryptBytes r.cc r.blk.toList).2 ∧
    (transform r).cc = (cryptBytes r.cc r.blk.toList).1 ∧
    (∀ j : Fin 20, (transform r).acc[j.val] =
      r.acc[j.val] ^^^ ((transform r).blk[j.val] ^^^ (transform r).blk[j.val + 44])) ∧
    (∀ j : Fin 24, (transform r).acc[20 + j.val] = r.acc[20 + j.val] ^^^ (transform r).blk[20 + j.val]) ∧
    (transform r).idx = r.idx ∧ (transform r).len = r.len ∧ (transform r).phase = r.phase ∧
    (transform r).outsz = r.outsz ∧
    (r.cc.off = 64 →
      (transform r).cc = { blockNext r.cc with off := 64 } ∧
      ∀ i : Fin 64, (transform r).blk[i.val] = r.blk[i.val] ^^^ (blockBytes r.cc.st)[i.val])

/-- R131: a byte goes to `BLK[IDX]`; the 64th is folded at once, with the length advanced by 64 and the index back at 0;
over any data the index and the length count the bytes. -/
def Obligations.AbsorbFoldsOnThe64thByte : Prop :=
  ∀ (r : RrUnit) (b : Byte) (data : List Byte),
    (r.idx.val < 63 → ∃ i : Fin 64, i.val = r.idx.val + 1 ∧
      absorb r (b :: data) = absorb { r with blk := r.blk.set r.idx.val b, idx := i } data) ∧
    (r.idx.val = 63 →
      absorb r (b :: data) =
        absorb { transform { r with blk := r.blk.set 63 b } with len := r.len + 64, idx := 0 } data) ∧
    absorb r [] = r ∧
    (absorb r data).idx.val = (r.idx.val + data.length) % 64 ∧
    (absorb r data).len = r.len + BitVec.ofNat 64 (64 * ((r.idx.val + data.length) / 64))

/-- R136: `RR.UPDATE` in `Absorbing` absorbs the bytes and writes nothing outside the unit; in the other phases it is
refused. -/
def Obligations.RrUpdateAbsorbsTheBytes : Prop :=
  ∀ (s : State) (data : List Byte),
    (s.rr.phase = .absorbing →
      exec (.rrUpdate data) s =
        .next { s with rr := absorb s.rr data, responses := s.responses ++ [⟨0x31, .ok, []⟩] } ∧
      (absorb s.rr data).phase = .absorbing ∧ (absorb s.rr data).outsz = s.rr.outsz ∧ absorb s.rr [] = s.rr) ∧
    (s.rr.phase = .idle →
      exec (.rrUpdate data) s = .next { s with responses := s.responses ++ [⟨0x31, .errNotInitialized, []⟩] }) ∧
    (s.rr.phase = .finalized →
      exec (.rrUpdate data) s = .next { s with responses := s.responses ++ [⟨0x31, .errPhase, []⟩] })

/-- R132: `Pad` under every value of `RR_PAD_FILL_OFFSET`. R133: bytes 24 to 43 of the accumulator are XORed into
bytes 0 to 19; bytes 20 to 43 are unchanged. -/
def Obligations.PadAndFinalFoldAreAsGiven : Prop :=
  (∀ (cfg : Config) (r : RrUnit),
    (pad cfg r).len.toNat = (r.len.toNat + r.idx.val) % 2 ^ 64 ∧
    (pad cfg r).blk[r.idx.val] = 0x80 ∧
    (∀ j : Fin 64, j.val < r.idx.val → (pad cfg r).blk[j.val] = r.blk[j.val]) ∧
    (∀ j : Fin 64, r.idx.val < j.val →
      (pad cfg r).blk[j.val].toNat = r.idx.val + cfg.rrPadFillOffset.val) ∧
    (pad cfg r).acc = r.acc ∧ (pad cfg r).cc = r.cc ∧ (pad cfg r).idx = r.idx ∧ (pad cfg r).phase = r.phase ∧
    (pad cfg r).outsz = r.outsz) ∧
  ∀ acc : Vector Byte 44,
    (∀ j : Fin 20, (finalFold acc)[j.val] = acc[j.val] ^^^ acc[24 + j.val]) ∧
    (∀ j : Fin 24, (finalFold acc)[20 + j.val] = acc[20 + j.val])

/-- R134: the digest is bytes 0 to 31 of the one block of a fresh instance keyed by the accumulator, its counter the
length with its eight bytes reversed when `RR_LEN_BSWAP` is true, else the length. The value of `RR_LEN_BSWAP` is the
spec's default (log 8). -/
def Obligations.SqueezeTakesTheFirstBlock : Prop :=
  ∀ (cfg : Config) (acc : Vector Byte 44) (len : Word64), ∃ (key : Vector Byte 32) (iv : Vector Byte 12) (ctr : Word64),
    (∀ j : Fin 32, key[j.val] = acc[j.val]) ∧ (∀ j : Fin 12, iv[j.val] = acc[32 + j.val]) ∧
    (cfg.rrLenBswap = true → ∀ k : Fin 8, ctr.extractLsb' (8 * k.val) 8 = len.extractLsb' (8 * (7 - k.val)) 8) ∧
    (cfg.rrLenBswap = false → ctr = len) ∧
    squeeze cfg acc len = (blockBytes (layout cfg key iv ctr)).toList.take 32

/-- R137: `RR.FINAL` in `Absorbing` emits 32 bytes, the squeeze of the folded accumulator after one Transform of the
padded block, and leaves every register zero but the phase and `RR.OUTSZ`; in the other phases it is refused. -/
def Obligations.RrFinalEmitsDigestAndClears : Prop :=
  ∀ s : State,
    (s.rr.phase = .absorbing → ∃ out : List Byte,
      exec (.rrFinal (.fits ())) s = .next { s with
        rr := { State.reset.rr with phase := .finalized, outsz := s.rr.outsz },
        responses := s.responses ++ [⟨0x32, .ok, out⟩] } ∧
      out.length = 32 ∧
      out = squeeze params (finalFold (transform (pad params s.rr)).acc) (pad params s.rr).len) ∧
    (s.rr.phase = .idle →
      exec (.rrFinal (.fits ())) s =
        .next { s with responses := s.responses ++ [⟨0x32, .errNotInitialized, []⟩] }) ∧
    (s.rr.phase = .finalized →
      exec (.rrFinal (.fits ())) s = .next { s with responses := s.responses ++ [⟨0x32, .errPhase, []⟩] })

/-- R138: `RR.FREE` in every phase leaves the unit in its reset state; in `Idle` it changes nothing. -/
def Obligations.RrFreeZeroesTheUnit : Prop :=
  ∀ s : State,
    exec (.rrFree (.fits ())) s =
      .next { s with rr := State.reset.rr, responses := s.responses ++ [⟨0x34, .ok, []⟩] } ∧
    (s.rr.Inv params → s.rr.phase = .idle →
      exec (.rrFree (.fits ())) s = .next { s with responses := s.responses ++ [⟨0x34, .ok, []⟩] })

/-- R139: any cutting of a message into `RR.UPDATE` commands leaves the RR state of one `RR.UPDATE` of the whole, and
so the same digest. The source states the property; the spec marks this form [derived]. -/
def Obligations.RrUpdateIsChunkIndependent : Prop :=
  ∀ (s : State) (chunks : List (List Byte)), s.rr.phase = .absorbing →
    (performAll (chunks.map .rrUpdate) s).rr = (performAll [.rrUpdate chunks.flatten] s).rr ∧
    ∃ digest : List Byte,
      (performAll [.rrFinal (.fits ())] (performAll (chunks.map .rrUpdate) s)).responses =
        (performAll (chunks.map .rrUpdate) s).responses ++ [⟨0x32, .ok, digest⟩] ∧
      (performAll [.rrFinal (.fits ())] (performAll [.rrUpdate chunks.flatten] s)).responses =
        (performAll [.rrUpdate chunks.flatten] s).responses ++ [⟨0x32, .ok, digest⟩]

/-- R141: the digest as a function of the message: `RR.INIT`, the message in any pieces, `RR.FINAL`, from any state.
The spec marks it [derived]. It rests on the parameters (logs 6, 7, 8). -/
def Obligations.DigestIsTheSpecFunction : Prop :=
  ∀ (s : State) (chunks : List (List Byte)), chunks.flatten.length < 2 ^ 64 →
    (performAll (.rrInit (.fits ()) :: chunks.map .rrUpdate ++ [.rrFinal (.fits ())]) s).responses =
      s.responses ++ ⟨0x30, .ok, []⟩ :: chunks.map (fun _ => ⟨0x31, .ok, []⟩) ++
        [⟨0x32, .ok, digestOf params chunks.flatten⟩]

/-- R140: the empty message: one Transform of the padded block `80` and 63 fill bytes, the counter of the fresh
instance 0, the same 32 bytes from every state. The source states the property; the spec marks the details [derived].
-/
def Obligations.EmptyInputHasFixedDigest : Prop :=
  ∃ digest : List Byte, digest.length = 32 ∧ ∀ s : State,
    (performAll [.rrInit (.fits ()), .rrFinal (.fits ())] s).responses =
      s.responses ++ [⟨0x30, .ok, []⟩, ⟨0x32, .ok, digest⟩] ∧
    (let r := pad params (performAll [.rrInit (.fits ())] s).rr
     r.len = 0 ∧ r.blk[0] = 0x80 ∧
     (∀ j : Fin 63, r.blk[1 + j.val] = BitVec.ofNat 8 params.rrPadFillOffset.val) ∧
     lengthCounter params r.len = 0 ∧
     digest = squeeze params (finalFold (transform r).acc) r.len)

/-! ### Pseudo-instructions -/

/-- R71: long data is cut into pieces no longer than one command carries, in order and with nothing lost; and
`CRC.SUM` from any state: `CRC.INIT`, the updates, `CRC.FINAL`, `CRC.FREE`; with a legal configuration its result is
the digest, with an illegal one `ERR_CONFIG`; the unit is released on either path. Where exactly long data is cut is
the model's choice (log 15). -/
def Obligations.CrcSumReleasesTheUnit : Prop :=
  (∀ bs : List Byte, (splitData bs.length bs).flatten = bs ∧
    ∀ piece ∈ splitData bs.length bs, piece.length ≤ 65535) ∧
  ∀ (s : State) (c : CrcConfig) (bs : List Byte), ∃ rs : List Response,
    (performAll (pseudoCrcSum c bs) s).responses = s.responses ++ rs ∧
    (performAll (pseudoCrcSum c bs) s).crc = State.reset.crc ∧
    (1 ≤ c.width.toNat → c.width.toNat ≤ 64 → c.poly ≠ 0 →
      oneShotResult .crcFinal rs = .ok (be64
        (updateBytes (buildTable (reflect c.poly c.width.toNat) c.width.toNat) (reflect c.init c.width.toNat) bs
          ^^^ c.xorout))) ∧
    (c.width.toNat = 0 ∨ 64 < c.width.toNat ∨ c.poly = 0 → oneShotResult .crcFinal rs = .error .errConfig)
end

