-- ==== Sys2Proof/Laws/Bytes.lean ====
section
/-! SUPPORT. The byte-order functions (R6 of spec/00_scope.md) and the header word (R61, R63 of
spec/30_encoding.md): each conversion and its inverse, the fields of a header made from its fields, and the mask of
R65 read as fields. -/

namespace Sys2Proof.Machine

/-! ### Cutting and joining bit vectors -/

theorem extract_append_low {n m : Nat} (a : BitVec n) (b : BitVec m) : (a ++ b).extractLsb' 0 m = b := by
  ext i hi
  simp only [BitVec.getElem_extractLsb', BitVec.getLsbD_append]
  simp [hi]

theorem extract_append_high {n m : Nat} (a : BitVec n) (b : BitVec m) (k w : Nat) :
    (a ++ b).extractLsb' (m + k) w = a.extractLsb' k w := by
  ext i hi
  simp only [BitVec.getElem_extractLsb', BitVec.getLsbD_append]
  rw [if_neg (by omega)]
  congr 1
  omega

theorem extract_all {n : Nat} (a : BitVec n) : a.extractLsb' 0 n = a := by simp

theorem extract_append_extract {n : Nat} (v : BitVec n) (k a b : Nat) :
    v.extractLsb' (k + b) a ++ v.extractLsb' k b = v.extractLsb' k (a + b) := by
  ext i hi
  simp only [BitVec.getElem_append, BitVec.getElem_extractLsb']
  split
  · rfl
  · congr 1
    omega

/-! ### Big-endian numbers -/

theorem be64_list (v : Word64) :
    be64 v = [v.extractLsb' 56 8, v.extractLsb' 48 8, v.extractLsb' 40 8, v.extractLsb' 32 8,
      v.extractLsb' 24 8, v.extractLsb' 16 8, v.extractLsb' 8 8, v.extractLsb' 0 8] := rfl

theorem be64_length (v : Word64) : (be64 v).length = 8 := rfl

theorem be64_getElem? (v : Word64) (k : Nat) (hk : k < 8) : (be64 v)[k]? = some (v.extractLsb' (56 - 8 * k) 8) := by
  simp [be64, beBytes, List.getElem?_range hk]
  congr 1
  omega

theorem shift_or_append {n : Nat} (v : BitVec n) (b : Byte) (_h : n + 8 ≤ 64) :
    (v.setWidth 64 <<< 8) ||| b.setWidth 64 = (v ++ b).setWidth 64 := by
  apply BitVec.eq_of_getLsbD_eq
  intro i hi
  simp only [BitVec.getLsbD_or, BitVec.getLsbD_shiftLeft, BitVec.getLsbD_setWidth, BitVec.getLsbD_append, hi]
  by_cases h8 : i < 8
  · simp [h8]
  · simp [h8, show i - 8 < 64 by omega, BitVec.getLsbD_of_ge b i (by omega)]

theorem fromBE_append (a b c d e f g h : Byte) :
    fromBE [a, b, c, d, e, f, g, h] = (a ++ b ++ c ++ d ++ e ++ f ++ g ++ h : BitVec 64) := by
  simp only [fromBE, List.foldl]
  rw [show ((0 : Word64) <<< 8 ||| a.setWidth 64) = a.setWidth 64 by simp,
    shift_or_append a b (by omega), shift_or_append _ c (by omega), shift_or_append _ d (by omega),
    shift_or_append _ e (by omega), shift_or_append _ f (by omega), shift_or_append _ g (by omega),
    shift_or_append _ h (by omega)]
  simp

/-- `FromBE` inverts `BE64` (R6). -/
theorem fromBE_be64 (v : Word64) : fromBE (be64 v) = v := by
  rw [be64_list, fromBE_append, extract_append_extract v 48 8 8, extract_append_extract v 40 16 8,
    extract_append_extract v 32 24 8, extract_append_extract v 24 32 8, extract_append_extract v 16 40 8,
    extract_append_extract v 8 48 8, extract_append_extract v 0 56 8]
  exact extract_all v

theorem be64_fromBE_of_bytes (a b c d e f g h : Byte) :
    be64 (fromBE [a, b, c, d, e, f, g, h]) = [a, b, c, d, e, f, g, h] := by
  rw [be64_list, fromBE_append]
  rw [extract_append_low, extract_append_high _ h 0 8, extract_append_high _ h 8 8, extract_append_high _ h 16 8,
    extract_append_high _ h 24 8, extract_append_high _ h 32 8, extract_append_high _ h 40 8,
    extract_append_high _ h 48 8]
  rw [extract_append_low, extract_append_high _ g 0 8, extract_append_high _ g 8 8, extract_append_high _ g 16 8,
    extract_append_high _ g 24 8, extract_append_high _ g 32 8, extract_append_high _ g 40 8]
  rw [extract_append_low, extract_append_high _ f 0 8, extract_append_high _ f 8 8, extract_append_high _ f 16 8,
    extract_append_high _ f 24 8, extract_append_high _ f 32 8]
  rw [extract_append_low, extract_append_high _ e 0 8, extract_append_high _ e 8 8, extract_append_high _ e 16 8,
    extract_append_high _ e 24 8]
  rw [extract_append_low, extract_append_high _ d 0 8, extract_append_high _ d 8 8, extract_append_high _ d 16 8]
  rw [extract_append_low, extract_append_high _ c 0 8, extract_append_high _ c 8 8]
  rw [extract_append_low, extract_append_high _ b 0 8, extract_all]

/-- `BE64` inverts `FromBE` on eight bytes (R6). -/
theorem be64_fromBE (l : List Byte) (h : l.length = 8) : be64 (fromBE l) = l := by
  match l, h with
  | [a, b, c, d, e, f, g, i], _ => exact be64_fromBE_of_bytes a b c d e f g i

/-! ### Little-endian words -/

theorem le32_append (a b c d : Byte) : le32 a b c d = (d ++ c ++ b ++ a : BitVec 32) := by
  apply BitVec.eq_of_getLsbD_eq
  intro i hi
  simp only [le32, BitVec.getLsbD_or, BitVec.getLsbD_shiftLeft, BitVec.getLsbD_setWidth, BitVec.getLsbD_append, hi]
  have h8 : ∀ (x : Byte) j, 8 ≤ j → x.getLsbD j = false := fun x j hj => BitVec.getLsbD_of_ge x j hj
  rcases (show i < 8 ∨ 8 ≤ i ∧ i < 16 ∨ 16 ≤ i ∧ i < 24 ∨ 24 ≤ i by omega) with h | ⟨h, h'⟩ | ⟨h, h'⟩ | h
  · simp [h, show i < 16 by omega, show i < 24 by omega]
  · simp [h8 a i h, show ¬ i < 8 by omega, h', show i < 24 by omega, show i - 8 < 32 by omega,
      show i - 8 < 8 by omega]
  · simp [h8 a i (by omega), h8 b (i - 8) (by omega), show ¬ i < 8 by omega, h', show ¬ i < 16 by omega,
      show i - 16 < 32 by omega, show ¬ i - 8 < 8 by omega, show i - 8 - 8 < 8 by omega]
    congr 1
  · simp [h8 a i (by omega), h8 b (i - 8) (by omega), h8 c (i - 16) (by omega), show ¬ i < 8 by omega,
      show ¬ i < 24 by omega, show ¬ i < 16 by omega, show i - 24 < 32 by omega, show ¬ i - 8 < 8 by omega,
      show ¬ i - 8 - 8 < 8 by omega]
    congr 1

theorem toLE32_list (w : Word32) :
    toLE32 w = [w.extractLsb' 0 8, w.extractLsb' 8 8, w.extractLsb' 16 8, w.extractLsb' 24 8] := rfl

/-- `LE32` inverts `ToLE32` (R6). -/
theorem le32_toLE32 (w : Word32) :
    le32 (w.extractLsb' 0 8) (w.extractLsb' 8 8) (w.extractLsb' 16 8) (w.extractLsb' 24 8) = w := by
  rw [le32_append, extract_append_extract w 16 8 8, extract_append_extract w 8 16 8, extract_append_extract w 0 24 8]
  exact extract_all w

/-- `ToLE32` inverts `LE32` (R6). -/
theorem toLE32_le32 (a b c d : Byte) : toLE32 (le32 a b c d) = [a, b, c, d] := by
  rw [toLE32_list, le32_append]
  rw [extract_append_low, extract_append_high _ a 0 8, extract_append_high _ a 8 8, extract_append_high _ a 16 8]
  rw [extract_append_low, extract_append_high _ b 0 8, extract_append_high _ b 8 8, extract_append_low,
    extract_append_high _ c 0 8, extract_all]

/-! ### Header words -/

theorem headerOfBytes_headerBytes (h : Header) :
    headerOfBytes (BitVec.extractLsb' 24 8 h) (BitVec.extractLsb' 16 8 h) (BitVec.extractLsb' 8 8 h)
      (BitVec.extractLsb' 0 8 h) = h := by
  unfold headerOfBytes
  rw [extract_append_extract h 16 8 8, extract_append_extract h 8 16 8, extract_append_extract h 0 24 8]
  exact extract_all h

theorem headerBytes_headerOfBytes (b0 b1 b2 b3 : Byte) :
    headerBytes (headerOfBytes b0 b1 b2 b3) = [b0, b1, b2, b3] := by
  unfold headerBytes headerOfBytes
  rw [extract_append_low, extract_append_high (b0 ++ b1 ++ b2) b3 0 8, extract_append_low,
    extract_append_high (b0 ++ b1 ++ b2) b3 8 8, extract_append_high (b0 ++ b1) b2 0 8, extract_append_low,
    extract_append_high (b0 ++ b1 ++ b2) b3 16 8, extract_append_high (b0 ++ b1) b2 8 8,
    extract_append_high b0 b1 0 8, extract_all]

theorem mkHeader_opc (o m : Byte) (n : Nat) : Header.opc (mkHeader o m n) = o := by
  unfold Header.opc mkHeader
  rw [extract_append_high (o ++ m) _ 8 8, extract_append_high o m 0 8, extract_all]

theorem mkHeader_rsv (o m : Byte) (n : Nat) : Header.rsv (mkHeader o m n) = m := by
  unfold Header.rsv mkHeader
  rw [extract_append_high (o ++ m) _ 0 8, extract_append_low]

theorem mkHeader_len (o m : Byte) (n : Nat) (h : n ≤ 65535) : Header.len (mkHeader o m n) = n := by
  unfold Header.len mkHeader
  rw [extract_append_low, BitVec.toNat_ofNat]
  omega

/-- A header is made of its three fields (R61). -/
theorem mkHeader_fields (h : Header) : mkHeader h.opc h.rsv h.len = h := by
  unfold mkHeader Header.opc Header.rsv Header.len
  rw [BitVec.ofNat_toNat, BitVec.setWidth_eq, extract_append_extract h 16 8 8, extract_append_extract h 0 16 16]
  exact extract_all h

theorem header_len_le (h : Header) : h.len ≤ 65535 := by
  have := (BitVec.extractLsb' 0 16 h).isLt
  simp only [Header.len]
  omega

theorem selectMask_bit (i : Nat) (h : i < 32) : (0xFFFF0000#32).getLsbD i = decide (16 ≤ i) := by
  have : ∀ j : Fin 32, (0xFFFF0000#32).getLsbD j.val = decide (16 ≤ j.val) := by decide
  exact this ⟨i, h⟩

/-- The match and mask of R65, read as fields: the opcode is `o` and the reserved field is 0. -/
theorem selectMask_iff (h : Header) (o : Byte) :
    h &&& 0xFFFF0000#32 = o.setWidth 32 <<< 24 ↔ h.opc = o ∧ h.rsv = 0 := by
  constructor
  · intro e
    have hb : ∀ j, j < 32 → (h.getLsbD j && decide (16 ≤ j)) = (!decide (j < 24) && o.getLsbD (j - 24)) := by
      intro j hj
      have := congrArg (fun v => v.getLsbD j) e
      simp only [BitVec.getLsbD_and, BitVec.getLsbD_shiftLeft, BitVec.getLsbD_setWidth, selectMask_bit j hj] at this
      simpa [hj, show j - 24 < 32 by omega] using this
    constructor
    · apply BitVec.eq_of_getLsbD_eq
      intro i hi
      have := hb (24 + i) (by omega)
      simp [show 16 ≤ 24 + i by omega] at this
      simp [Header.opc, hi, this]
    · apply BitVec.eq_of_getLsbD_eq
      intro i hi
      have := hb (16 + i) (by omega)
      simp [show 16 + i < 24 by omega] at this
      simp [Header.rsv, this]
  · rintro ⟨rfl, h2⟩
    apply BitVec.eq_of_getLsbD_eq
    intro i hi
    simp only [BitVec.getLsbD_and, BitVec.getLsbD_shiftLeft, BitVec.getLsbD_setWidth, selectMask_bit i hi]
    by_cases h16 : i < 16
    · simp [show ¬ 16 ≤ i by omega, show i < 24 by omega]
    · by_cases h24 : i < 24
      · have := congrArg (fun v => v.getLsbD (i - 16)) h2
        simp [Header.rsv, show i - 16 < 8 by omega, show 16 + (i - 16) = i by omega] at this
        simp [h24, this]
      · simp [h24, show 16 ≤ i by omega, Header.opc, show i - 24 < 32 by omega, show i - 24 < 8 by omega,
          show 24 + (i - 24) = i by omega, hi]

/-- No two rows have one opcode (R65). -/
theorem opcodeByte_injective (o o' : Opcode) (h : opcodeByte o = opcodeByte o') : o = o' := by
  revert h
  cases o <;> cases o' <;> decide

theorem mem_allOpcodes (o : Opcode) : o ∈ allOpcodes := by
  cases o <;> decide

end Sys2Proof.Machine
end

