-- ==== Sys2Proof/Laws/ChaCha.lean ====
section
/-! SUPPORT. The ChaCha20 functions (R104 to R107 of spec/41_chacha20.md), each said once: the counter step word by
word, the window byte by byte, one turn of `CryptBytes` in its two cases, and `CryptBytes` over data in pieces. -/

namespace Sys2Proof.Machine

/-! ### The counter step (R106) -/

theorem advanceCounter_low (st : Vector Word32 16) : (advanceCounter st)[12] = st[12] + 1 := by
  simp only [advanceCounter]
  split <;> simp

theorem advanceCounter_high (st : Vector Word32 16) :
    (advanceCounter st)[13] = if st[12] + 1 = 0 then st[13] + 1 else st[13] := by
  simp only [advanceCounter]
  split <;> simp

theorem advanceCounter_other (st : Vector Word32 16) (j : Nat) (hj : j < 16) (h12 : j ≠ 12) (h13 : j ≠ 13) :
    (advanceCounter st)[j] = st[j] := by
  simp only [advanceCounter]
  split
  · rw [Vector.getElem_set_ne _ _ (by omega), Vector.getElem_set_ne _ _ (by omega)]
  · rw [Vector.getElem_set_ne _ _ (by omega)]

/-! ### The window (R106) -/

theorem blockBytes_getElem (st : Vector Word32 16) (m : Nat) (hm : m < 64) :
    (blockBytes st)[m] = ((rounds st)[m / 4]'(by omega) + st[m / 4]'(by omega)).extractLsb' (8 * (m % 4)) 8 := by
  simp [blockBytes, blockWords]

/-! ### BlockNext (R106) -/

@[simp] theorem blockNext_phase (c : ChaCha) : (blockNext c).phase = .keystreaming := rfl
@[simp] theorem blockNext_key (c : ChaCha) : (blockNext c).key = c.key := rfl
@[simp] theorem blockNext_nonce (c : ChaCha) : (blockNext c).nonce = c.nonce := rfl
@[simp] theorem blockNext_ctr0 (c : ChaCha) : (blockNext c).ctr0 = c.ctr0 := rfl
@[simp] theorem blockNext_st (c : ChaCha) : (blockNext c).st = advanceCounter c.st := rfl
@[simp] theorem blockNext_ks (c : ChaCha) : (blockNext c).ks = blockBytes c.st := rfl
@[simp] theorem blockNext_off (c : ChaCha) : (blockNext c).off = c.off := rfl

/-! ### CryptBytes (R107) -/

/-- With the window used up a block is generated first. -/
theorem cryptByte_used {c : ChaCha} (b : Byte) (h : c.off = 64) :
    cryptByte c b = ({ blockNext c with off := 1 }, b ^^^ (blockBytes c.st)[0]) := by
  simp [cryptByte, h]

/-- With bytes left the one at `OFF` is taken and nothing else changes. -/
theorem cryptByte_left {c : ChaCha} (b : Byte) (k : Fin 64) (h : c.off.val = k.val) :
    cryptByte c b = ({ c with off := ⟨k.val + 1, by omega⟩ }, b ^^^ c.ks[k.val]) := by
  have h64 : ¬ c.off.val = 64 := by omega
  simp only [cryptByte, h64, dite_false]
  simp [h]

/-- `CryptBytes` keeps key, nonce, starting counter and every state word but the running counter. -/
theorem cryptByte_frame (c : ChaCha) (b : Byte) :
    (cryptByte c b).1.key = c.key ∧ (cryptByte c b).1.nonce = c.nonce ∧ (cryptByte c b).1.ctr0 = c.ctr0 ∧
      ∀ j (hj : j < 16), j ≠ 12 → j ≠ 13 → (cryptByte c b).1.st[j] = c.st[j] := by
  unfold cryptByte
  split
  · exact ⟨rfl, rfl, rfl, fun j hj h12 h13 => advanceCounter_other c.st j hj h12 h13⟩
  · exact ⟨rfl, rfl, rfl, fun _ _ _ _ => rfl⟩

/-- The instance after one byte does not depend on the byte; the output byte is the byte XOR a keystream byte. -/
theorem cryptByte_xor (c : ChaCha) (b : Byte) :
    (cryptByte c b).1 = (cryptByte c 0).1 ∧ (cryptByte c b).2 = b ^^^ (cryptByte c 0).2 := by
  unfold cryptByte
  split <;> simp

/-- Data in two pieces (R107): the second goes on from where the first left the instance. -/
theorem cryptBytes_append (c : ChaCha) (xs ys : List Byte) :
    cryptBytes c (xs ++ ys) =
      ((cryptBytes (cryptBytes c xs).1 ys).1, (cryptBytes c xs).2 ++ (cryptBytes (cryptBytes c xs).1 ys).2) := by
  induction xs generalizing c with
  | nil => rfl
  | cons b bs ih => simp [cryptBytes, ih]

/-- The instance after any data has been keyed and has the same key, nonce and starting counter. -/
theorem cryptBytes_frame (c : ChaCha) (bs : List Byte) :
    (cryptBytes c bs).1.key = c.key ∧ (cryptBytes c bs).1.nonce = c.nonce ∧ (cryptBytes c bs).1.ctr0 = c.ctr0 ∧
      ∀ j (hj : j < 16), j ≠ 12 → j ≠ 13 → (cryptBytes c bs).1.st[j] = c.st[j] := by
  induction bs generalizing c with
  | nil => exact ⟨rfl, rfl, rfl, fun _ _ _ _ => rfl⟩
  | cons b bs ih =>
    obtain ⟨h1, h2, h3, h4⟩ := cryptByte_frame c b
    obtain ⟨g1, g2, g3, g4⟩ := ih (cryptByte c b).1
    exact ⟨g1.trans h1, g2.trans h2, g3.trans h3,
      fun j hj h12 h13 => (g4 j hj h12 h13).trans (h4 j hj h12 h13)⟩

end Sys2Proof.Machine
end

