-- ==== Sys2Proof/Laws/Crc.lean ====
section
/-! SUPPORT. The CRC functions (R80 to R83 of spec/40_crc.md), each said once: the divide step is linear over XOR and
keeps values short, a table entry read back, the state update over data in pieces, the mask, and the bytes of an
emitted digest. -/

namespace Sys2Proof.Machine

/-- A value below `2^m` is one with no bit from `m` on. -/
theorem lt_two_pow_iff_bits {n : Nat} (v : BitVec n) (m : Nat) :
    v.toNat < 2 ^ m ↔ ∀ i, m ≤ i → v.getLsbD i = false := by
  constructor
  · intro h i hi
    rw [BitVec.getLsbD]
    exact Nat.testBit_lt_two_pow (Nat.lt_of_lt_of_le h (Nat.pow_le_pow_right (by omega) hi))
  · intro h
    exact Nat.lt_pow_two_of_testBit _ fun i hi => h i hi

/-! ### The mask (R81) -/

theorem mask_getLsbD (w i : Nat) (hw : w ≤ 64) : (mask w).getLsbD i = decide (i < w) := by
  rw [mask, BitVec.getLsbD_ofNat, Nat.testBit_two_pow_sub_one]
  by_cases h : i < w
  · simp [h, show i < 64 by omega]
  · simp [h]

/-- Masking bounds a value. -/
theorem and_mask_lt (v : Word64) (w : Nat) (hw : w ≤ 64) : (v &&& mask w).toNat < 2 ^ w := by
  rw [lt_two_pow_iff_bits]
  intro i hi
  rw [BitVec.getLsbD_and, mask_getLsbD w i hw]
  simp [show ¬ i < w by omega]

/-- Masking does not change a value that is already short enough. -/
theorem and_mask_of_lt (v : Word64) (w : Nat) (hw : w ≤ 64) (h : v.toNat < 2 ^ w) : v &&& mask w = v := by
  apply BitVec.eq_of_getLsbD_eq
  intro i _
  rw [BitVec.getLsbD_and, mask_getLsbD w i hw]
  by_cases hi : i < w
  · simp [hi]
  · simp [(lt_two_pow_iff_bits v w).1 h i (by omega)]

/-! ### The divide step (R82) -/

/-- The divide step is linear over XOR. -/
theorem divideStep_xor (rpoly a b : Word64) : divideStep rpoly (a ^^^ b) = divideStep rpoly a ^^^ divideStep rpoly b := by
  simp only [divideStep, BitVec.getLsbD_xor, BitVec.ushiftRight_xor_distrib]
  cases a.getLsbD 0 <;> cases b.getLsbD 0 <;> simp
  · rw [BitVec.xor_assoc]
  · ac_rfl
  · rw [show a >>> 1 ^^^ rpoly ^^^ (b >>> 1 ^^^ rpoly) = a >>> 1 ^^^ b >>> 1 ^^^ (rpoly ^^^ rpoly) by ac_rfl]
    simp

theorem divideSteps_xor (rpoly : Word64) (n : Nat) (a b : Word64) :
    divideSteps rpoly n (a ^^^ b) = divideSteps rpoly n a ^^^ divideSteps rpoly n b := by
  induction n generalizing a b with
  | zero => rfl
  | succ n ih => rw [divideSteps, divideStep_xor, ih]; rfl

/-- `n` divide steps of a value whose low `n` bits are zero only shift it. -/
theorem divideSteps_shift (rpoly : Word64) (n : Nat) (v : Word64) (h : ∀ i, i < n → v.getLsbD i = false) :
    divideSteps rpoly n v = v >>> n := by
  induction n generalizing v with
  | zero => simp [divideSteps]
  | succ n ih =>
    have h0 : v.getLsbD 0 = false := h 0 (by omega)
    rw [divideSteps, divideStep, h0, if_neg (by simp), ih, Nat.add_comm, BitVec.shiftRight_add]
    intro i hi
    rw [BitVec.getLsbD_ushiftRight]
    exact h _ (by omega)

/-- One divide step takes a value below `2^(m+1)` below `2^m`, as far as the polynomial allows. -/
theorem divideStep_lt (rpoly c : Word64) (w m : Nat) (hp : rpoly.toNat < 2 ^ w) (hw : w ≤ m) (hc : c.toNat < 2 ^ (m + 1)) :
    (divideStep rpoly c).toNat < 2 ^ m := by
  rw [lt_two_pow_iff_bits] at hp hc ⊢
  intro i hi
  have h1 := hc (1 + i) (by omega)
  have h2 := hp i (by omega)
  unfold divideStep
  split <;> simp [h1, h2]

/-- `n` divide steps of a value below `2^(m+n)` end below `2^m`, when the polynomial is. -/
theorem divideSteps_lt (rpoly c : Word64) (w m n : Nat) (hp : rpoly.toNat < 2 ^ w) (hw : w ≤ m)
    (hc : c.toNat < 2 ^ (m + n)) : (divideSteps rpoly n c).toNat < 2 ^ m := by
  induction n generalizing c with
  | zero => exact hc
  | succ n ih =>
    exact ih _ (divideStep_lt rpoly c w (m + n) hp (by omega) (by simpa [Nat.add_assoc] using hc))

/-! ### The table and the update (R82, R83, R85) -/

/-- A table entry read back. -/
theorem tableAt_buildTable (rpoly : Word64) (w : Nat) (i : Byte) :
    tableAt (buildTable rpoly w) i = tableEntry rpoly w i := by
  simp only [tableAt, buildTable, Vector.getElem_ofFn]
  rfl

/-- No entry reaches `2^w`, whatever the polynomial: the entry is masked. -/
theorem tableEntry_lt (rpoly : Word64) (w : Nat) (i : Byte) (hw : w ≤ 64) : (tableEntry rpoly w i).toNat < 2 ^ w :=
  and_mask_lt _ w hw

theorem updateBytes_nil (tab : Vector Word64 256) (s : Word64) : updateBytes tab s [] = s := rfl

theorem updateBytes_cons (tab : Vector Word64 256) (s : Word64) (b : Byte) (bs : List Byte) :
    updateBytes tab s (b :: bs) = updateBytes tab (updateByte tab s b) bs := rfl

/-- Data in two pieces (R85): the second goes on from where the first left the state. -/
theorem updateBytes_append (tab : Vector Word64 256) (s : Word64) (xs ys : List Byte) :
    updateBytes tab s (xs ++ ys) = updateBytes tab (updateBytes tab s xs) ys := by
  simp [updateBytes]

/-! ### Configurations (R84) -/

/-- What `CRC.INIT` accepts. -/
theorem legalConfig_iff (c : CrcConfig) :
    legalConfig c = true ↔ 1 ≤ c.width.toNat ∧ c.width.toNat ≤ 64 ∧ c.poly ≠ 0 := by
  simp only [legalConfig, Bool.and_eq_true, decide_eq_true_eq, and_assoc, Nat.one_le_iff_ne_zero]

/-! ### Emitted bytes (R6) -/

theorem beBytes_length (n : Nat) (v : Word64) : (beBytes n v).length = n := by simp [beBytes]

theorem beBytes_getElem? (n : Nat) (v : Word64) (k : Nat) (hk : k < n) :
    (beBytes n v)[k]? = some (v.extractLsb' (8 * (n - 1 - k)) 8) := by
  simp [beBytes, List.getElem?_range hk]

end Sys2Proof.Machine
end

