-- ==== Sys2Proof/Laws/State.lean ====
section
/-! SUPPORT. One lemma per field per update of State, and what two updates in a row come to. -/

namespace Sys2Proof.Machine

@[simp] theorem State.withCrc_crc (s : State) (u : CrcUnit) : (s.withCrc u).crc = u := rfl
@[simp] theorem State.withCrc_cc (s : State) (u : CrcUnit) : (s.withCrc u).cc = s.cc := rfl
@[simp] theorem State.withCrc_rr (s : State) (u : CrcUnit) : (s.withCrc u).rr = s.rr := rfl
@[simp] theorem State.withCrc_port (s : State) (u : CrcUnit) : (s.withCrc u).port = s.port := rfl
@[simp] theorem State.withCrc_responses (s : State) (u : CrcUnit) : (s.withCrc u).responses = s.responses := rfl

@[simp] theorem State.withCc_crc (s : State) (u : ChaCha) : (s.withCc u).crc = s.crc := rfl
@[simp] theorem State.withCc_cc (s : State) (u : ChaCha) : (s.withCc u).cc = u := rfl
@[simp] theorem State.withCc_rr (s : State) (u : ChaCha) : (s.withCc u).rr = s.rr := rfl
@[simp] theorem State.withCc_port (s : State) (u : ChaCha) : (s.withCc u).port = s.port := rfl
@[simp] theorem State.withCc_responses (s : State) (u : ChaCha) : (s.withCc u).responses = s.responses := rfl

@[simp] theorem State.withRr_crc (s : State) (u : RrUnit) : (s.withRr u).crc = s.crc := rfl
@[simp] theorem State.withRr_cc (s : State) (u : RrUnit) : (s.withRr u).cc = s.cc := rfl
@[simp] theorem State.withRr_rr (s : State) (u : RrUnit) : (s.withRr u).rr = u := rfl
@[simp] theorem State.withRr_port (s : State) (u : RrUnit) : (s.withRr u).port = s.port := rfl
@[simp] theorem State.withRr_responses (s : State) (u : RrUnit) : (s.withRr u).responses = s.responses := rfl

@[simp] theorem State.withPort_crc (s : State) (p : List PortItem) : (s.withPort p).crc = s.crc := rfl
@[simp] theorem State.withPort_cc (s : State) (p : List PortItem) : (s.withPort p).cc = s.cc := rfl
@[simp] theorem State.withPort_rr (s : State) (p : List PortItem) : (s.withPort p).rr = s.rr := rfl
@[simp] theorem State.withPort_port (s : State) (p : List PortItem) : (s.withPort p).port = p := rfl
@[simp] theorem State.withPort_responses (s : State) (p : List PortItem) : (s.withPort p).responses = s.responses := rfl

@[simp] theorem State.respond_crc (s : State) (r : Response) : (s.respond r).crc = s.crc := rfl
@[simp] theorem State.respond_cc (s : State) (r : Response) : (s.respond r).cc = s.cc := rfl
@[simp] theorem State.respond_rr (s : State) (r : Response) : (s.respond r).rr = s.rr := rfl
@[simp] theorem State.respond_port (s : State) (r : Response) : (s.respond r).port = s.port := rfl
@[simp] theorem State.respond_responses (s : State) (r : Response) : (s.respond r).responses = s.responses ++ [r] := rfl

@[simp] theorem State.zeroUnits_crc (s : State) : (s.zeroUnits).crc = CrcUnit.zero := rfl
@[simp] theorem State.zeroUnits_cc (s : State) : (s.zeroUnits).cc = ChaCha.zero := rfl
@[simp] theorem State.zeroUnits_rr (s : State) : (s.zeroUnits).rr = RrUnit.zero := rfl
@[simp] theorem State.zeroUnits_port (s : State) : (s.zeroUnits).port = s.port := rfl
@[simp] theorem State.zeroUnits_responses (s : State) : (s.zeroUnits).responses = s.responses := rfl

/-- Two states with the same five fields are equal. -/
theorem State.eq_of_fields {s t : State} (h1 : s.crc = t.crc) (h2 : s.cc = t.cc) (h3 : s.rr = t.rr)
    (h4 : s.port = t.port) (h5 : s.responses = t.responses) : s = t := by
  cases s; cases t; simp_all

/-- Responses appended one after another. -/
theorem State.respond_respond_responses (s : State) (r r' : Response) :
    ((s.respond r).respond r').responses = s.responses ++ [r, r'] := by
  simp

end Sys2Proof.Machine
end

