-- ==== Sys2Proof/Laws/Ops.lean ====
section
/-! SUPPORT. What each shared operation can answer, said once: the two ways of answering, the length check and the
status check. Later proofs cite these and do not unfold the operations. -/

namespace Sys2Proof.Machine

/-- A completed command answers a next state and nothing else. -/
@[simp] theorem complete_next (o : Opcode) (out : List Byte) (s t : State) :
    complete o out s = .next t ↔ t = s.respond ⟨opcodeByte o, .ok, out⟩ := by
  simp [complete, eq_comm]

/-- A raised status answers a next state and nothing else. -/
@[simp] theorem raise_next (o : Opcode) (st : Status) (s t : State) :
    raise o st s = .next t ↔ t = s.respond ⟨opcodeByte o, st, []⟩ := by
  simp [raise, eq_comm]

/-- Operands that fit reach the command. -/
@[simp] theorem withOperands_fits {α : Type} (o : Opcode) (a : α) (s : State) (f : α → Result) :
    withOperands o (.fits a) s f = f a := rfl

/-- A payload of the wrong length is refused. -/
@[simp] theorem withOperands_wrongLength {α : Type} (o : Opcode) (bs : List Byte) (s : State) (f : α → Result) :
    withOperands o (.wrongLength bs) s f = raise o .errLength s := rfl

/-- Status `OK` performs the command. -/
@[simp] theorem whenOk_ok (o : Opcode) (s : State) (r : Result) : whenOk o .ok s r = r := rfl

/-- Any other status is raised. -/
theorem whenOk_of_ne {o : Opcode} {st : Status} {s : State} {r : Result} (h : st ≠ .ok) :
    whenOk o st s r = raise o st s := by
  simp [whenOk, h]

/-- What the length check can answer. -/
theorem withOperands_next {α : Type} {o : Opcode} {p : Payload α} {s t : State} {f : α → Result}
    (h : withOperands o p s f = .next t) :
    (∃ a, p = .fits a ∧ f a = .next t) ∨
      (∃ bs, p = .wrongLength bs ∧ t = s.respond ⟨opcodeByte o, .errLength, []⟩) := by
  cases p with
  | fits a => exact .inl ⟨a, rfl, h⟩
  | wrongLength bs => exact .inr ⟨bs, rfl, by simpa using h⟩

/-- What the status check can answer. -/
theorem whenOk_next {o : Opcode} {st : Status} {s t : State} {r : Result} (h : whenOk o st s r = .next t) :
    (st = .ok ∧ r = .next t) ∨ (st ≠ .ok ∧ t = s.respond ⟨opcodeByte o, st, []⟩) := by
  by_cases hst : st = .ok
  · exact .inl ⟨hst, by simpa [whenOk, hst] using h⟩
  · exact .inr ⟨hst, by simpa [whenOk, hst] using h⟩

end Sys2Proof.Machine
end

