-- ==== Sys2Proof/Laws/Exec.lean ====
section
/-! SUPPORT. What a command can do to each unit, said once over all commands: the unit is unchanged, zeroed, or
written in one of the ways its own commands write it, with the phase that command needs. -/

namespace Sys2Proof.Machine

/-- What a command can do to the CRC unit (R84 to R90, R151). -/
theorem exec_crc (i : Instr) (s t : State) (h : exec i s = .next t) :
    t.crc = s.crc ∨ t.crc = CrcUnit.zero ∨ (∃ c, legalConfig c = true ∧ t.crc = configureCrc c) ∨
      (s.crc.phase = .ready ∧ ∃ d, t.crc = { s.crc with s := updateBytes s.crc.tab s.crc.s d }) ∨
      (s.crc.phase = .ready ∧ t.crc = { s.crc with phase := .finalized }) := by
  have rd : crcStreamStatus s.crc.phase = .ok → s.crc.phase = .ready := by
    cases s.crc.phase <;> simp [crcStreamStatus]
  cases i <;> simp only [exec] at h
  case crcInit p =>
    rcases withOperands_next h with ⟨a, _, h⟩ | ⟨bs, _, rfl⟩
    · split at h
      · rename_i hc; simp at h; subst h; exact .inr (.inr (.inl ⟨_, hc, rfl⟩))
      · simp at h; subst h; exact .inr (.inl rfl)
    · exact .inl rfl
  case crcUpdate p =>
    rcases whenOk_next h with ⟨a, h⟩ | ⟨_, rfl⟩
    · simp at h; subst h; exact .inr (.inr (.inr (.inl ⟨rd a, _, rfl⟩)))
    · exact .inl rfl
  case crcFinal p =>
    rcases withOperands_next h with ⟨a, _, h⟩ | ⟨bs, _, rfl⟩
    · rcases whenOk_next h with ⟨a, h⟩ | ⟨_, rfl⟩
      · simp at h; subst h; exact .inr (.inr (.inr (.inr ⟨rd a, rfl⟩)))
      · exact .inl rfl
    · exact .inl rfl
  case crcFinaln p =>
    rcases withOperands_next h with ⟨a, _, h⟩ | ⟨bs, _, rfl⟩
    · rcases whenOk_next h with ⟨a, h⟩ | ⟨_, rfl⟩
      · split at h
        · simp at h; subst h; exact .inr (.inr (.inr (.inr ⟨rd a, rfl⟩)))
        · simp at h; subst h; exact .inl rfl
      · exact .inl rfl
    · exact .inl rfl
  case crcFree p =>
    rcases withOperands_next h with ⟨a, _, h⟩ | ⟨bs, _, rfl⟩
    · simp at h; subst h; exact .inr (.inl rfl)
    · exact .inl rfl
  case sysReset p =>
    rcases withOperands_next h with ⟨a, _, h⟩ | ⟨bs, _, rfl⟩
    · simp at h; subst h; exact .inr (.inl rfl)
    · exact .inl rfl
  case crcReflect p =>
    rcases withOperands_next h with ⟨a, _, h⟩ | ⟨bs, _, rfl⟩
    · split at h <;> (simp at h; subst h; exact .inl rfl)
    · exact .inl rfl
  all_goals first
   | (rcases withOperands_next h with ⟨a, _, h⟩ | ⟨bs, _, rfl⟩
      · (simp at h; subst h; exact .inl rfl)
      · exact .inl rfl)
   | (rcases withOperands_next h with ⟨a, _, h⟩ | ⟨bs, _, rfl⟩
      · rcases whenOk_next h with ⟨a, h⟩ | ⟨_, rfl⟩
        · (simp at h; subst h; exact .inl rfl)
        · exact .inl rfl
      · exact .inl rfl)
   | (rcases whenOk_next h with ⟨a, h⟩ | ⟨_, rfl⟩
      · (simp at h; subst h; exact .inl rfl)
      · exact .inl rfl)

/-- What a command can do to the CC unit (R110 to R115, R151). -/
theorem exec_cc (i : Instr) (s t : State) (h : exec i s = .next t) :
    t.cc = s.cc ∨ t.cc = ChaCha.zero ∨ (∃ c, t.cc = instInit c) ∨
      ((s.cc.phase = .unkeyed ∨ s.cc.phase = .keyed) ∧ ∃ k n, t.cc = instSetup params s.cc k n) ∨
      ((s.cc.phase = .keyed ∨ s.cc.phase = .keystreaming) ∧ ∃ d, t.cc = (cryptBytes s.cc d).1) := by
  have r1 : ccSetupStatus s.cc.phase = .ok → s.cc.phase = .unkeyed ∨ s.cc.phase = .keyed := by
    cases s.cc.phase <;> simp [ccSetupStatus]
  have r2 : ccCryptStatus s.cc.phase = .ok → s.cc.phase = .keyed ∨ s.cc.phase = .keystreaming := by
    cases s.cc.phase <;> simp [ccCryptStatus]
  cases i <;> simp only [exec] at h
  case crcInit p =>
    rcases withOperands_next h with ⟨a, _, h⟩ | ⟨bs, _, rfl⟩
    · split at h <;> (simp at h; subst h; exact .inl rfl)
    · exact .inl rfl
  case crcFinaln p =>
    rcases withOperands_next h with ⟨a, _, h⟩ | ⟨bs, _, rfl⟩
    · rcases whenOk_next h with ⟨a, h⟩ | ⟨_, rfl⟩
      · split at h <;> (simp at h; subst h; exact .inl rfl)
      · exact .inl rfl
    · exact .inl rfl
  case crcReflect p =>
    rcases withOperands_next h with ⟨a, _, h⟩ | ⟨bs, _, rfl⟩
    · split at h <;> (simp at h; subst h; exact .inl rfl)
    · exact .inl rfl
  case sysReset p =>
    rcases withOperands_next h with ⟨a, _, h⟩ | ⟨bs, _, rfl⟩
    · simp at h; subst h; exact .inr (.inl rfl)
    · exact .inl rfl
  case ccFree p =>
    rcases withOperands_next h with ⟨a, _, h⟩ | ⟨bs, _, rfl⟩
    · simp at h; subst h; exact .inr (.inl rfl)
    · exact .inl rfl
  case ccInit p =>
    rcases withOperands_next h with ⟨a, _, h⟩ | ⟨bs, _, rfl⟩
    · simp at h; subst h; exact .inr (.inr (.inl ⟨_, rfl⟩))
    · exact .inl rfl
  case ccSetup p =>
    rcases withOperands_next h with ⟨a, _, h⟩ | ⟨bs, _, rfl⟩
    · rcases whenOk_next h with ⟨a, h⟩ | ⟨_, rfl⟩
      · simp at h; subst h; exact .inr (.inr (.inr (.inl ⟨r1 a, _, _, rfl⟩)))
      · exact .inl rfl
    · exact .inl rfl
  case ccEnc d =>
      rcases whenOk_next h with ⟨a, h⟩ | ⟨_, rfl⟩
      · simp at h; subst h; exact .inr (.inr (.inr (.inr ⟨r2 a, _, rfl⟩)))
      · exact .inl rfl
  case ccDec d =>
      rcases whenOk_next h with ⟨a, h⟩ | ⟨_, rfl⟩
      · simp at h; subst h; exact .inr (.inr (.inr (.inr ⟨r2 a, _, rfl⟩)))
      · exact .inl rfl
  all_goals first
   | (rcases withOperands_next h with ⟨a, _, h⟩ | ⟨bs, _, rfl⟩
      · (simp at h; subst h; exact .inl rfl)
      · exact .inl rfl)
   | (rcases withOperands_next h with ⟨a, _, h⟩ | ⟨bs, _, rfl⟩
      · rcases whenOk_next h with ⟨a, h⟩ | ⟨_, rfl⟩
        · (simp at h; subst h; exact .inl rfl)
        · exact .inl rfl
      · exact .inl rfl)
   | (rcases whenOk_next h with ⟨a, h⟩ | ⟨_, rfl⟩
      · (simp at h; subst h; exact .inl rfl)
      · exact .inl rfl)

/-- What a command can do to the RR unit (R135 to R138, R151). -/
theorem exec_rr (i : Instr) (s t : State) (h : exec i s = .next t) :
    t.rr = s.rr ∨ t.rr = RrUnit.zero ∨ t.rr = rrInitial params ∨
      (s.rr.phase = .absorbing ∧ ∃ d, t.rr = absorb s.rr d) ∨
      (s.rr.phase = .absorbing ∧ t.rr = rrFinalized s.rr) := by
  have r1 : rrStreamStatus s.rr.phase = .ok → s.rr.phase = .absorbing := by
    cases s.rr.phase <;> simp [rrStreamStatus]
  cases i <;> simp only [exec] at h
  case crcInit p =>
    rcases withOperands_next h with ⟨a, _, h⟩ | ⟨bs, _, rfl⟩
    · split at h <;> (simp at h; subst h; exact .inl rfl)
    · exact .inl rfl
  case crcFinaln p =>
    rcases withOperands_next h with ⟨a, _, h⟩ | ⟨bs, _, rfl⟩
    · rcases whenOk_next h with ⟨a, h⟩ | ⟨_, rfl⟩
      · split at h <;> (simp at h; subst h; exact .inl rfl)
      · exact .inl rfl
    · exact .inl rfl
  case crcReflect p =>
    rcases withOperands_next h with ⟨a, _, h⟩ | ⟨bs, _, rfl⟩
    · split at h <;> (simp at h; subst h; exact .inl rfl)
    · exact .inl rfl
  case sysReset p =>
    rcases withOperands_next h with ⟨a, _, h⟩ | ⟨bs, _, rfl⟩
    · simp at h; subst h; exact .inr (.inl rfl)
    · exact .inl rfl
  case rrFree p =>
    rcases withOperands_next h with ⟨a, _, h⟩ | ⟨bs, _, rfl⟩
    · simp at h; subst h; exact .inr (.inl rfl)
    · exact .inl rfl
  case rrInit p =>
    rcases withOperands_next h with ⟨a, _, h⟩ | ⟨bs, _, rfl⟩
    · simp at h; subst h; exact .inr (.inr (.inl rfl))
    · exact .inl rfl
  case rrFinal p =>
    rcases withOperands_next h with ⟨a, _, h⟩ | ⟨bs, _, rfl⟩
    · rcases whenOk_next h with ⟨a, h⟩ | ⟨_, rfl⟩
      · simp at h; subst h; exact .inr (.inr (.inr (.inr ⟨r1 a, rfl⟩)))
      · exact .inl rfl
    · exact .inl rfl
  case rrUpdate d =>
      rcases whenOk_next h with ⟨a, h⟩ | ⟨_, rfl⟩
      · simp at h; subst h; exact .inr (.inr (.inr (.inl ⟨r1 a, _, rfl⟩)))
      · exact .inl rfl
  all_goals first
   | (rcases withOperands_next h with ⟨a, _, h⟩ | ⟨bs, _, rfl⟩
      · (simp at h; subst h; exact .inl rfl)
      · exact .inl rfl)
   | (rcases withOperands_next h with ⟨a, _, h⟩ | ⟨bs, _, rfl⟩
      · rcases whenOk_next h with ⟨a, h⟩ | ⟨_, rfl⟩
        · (simp at h; subst h; exact .inl rfl)
        · exact .inl rfl
      · exact .inl rfl)
   | (rcases whenOk_next h with ⟨a, h⟩ | ⟨_, rfl⟩
      · (simp at h; subst h; exact .inl rfl)
      · exact .inl rfl)

end Sys2Proof.Machine
end

