-- ==== Sys2Proof/Laws/Fetch.lean ====
section
/-! SUPPORT. Framing and fetching (R60, R69 of spec/30_encoding.md; R180, R189 of spec/70_reset_and_hazards.md): a
whole command in front is taken whole, and what a frame says about the bytes it came from. -/

namespace Sys2Proof.Machine

/-- A header and exactly its payload, with anything after them, frame to that command. -/
theorem frame_of_command (h : Header) (p rest : List Byte) (hp : p.length = h.len) :
    frame (headerBytes h ++ (p ++ rest)) = some ⟨h, p, rest⟩ := by
  simp only [headerBytes, List.cons_append, List.nil_append, frame, headerOfBytes_headerBytes]
  simp [← hp]

/-- What a frame says about the bytes it came from. -/
theorem frame_some {bs : List Byte} {f : Frame} (h : frame bs = some f) :
    f.payload.length = f.header.len ∧ headerBytes f.header ++ (f.payload ++ f.rest) = bs := by
  unfold frame at h
  split at h
  · simp only at h
    split at h
    · rename_i hl
      cases h
      refine ⟨by simp; omega, ?_⟩
      rw [headerBytes_headerOfBytes, List.take_append_drop]
      rfl
    · cases h
  · cases h

/-- The bytes in front of a port. -/
theorem portBytes_portOf (bs : List Byte) (later : List PortItem) :
    portBytes (portOf bs ++ later) = bs ++ portBytes later := by
  induction bs with
  | nil => rfl
  | cons b bs ih =>
    simp only [portOf, List.map_cons, List.cons_append, portBytes] at ih ⊢
    rw [ih]

/-- Bytes in front of a port are passed over when a reset is looked for. -/
theorem afterReset_portOf (bs : List Byte) (later : List PortItem) :
    afterReset (portOf bs ++ later) = afterReset later := by
  induction bs with
  | nil => rfl
  | cons b bs ih =>
    simp only [portOf, List.map_cons, List.cons_append, afterReset] at ih ⊢
    exact ih

/-- With a whole command in front of the port, what is taken depends on the item after it alone. -/
theorem fetch_whole (h : Header) (p : List Byte) (later : List PortItem) (hp : p.length = h.len) :
    fetch (portOf (headerBytes h ++ p) ++ later) = fetchWhole h p later := by
  unfold fetch
  rw [portBytes_portOf, List.append_assoc, frame_of_command _ _ _ hp]
  have hl : (portOf (headerBytes h ++ p)).length = 4 + p.length := by simp [portOf, headerBytes]; omega
  simp only [← hl, List.drop_left]

/-- A whole command in front of the port that no reset interrupts is what is taken, and nothing after it. -/
theorem fetch_command (h : Header) (p : List Byte) (later : List PortItem) (hp : p.length = h.len)
    (hr : later.head? ≠ some .resetInProgress) :
    fetch (portOf (headerBytes h ++ p) ++ later) = .command h p later := by
  rw [fetch_whole _ _ _ hp]
  unfold fetchWhole
  split
  · exact absurd rfl hr
  · rfl

/-- A reset in progress behind a whole command abandons it (R180). -/
theorem fetch_abandoned (h : Header) (p : List Byte) (later : List PortItem) (hp : p.length = h.len) :
    fetch (portOf (headerBytes h ++ p) ++ .resetInProgress :: later) = .reset later := by
  rw [fetch_whole _ _ _ hp, fetchWhole]

/-- What `withFetchWord` leaves in front of the old port does not interrupt the command. -/
theorem afterCommand_head? (port : List PortItem) : (afterCommand port).head? ≠ some .resetInProgress := by
  unfold afterCommand
  split
  · simp
  · rename_i hne
    cases port with
    | nil => simp
    | cons a rest => cases a <;> simp_all

/-- Everything a step can do: hold the state, take a reset, refuse an illegal header, or perform a command. -/
theorem step_cases {s t : State} (h : step s = .next t) :
    t = s ∨ (∃ rest, t = hardwareReset rest s) ∨
      (∃ opc rest, t = (s.withPort rest).respond ⟨opc, .errUnsupported, []⟩) ∨
      (∃ i rest, exec i (s.withPort rest) = .next t) := by
  unfold step at h
  split at h
  · cases h
    exact .inl rfl
  · cases h
    exact .inr (.inl ⟨_, rfl⟩)
  · unfold perform at h
    split at h
    · exact .inr (.inr (.inr ⟨_, _, h⟩))
    · cases h
      exact .inr (.inr (.inl ⟨_, _, rfl⟩))

end Sys2Proof.Machine
end

