-- ==== Sys2Proof/Laws/Operands.lean ====
section
/-! SUPPORT. Operands cut from a payload and laid into one (R64 of spec/30_encoding.md): the two are inverse for each
layout, and each laid payload has the one legal length of R66. -/

namespace Sys2Proof.Machine

/-! ### Lengths (R66) -/

theorem layCrcConfig_length (c : CrcConfig) : (layCrcConfig c).length = 25 := rfl
theorem layReflectArgs_length (r : ReflectArgs) : (layReflectArgs r).length = 9 := rfl
theorem layKeyNonce_length (k : KeyNonce) : (layKeyNonce k).length = 44 := by simp [layKeyNonce]
theorem layQrWords_length (q : QrWords) : (layQrWords q).length = 16 := rfl

/-! ### Cutting what was laid -/

theorem cutCrcConfig_lay (c : CrcConfig) (h : (layCrcConfig c).toArray.size = 25) :
    cutCrcConfig ⟨(layCrcConfig c).toArray, h⟩ = c := by
  have e1 : slice (⟨(layCrcConfig c).toArray, h⟩ : Vector Byte 25) 1 8 = be64 c.poly := rfl
  have e2 : slice (⟨(layCrcConfig c).toArray, h⟩ : Vector Byte 25) 9 8 = be64 c.init := rfl
  have e3 : slice (⟨(layCrcConfig c).toArray, h⟩ : Vector Byte 25) 17 8 = be64 c.xorout := rfl
  simp only [cutCrcConfig, e1, e2, e3, fromBE_be64]
  rfl

theorem cutReflectArgs_lay (r : ReflectArgs) (h : (layReflectArgs r).toArray.size = 9) :
    cutReflectArgs ⟨(layReflectArgs r).toArray, h⟩ = r := by
  have e1 : slice (⟨(layReflectArgs r).toArray, h⟩ : Vector Byte 9) 1 8 = be64 r.x := rfl
  simp only [cutReflectArgs, e1, fromBE_be64]
  rfl

theorem cutCounter_lay (v : Word64) (h : (be64 v).toArray.size = 8) : cutCounter ⟨(be64 v).toArray, h⟩ = v := by
  have e1 : slice (⟨(be64 v).toArray, h⟩ : Vector Byte 8) 0 8 = be64 v := rfl
  simp only [cutCounter, e1, fromBE_be64]

theorem cutKeyNonce_lay (k : KeyNonce) (h : (layKeyNonce k).toArray.size = 44) :
    cutKeyNonce ⟨(layKeyNonce k).toArray, h⟩ = k := by
  obtain ⟨key, nonce⟩ := k
  simp only [cutKeyNonce, KeyNonce.mk.injEq]
  constructor
  · ext i hi; simp [layKeyNonce]
  · ext i hi; simp [layKeyNonce]

theorem cutQrWords_bytes (b0 b1 b2 b3 b4 b5 b6 b7 b8 b9 b10 b11 b12 b13 b14 b15 : Byte)
    (h : [b0, b1, b2, b3, b4, b5, b6, b7, b8, b9, b10, b11, b12, b13, b14, b15].toArray.size = 16) :
    cutQrWords ⟨[b0, b1, b2, b3, b4, b5, b6, b7, b8, b9, b10, b11, b12, b13, b14, b15].toArray, h⟩ =
      ⟨le32 b0 b1 b2 b3, le32 b4 b5 b6 b7, le32 b8 b9 b10 b11, le32 b12 b13 b14 b15⟩ := rfl

theorem layQrWords_bytes (q : QrWords) : layQrWords q =
    [q.a.extractLsb' 0 8, q.a.extractLsb' 8 8, q.a.extractLsb' 16 8, q.a.extractLsb' 24 8,
     q.b.extractLsb' 0 8, q.b.extractLsb' 8 8, q.b.extractLsb' 16 8, q.b.extractLsb' 24 8,
     q.c.extractLsb' 0 8, q.c.extractLsb' 8 8, q.c.extractLsb' 16 8, q.c.extractLsb' 24 8,
     q.d.extractLsb' 0 8, q.d.extractLsb' 8 8, q.d.extractLsb' 16 8, q.d.extractLsb' 24 8] := rfl

theorem cutQrWords_lay (q : QrWords) (h : (layQrWords q).toArray.size = 16) :
    cutQrWords ⟨(layQrWords q).toArray, h⟩ = q := by
  revert h
  rw [layQrWords_bytes]
  intro h
  rw [cutQrWords_bytes, le32_toLE32, le32_toLE32, le32_toLE32, le32_toLE32]

/-! ### Laying what was cut -/

theorem slice_length {m : Nat} (v : Vector Byte m) (a n : Nat) (h : a + n ≤ m) : (slice v a n).length = n := by
  simp [slice]
  omega

theorem slices_of_25 (v : Vector Byte 25) : v[0] :: (slice v 1 8 ++ slice v 9 8 ++ slice v 17 8) = v.toList := by
  obtain ⟨⟨l⟩, h⟩ := v
  simp only [List.size_toArray] at h
  match l, h with
  | [_, _, _, _, _, _, _, _, _, _, _, _, _, _, _, _, _, _, _, _, _, _, _, _, _], _ => rfl

theorem slices_of_9 (v : Vector Byte 9) : v[0] :: slice v 1 8 = v.toList := by
  obtain ⟨⟨l⟩, h⟩ := v
  simp only [List.size_toArray] at h
  match l, h with
  | [_, _, _, _, _, _, _, _, _], _ => rfl

theorem layCrcConfig_cut (v : Vector Byte 25) : layCrcConfig (cutCrcConfig v) = v.toList := by
  simp only [layCrcConfig, cutCrcConfig]
  rw [be64_fromBE _ (slice_length v 1 8 (by omega)), be64_fromBE _ (slice_length v 9 8 (by omega)),
    be64_fromBE _ (slice_length v 17 8 (by omega))]
  exact slices_of_25 v

theorem layReflectArgs_cut (v : Vector Byte 9) : layReflectArgs (cutReflectArgs v) = v.toList := by
  simp only [layReflectArgs, cutReflectArgs]
  rw [be64_fromBE _ (slice_length v 1 8 (by omega))]
  exact slices_of_9 v

theorem layCounter_cut (v : Vector Byte 8) : be64 (cutCounter v) = v.toList := by
  simp only [cutCounter]
  rw [be64_fromBE _ (slice_length v 0 8 (by omega))]
  simp [slice]

theorem layKeyNonce_cut (v : Vector Byte 44) : layKeyNonce (cutKeyNonce v) = v.toList := by
  simp only [layKeyNonce, cutKeyNonce]
  apply List.ext_getElem
  · simp
  · intro i h1 h2
    simp [List.getElem_append]
    split
    · rfl
    · congr 1
      omega

theorem layQrWords_cut (v : Vector Byte 16) : layQrWords (cutQrWords v) = v.toList := by
  simp only [layQrWords, cutQrWords, le32At, toLE32_le32]
  obtain ⟨⟨l⟩, h⟩ := v
  simp only [List.size_toArray] at h
  match l, h with
  | [_, _, _, _, _, _, _, _, _, _, _, _, _, _, _, _], _ => rfl

theorem layIndex_cut (v : Vector Byte 1) : [cutIndex v] = v.toList := by
  obtain ⟨⟨l⟩, h⟩ := v
  simp only [List.size_toArray] at h
  match l, h with
  | [_], _ => rfl

theorem layNothing_cut (v : Vector Byte 0) : [] = v.toList := by
  obtain ⟨⟨l⟩, h⟩ := v
  simp only [List.size_toArray] at h
  match l, h with
  | [], _ => rfl

/-! ### Payloads -/

/-- A payload laid and cut again, for any layout of `n` bytes whose operands come back. -/
theorem cutPayload_layPayload {α : Type} (n : Nat) (f : Vector Byte n → α) (g : α → List Byte)
    (hl : ∀ a, (g a).length = n) (hfg : ∀ a (h : (g a).toArray.size = n), f ⟨(g a).toArray, h⟩ = a) (p : Payload α)
    (hw : ∀ bs, p = .wrongLength bs → bs.length ≠ n) : cutPayload n f (layPayload g p) = p := by
  cases p with
  | fits a => simp [layPayload, cutPayload, hl, hfg]
  | wrongLength bs => simp [layPayload, cutPayload, hw bs rfl]

/-- A payload cut and laid again, for any layout whose bytes come back. -/
theorem layPayload_cutPayload {α : Type} (n : Nat) (f : Vector Byte n → α) (g : α → List Byte)
    (h : ∀ v, g (f v) = v.toList) (p : List Byte) : layPayload g (cutPayload n f p) = p := by
  unfold cutPayload
  split
  · simp [layPayload, h]
  · rfl

/-- A well-formed `wrongLength` payload does not have the legal length. -/
theorem wellFormed_length_ne {α : Type} {o : Opcode} {k : Nat} {p : Payload α} (ho : fixedLen o = some k)
    (h : p.wellFormed o = true) : ∀ bs, p = .wrongLength bs → bs.length ≠ k := by
  rintro bs rfl
  simp [Payload.wellFormed, legalLen, ho] at h
  exact h.1

/-- What is cut from a payload that fits `LEN` is well-formed. -/
theorem cutPayload_wellFormed {α : Type} {o : Opcode} {n : Nat} (f : Vector Byte n → α) {p : List Byte}
    (ho : fixedLen o = some n) (h : p.length ≤ Config.maxLen) : (cutPayload n f p).wellFormed o = true := by
  unfold cutPayload
  split
  · rfl
  · rename_i hp
    simp [Payload.wellFormed, legalLen, ho, hp, h]

end Sys2Proof.Machine
end

