-- ==== Sys2Proof/Laws/PerInstr.lean ====
section
/-! SUPPORT. One family of statements made per instruction: the form of a command's encoding (R60, R61, R65 of
spec/30_encoding.md). Each lemma is about the instruction as syntax. -/

namespace Sys2Proof.Laws

/-- The encoding of a command begins with its row's opcode byte and a zero reserved byte, is four bytes longer than
its payload, ends with its payload, and its header selects the command's own row. -/
def EncodedForm.Statement (i : Instr) : Prop :=
  (encode i).take 2 = [opcodeByte i.opcode, 0] ∧ (encode i).length = 4 + i.payload.length ∧
    (encode i).drop 4 = i.payload ∧ i.header.opc = opcodeByte i.opcode ∧ i.header.rsv = 0

/-- The statement holds of any command; each constructor's lemma is this one at that constructor. -/
theorem EncodedForm.holds (i : Instr) : EncodedForm.Statement i := by
  have h1 : i.header.opc = opcodeByte i.opcode := Machine.mkHeader_opc _ _ _
  have h2 : i.header.rsv = 0 := Machine.mkHeader_rsv _ _ _
  refine ⟨?_, ?_, ?_, h1, h2⟩
  · rw [← h1, ← h2]
    rfl
  · simp [encode, headerBytes]
    omega
  · simp [encode, headerBytes]

theorem EncodedForm.sysNop (p : Payload Unit) : EncodedForm.Statement (.sysNop p) := EncodedForm.holds _
theorem EncodedForm.sysReset (p : Payload Unit) : EncodedForm.Statement (.sysReset p) := EncodedForm.holds _
theorem EncodedForm.crcInit (p : Payload CrcConfig) : EncodedForm.Statement (.crcInit p) := EncodedForm.holds _
theorem EncodedForm.crcUpdate (data : List Byte) : EncodedForm.Statement (.crcUpdate data) := EncodedForm.holds _
theorem EncodedForm.crcFinal (p : Payload Unit) : EncodedForm.Statement (.crcFinal p) := EncodedForm.holds _
theorem EncodedForm.crcFinaln (p : Payload Unit) : EncodedForm.Statement (.crcFinaln p) := EncodedForm.holds _
theorem EncodedForm.crcFree (p : Payload Unit) : EncodedForm.Statement (.crcFree p) := EncodedForm.holds _
theorem EncodedForm.crcReflect (p : Payload ReflectArgs) : EncodedForm.Statement (.crcReflect p) := EncodedForm.holds _
theorem EncodedForm.crcRdtab (p : Payload Byte) : EncodedForm.Statement (.crcRdtab p) := EncodedForm.holds _
theorem EncodedForm.ccInit (p : Payload Word64) : EncodedForm.Statement (.ccInit p) := EncodedForm.holds _
theorem EncodedForm.ccSetup (p : Payload KeyNonce) : EncodedForm.Statement (.ccSetup p) := EncodedForm.holds _
theorem EncodedForm.ccEnc (data : List Byte) : EncodedForm.Statement (.ccEnc data) := EncodedForm.holds _
theorem EncodedForm.ccDec (data : List Byte) : EncodedForm.Statement (.ccDec data) := EncodedForm.holds _
theorem EncodedForm.ccFree (p : Payload Unit) : EncodedForm.Statement (.ccFree p) := EncodedForm.holds _
theorem EncodedForm.ccQr (p : Payload QrWords) : EncodedForm.Statement (.ccQr p) := EncodedForm.holds _
theorem EncodedForm.rrInit (p : Payload Unit) : EncodedForm.Statement (.rrInit p) := EncodedForm.holds _
theorem EncodedForm.rrUpdate (data : List Byte) : EncodedForm.Statement (.rrUpdate data) := EncodedForm.holds _
theorem EncodedForm.rrFinal (p : Payload Unit) : EncodedForm.Statement (.rrFinal p) := EncodedForm.holds _
theorem EncodedForm.rrFree (p : Payload Unit) : EncodedForm.Statement (.rrFree p) := EncodedForm.holds _

end Sys2Proof.Laws
end

