-- ==== Sys2Proof/Laws/RoundRobin.lean ====
section
/-! SUPPORT. The RoundRobin256 functions (R130 to R132 of spec/42_roundrobin256.md), each said once: the fields of
`Transform` and `Pad`, one turn of `Absorb` in its two cases, `Absorb` over data in pieces, and what `Absorb` never
writes. -/

namespace Sys2Proof.Machine

/-! ### Transform (R130) -/

@[simp] theorem transform_phase (r : RrUnit) : (transform r).phase = r.phase := rfl
@[simp] theorem transform_idx (r : RrUnit) : (transform r).idx = r.idx := rfl
@[simp] theorem transform_len (r : RrUnit) : (transform r).len = r.len := rfl
@[simp] theorem transform_outsz (r : RrUnit) : (transform r).outsz = r.outsz := rfl

/-- The instance after a Transform is the one that has encrypted the block. -/
theorem transform_cc (r : RrUnit) : (transform r).cc = (cryptBytes r.cc r.blk.toList).1 := rfl

/-- The block after a Transform is the encrypted block. -/
theorem transform_blk (r : RrUnit) : (transform r).blk.toList = (cryptBytes r.cc r.blk.toList).2 := rfl

/-- The accumulator after a Transform takes in the encrypted block. -/
theorem transform_acc (r : RrUnit) : (transform r).acc = foldBlock r.acc (transform r).blk := rfl

/-! ### Absorb (R131) -/

/-- A byte that does not complete the block is only stored. -/
theorem absorbByte_store (r : RrUnit) (b : Byte) (h : r.idx.val < 63) :
    absorbByte r b = { r with blk := r.blk.set r.idx.val b, idx := ⟨r.idx.val + 1, by omega⟩ } := by
  have h64 : ¬ r.idx.val + 1 = 64 := by omega
  simp only [absorbByte, h64, dite_false]

/-- The byte that completes the block folds it. -/
theorem absorbByte_fold (r : RrUnit) (b : Byte) (h : r.idx.val = 63) :
    absorbByte r b = { transform { r with blk := r.blk.set r.idx.val b } with len := r.len + 64, idx := 0 } := by
  have h64 : r.idx.val + 1 = 64 := by omega
  simp only [absorbByte, h64, dite_true]

theorem absorb_nil (r : RrUnit) : absorb r [] = r := rfl

theorem absorb_cons (r : RrUnit) (b : Byte) (bs : List Byte) : absorb r (b :: bs) = absorb (absorbByte r b) bs := rfl

/-- Data in two pieces: the second goes on from where the first left the unit. -/
theorem absorb_append (r : RrUnit) (xs ys : List Byte) : absorb r (xs ++ ys) = absorb (absorb r xs) ys := by
  simp [absorb]

/-- `Absorb` writes neither the phase nor the output size. -/
theorem absorbByte_frame (r : RrUnit) (b : Byte) :
    (absorbByte r b).phase = r.phase ∧ (absorbByte r b).outsz = r.outsz := by
  unfold absorbByte
  split <;> exact ⟨rfl, rfl⟩

theorem absorb_frame (r : RrUnit) (bs : List Byte) : (absorb r bs).phase = r.phase ∧ (absorb r bs).outsz = r.outsz := by
  induction bs generalizing r with
  | nil => exact ⟨rfl, rfl⟩
  | cons b bs ih =>
    obtain ⟨h1, h2⟩ := absorbByte_frame r b
    obtain ⟨g1, g2⟩ := ih (absorbByte r b)
    exact ⟨g1.trans h1, g2.trans h2⟩

/-! ### Pad (R132) -/

/-- `Pad` writes the length and the block only. -/
theorem pad_frame (cfg : Config) (r : RrUnit) :
    (pad cfg r).phase = r.phase ∧ (pad cfg r).cc = r.cc ∧ (pad cfg r).acc = r.acc ∧ (pad cfg r).idx = r.idx ∧
      (pad cfg r).outsz = r.outsz := by
  simp only [pad, and_self]

/-- The block `Pad` leaves. -/
theorem pad_blk (cfg : Config) (r : RrUnit) : (pad cfg r).blk = padBlock cfg r.blk r.idx := rfl

/-- The length `Pad` leaves: the bytes still pending are counted. -/
theorem pad_len (cfg : Config) (r : RrUnit) : (pad cfg r).len = r.len + BitVec.ofNat 64 r.idx.val := rfl

/-- The padded block, byte by byte. -/
theorem padBlock_getElem (cfg : Config) (blk : Vector Byte 64) (i : Fin 64) (j : Nat) (hj : j < 64) :
    (padBlock cfg blk i)[j] =
      if j < i.val then blk[j]
      else if j = i.val then 0x80
      else BitVec.ofNat 8 (i.val + cfg.rrPadFillOffset.val) := by
  simp only [padBlock, Vector.getElem_ofFn]

end Sys2Proof.Machine
end

