-- ==== Sys2Proof/Tests/Slice0.lean ====
section
/-! SUPPORT. Tests. Expected values are those of spec/95_test_vectors.md (named V1 to V40, P1 to P5 there) or are
written out by hand from the encoding rules; then one named witness for every statement that has hypotheses. -/

namespace Sys2Proof.Tests

open Machine

/-! ### Helpers -/

/-- The `n`-byte big-endian image of a number. -/
def bytesOf (n v : Nat) : List Byte := (List.range n).map fun k => BitVec.ofNat 8 (v / 256 ^ (n - 1 - k))

/-- `0, 1, 2, …` as bytes. -/
def counting (n : Nat) : List Byte := (List.range n).map (BitVec.ofNat 8)

/-- The state after a step or a command. -/
def after : Result → State
  | .next t => t
  | .fault _ => State.reset
  | .refused _ => State.reset

/-- The last response given. -/
def answer (r : Result) : Option Response := (after r).responses.getLast?

/-- The configuration of V5: the catalogue CRC-32. -/
def crc32 : CrcConfig := ⟨32, 0x04C11DB7, 0xFFFFFFFF, 0xFFFFFFFF⟩

/-- The configuration of V1. -/
def crc64 : CrcConfig := ⟨64, 0x0b8832cbf5b3c646, 0x0a532b523827d0e7, 0xa5fe29cae22e6563⟩

/-- The configuration of V7. -/
def crc5 : CrcConfig := ⟨5, 0x05, 0x1F, 0x1F⟩

/-- The CRC unit `Ready` in a configuration, with `CRC.S` as given. -/
def crcReady (c : CrcConfig) (v : Word64) : State := { State.reset with crc := { configureCrc c with s := v } }

/-- The CRC unit `Finalized`. -/
def crcDone (c : CrcConfig) : State := { State.reset with crc := { configureCrc c with phase := .finalized } }

/-- The key of V23. -/
def key23 : Vector Byte 32 := Vector.ofFn fun j : Fin 32 => BitVec.ofNat 8 j.val

/-- The nonce of V23. -/
def nonce23 : Vector Byte 12 := Vector.ofFn fun j : Fin 12 => BitVec.ofNat 8 j.val

/-- The CC unit `Unkeyed`. -/
def ccUnkeyed (ctr : Word64) : State := { State.reset with cc := instInit ctr }

/-- The CC unit `Keyed` with the zero key and nonce. -/
def ccKeyed (ctr : Word64) : State :=
  { State.reset with cc := instSetup params (instInit ctr) (Vector.replicate 32 0) (Vector.replicate 12 0) }

/-- The CC unit `Keyed` with the key and nonce of V23. -/
def ccKeyed23 (ctr : Word64) : State := { State.reset with cc := instSetup params (instInit ctr) key23 nonce23 }

/-- The CC unit `Keystreaming`, one byte taken. -/
def ccStreaming : State := { State.reset with cc := (cryptBytes (ccKeyed 0).cc [0]).1 }

/-- The RR unit `Absorbing`, nothing absorbed. -/
def rrFresh : State := { State.reset with rr := rrInitial params }

/-- The RR unit `Finalized`. -/
def rrDone : State := { State.reset with rr := rrFinalized (rrInitial params) }

/-- What an opened stream of ciphertext or a digest begins with. -/
def outOf (r : Result) : List Byte := ((answer r).map Response.out).getD []

/-! ### Well-formedness: an ill-formed term for each check, refused -/

theorem test_wf_no_payload_too_long : (Instr.sysNop (.fits ())).wellFormed = true ∧
    (Instr.sysNop (.wrongLength [])).wellFormed = false ∧ (Instr.sysReset (.wrongLength [])).wellFormed = false := by
  decide

theorem test_wf_legal_length_kept_apart :
    (Instr.crcInit (.wrongLength (List.replicate 25 0))).wellFormed = false ∧
    (Instr.crcInit (.wrongLength (List.replicate 24 0))).wellFormed = true ∧
    (Instr.crcReflect (.wrongLength (List.replicate 9 0))).wellFormed = false ∧
    (Instr.crcRdtab (.wrongLength [0])).wellFormed = false ∧
    (Instr.ccInit (.wrongLength (List.replicate 8 0))).wellFormed = false ∧
    (Instr.ccSetup (.wrongLength (List.replicate 44 0))).wellFormed = false ∧
    (Instr.ccQr (.wrongLength (List.replicate 16 0))).wellFormed = false := by decide

theorem test_wf_no_operand_commands :
    (Instr.crcFinal (.wrongLength [])).wellFormed = false ∧ (Instr.crcFinaln (.wrongLength [])).wellFormed = false ∧
    (Instr.crcFree (.wrongLength [])).wellFormed = false ∧ (Instr.ccFree (.wrongLength [])).wellFormed = false ∧
    (Instr.rrInit (.wrongLength [])).wellFormed = false ∧ (Instr.rrFinal (.wrongLength [])).wellFormed = false ∧
    (Instr.rrFree (.wrongLength [])).wellFormed = false := by decide

theorem test_wf_data_too_long (data : List Byte) (h : data.length = 65536) :
    (Instr.crcUpdate data).wellFormed = false ∧ (Instr.ccEnc data).wellFormed = false ∧
    (Instr.ccDec data).wellFormed = false ∧ (Instr.rrUpdate data).wellFormed = false ∧
    (Instr.rrFinal (.wrongLength data)).wellFormed = false := by
  simp [Instr.wellFormed, dataWellFormed, Payload.wellFormed, h]

theorem test_wf_longest_data (data : List Byte) (h : data.length = 65535) :
    (Instr.crcUpdate data).wellFormed = true := by
  simp [Instr.wellFormed, dataWellFormed, h]

/-! ### Decoding: every constructor, from a word written out from R61, R64 and R65

A header is `UNIT(4) FN(4)`, a zero byte, and `LEN(16)`. -/

theorem test_decode_sysNop : decode [0b00000000, 0, 0, 0] = .command (.sysNop (.fits ())) [] := by decide
theorem test_decode_sysReset : decode [0b00000001, 0, 0, 0] = .command (.sysReset (.fits ())) [] := by decide
theorem test_decode_crcInit :
    decode ([0b00010000, 0, 0, 0x19, 0x40, 0x0B, 0x88, 0x32, 0xCB, 0xF5, 0xB3, 0xC6, 0x46, 0x0A, 0x53, 0x2B, 0x52, 0x38,
      0x27, 0xD0, 0xE7, 0xA5, 0xFE, 0x29, 0xCA, 0xE2, 0x2E, 0x65, 0x63] ++ [0x11]) =
      .command (.crcInit (.fits crc64)) [0x11] := by decide
theorem test_decode_crcUpdate :
    decode [0b00010001, 0, 0, 5, 0x68, 0x65, 0x6C, 0x6C, 0x6F] =
      .command (.crcUpdate [0x68, 0x65, 0x6C, 0x6C, 0x6F]) [] := by decide
theorem test_decode_crcFinal : decode [0b00010010, 0, 0, 0] = .command (.crcFinal (.fits ())) [] := by decide
theorem test_decode_crcFinaln : decode [0b00010011, 0, 0, 0] = .command (.crcFinaln (.fits ())) [] := by decide
theorem test_decode_crcFree : decode [0b00010100, 0, 0, 0] = .command (.crcFree (.fits ())) [] := by decide
theorem test_decode_crcReflect :
    decode [0b00010101, 0, 0, 9, 0x20, 0, 0, 0, 0, 0x04, 0xC1, 0x1D, 0xB7] =
      .command (.crcReflect (.fits ⟨32, 0x04C11DB7⟩)) [] := by decide
theorem test_decode_crcRdtab : decode [0b00010110, 0, 0, 1, 0x80] = .command (.crcRdtab (.fits 0x80)) [] := by decide
theorem test_decode_ccInit :
    decode [0b00100000, 0, 0, 8, 0, 0, 0, 1, 0, 0, 0, 2] = .command (.ccInit (.fits 0x0000000100000002)) [] := by decide
theorem test_decode_ccSetup :
    decode ([0b00100001, 0, 0, 0x2C] ++ counting 32 ++ counting 12) =
      .command (.ccSetup (.fits ⟨key23, nonce23⟩)) [] := by decide
theorem test_decode_ccEnc : decode [0b00100010, 0, 0, 2, 1, 2] = .command (.ccEnc [1, 2]) [] := by decide
theorem test_decode_ccDec : decode [0b00100011, 0, 0, 0, 9] = .command (.ccDec []) [9] := by decide
theorem test_decode_ccFree : decode [0b00100100, 0, 0, 0] = .command (.ccFree (.fits ())) [] := by decide
theorem test_decode_ccQr :
    decode [0b00100101, 0, 0, 0x10, 0x11, 0x11, 0x11, 0x11, 0x04, 0x03, 0x02, 0x01, 0x43, 0x6F, 0x8D, 0x9B,
      0x67, 0x45, 0x23, 0x01] =
      .command (.ccQr (.fits ⟨0x11111111, 0x01020304, 0x9B8D6F43, 0x01234567⟩)) [] := by decide
theorem test_decode_rrInit : decode [0b00110000, 0, 0, 0] = .command (.rrInit (.fits ())) [] := by decide
theorem test_decode_rrUpdate : decode [0b00110001, 0, 0, 1, 0x61] = .command (.rrUpdate [0x61]) [] := by decide
theorem test_decode_rrFinal : decode [0b00110010, 0, 0, 0] = .command (.rrFinal (.fits ())) [] := by decide
theorem test_decode_rrFree : decode [0b00110100, 0, 0, 0] = .command (.rrFree (.fits ())) [] := by decide

/-- Illegal headers (R67, V38), the payload taken. -/
theorem test_decode_illegal :
    decode [0x17, 0, 0, 0] = .illegal .noSuchFunction 0x17 [] ∧ decode [0x40, 0, 0, 0] = .illegal .noSuchUnit 0x40 [] ∧
    decode [0xFF, 0, 0, 2, 0xAA, 0xBB, 0] = .illegal .noSuchUnit 0xFF [0] ∧
    decode [0x11, 1, 0, 2, 0x61, 0x62] = .illegal .reservedNonzero 0x11 [] ∧
    decode [0x33, 0, 0, 0] = .illegal .noSuchFunction 0x33 [] := by decide

/-- A length that is not legal selects the same command (R65); a command not wholly there is none yet. -/
theorem test_decode_length :
    decode [0x12, 0, 0, 1, 0] = .command (.crcFinal (.wrongLength [0])) [] ∧
    decode [0x16, 0, 0, 0] = .command (.crcRdtab (.wrongLength [])) [] ∧
    decode [0x11, 0, 0, 2, 0x61] = .incomplete ∧ decode [0x11, 0, 0] = .incomplete := by decide

theorem test_encode_qr : encode (.ccQr (.fits ⟨0x11111111, 0x01020304, 0x9B8D6F43, 0x01234567⟩)) =
    [0x25, 0, 0, 0x10, 0x11, 0x11, 0x11, 0x11, 0x04, 0x03, 0x02, 0x01, 0x43, 0x6F, 0x8D, 0x9B, 0x67, 0x45, 0x23, 0x01] := by
  decide

/-- The table's words, numbered as spec/opcode_table.json numbers them. -/
theorem test_table_words : decodeTableWord 32 0x10000000 = some (.crcInit (.wrongLength [])) ∧
    decodeTableWord 32 0x34000000 = some (.rrFree (.fits ())) ∧ decodeTableWord 32 0x33000000 = none ∧
    decodeTableWord 40 0x8016000001 = some (.crcRdtab (.fits 0x80)) := by decide

/-- The next step runs the command placed. -/
theorem test_with_fetch_word : (after (step (State.reset.withFetchWord 32 0x30000000))).rr = rrInitial params := by
  decide +kernel

/-! ### CRC: V1, V5, V6, V7, V10, V16, V17, V18, V19 -/

theorem test_crc_init : (configureCrc crc64).rpoly = 0x6263CDAFD34C11D0 ∧ (configureCrc crc64).s = 0xE70BE41C4AD4CA50 ∧
    (after (execCrcInit (.fits crc64) State.reset)).crc.phase = .ready := by decide
theorem test_crc_init_refused :
    answer (execCrcInit (.fits ⟨0, 0x04C11DB7, 0, 0⟩) (crcReady crc32 0x340BC6D9)) = some ⟨0x10, .errConfig, []⟩ ∧
    (after (execCrcInit (.fits ⟨65, 1, 0, 0⟩) (crcReady crc32 0x340BC6D9))).crc.phase = .idle ∧
    (after (execCrcInit (.fits ⟨65, 1, 0, 0⟩) (crcReady crc32 0x340BC6D9))).crc.s = 0 := by decide
theorem test_crc_update_step :
    (after (execCrcUpdate [0x68] (crcReady crc64 0xE70BE41C4AD4CA50))).crc.s = 0x1215BDE0EFC49399 := by decide +kernel
theorem test_crc_update_message :
    (after (execCrcUpdate [0x31, 0x32, 0x33, 0x34, 0x35, 0x36, 0x37, 0x38, 0x39] (crcReady crc5 0x1F))).crc.s = 0x06 := by
  decide +kernel
theorem test_crc_final : answer (execCrcFinal (.fits ()) (crcReady crc64 0x43D928AD0E94D838)) =
    some ⟨0x12, .ok, bytesOf 8 0xE6270167ECBABD5B⟩ := by decide
theorem test_crc_final_short : answer (execCrcFinal (.fits ()) (crcReady crc32 0x340BC6D9)) =
    some ⟨0x12, .ok, bytesOf 8 0xCBF43926⟩ := by decide
theorem test_crc_finaln : answer (execCrcFinaln (.fits ()) (crcReady crc32 0x340BC6D9)) =
    some ⟨0x13, .ok, bytesOf 4 0xCBF43926⟩ := by decide
theorem test_crc_finaln_refused : answer (execCrcFinaln (.fits ()) (crcReady crc5 0x06)) = some ⟨0x13, .errConfig, []⟩ ∧
    answer (execCrcFinaln (.fits ()) (crcDone crc5)) = some ⟨0x13, .errPhase, []⟩ := by decide
theorem test_crc_free : (after (execCrcFree (.fits ()) (crcDone crc32))).crc.rpoly = 0 ∧
    tableAt (after (execCrcFree (.fits ()) (crcDone crc32))).crc.tab 1 = 0 := by decide
theorem test_crc_reflect : answer (execCrcReflect (.fits ⟨32, 0x12345678⟩) State.reset) =
      some ⟨0x15, .ok, bytesOf 8 0x1E6A2C48⟩ ∧
    answer (execCrcReflect (.fits ⟨4, 0x1F0⟩) State.reset) = some ⟨0x15, .ok, bytesOf 8 0⟩ := by decide
theorem test_crc_reflect_bounds : answer (execCrcReflect (.fits ⟨65, 1⟩) State.reset) = some ⟨0x15, .errConfig, []⟩ ∧
    answer (execCrcReflect (.fits ⟨64, 0x8000000000000000⟩) State.reset) = some ⟨0x15, .ok, bytesOf 8 1⟩ := by
  decide
theorem test_crc_rdtab : answer (execCrcRdtab (.fits 1) (crcDone crc32)) = some ⟨0x16, .ok, bytesOf 8 0x77073096⟩ := by
  decide +kernel
theorem test_crc_rdtab_idle : answer (execCrcRdtab (.fits 0) State.reset) = some ⟨0x16, .errNotInitialized, []⟩ := by
  decide

/-! ### ChaCha20: V20 to V25, V29 -/

theorem test_cc_init : (ccUnkeyed 7).cc.phase = .unkeyed ∧ (ccUnkeyed 7).cc.ctr0 = 7 ∧ (ccUnkeyed 7).cc.off = 64 := by
  decide
theorem test_cc_setup :
    (after (execCcSetup (.fits ⟨key23, nonce23⟩) (ccUnkeyed 0x0000000100000002))).cc.st =
      #v[0x61707865, 0x3320646E, 0x79622D32, 0x6B206574, 0x03020100, 0x07060504, 0x0B0A0908, 0x0F0E0D0C,
         0x13121110, 0x17161514, 0x1B1A1918, 0x1F1E1D1C, 0x00000002, 0x03020101, 0x07060504, 0x0B0A0908] := by
  decide
theorem test_cc_setup_refused : answer (execCcSetup (.fits ⟨key23, nonce23⟩) ccStreaming) = some ⟨0x21, .errPhase, []⟩ ∧
    answer (execCcSetup (.wrongLength (List.replicate 43 0)) (ccUnkeyed 0)) = some ⟨0x21, .errLength, []⟩ := by
  decide
theorem test_cc_enc_block : outOf (execCcEnc (List.replicate 64 0) (ccKeyed 0)) =
    bytesOf 64 0x76B8E0ADA0F13D90405D6AE55386BD28BDD219B8A08DED1AA836EFCC8B770DC7DA41597C5157488D7724E03FB8D84A376A43B8F41518A11CC387B669B2EE6586 := by
  decide +kernel
theorem test_cc_enc_carry : outOf (execCcEnc [0] (ccKeyed23 0x00000000FFFFFFFF)) = [0x14] ∧
    (after (execCcEnc [0] (ccKeyed23 0x00000000FFFFFFFF))).cc.st[12] = 0 ∧
    (after (execCcEnc [0] (ccKeyed23 0x00000000FFFFFFFF))).cc.st[13] = 0x03020101 := by decide +kernel
theorem test_cc_dec : outOf (execCcDec (bytesOf 14 0x714E8570A2E074FC4D04EBD10A0E) (ccKeyed23 0)) =
    [0x61, 0x74, 0x74, 0x61, 0x63, 0x6B, 0x20, 0x61, 0x74, 0x20, 0x64, 0x61, 0x77, 0x6E] := by decide +kernel
theorem test_cc_dec_unkeyed : answer (execCcDec [0x61] (ccUnkeyed 0)) = some ⟨0x23, .errNotInitialized, []⟩ := by
  decide
theorem test_cc_free : (after (execCcFree (.fits ()) ccStreaming)).cc = ChaCha.zero := by decide
theorem test_cc_qr : outOf (execCcQr (.fits ⟨0x11111111, 0x01020304, 0x9B8D6F43, 0x01234567⟩) State.reset) =
    bytesOf 16 0xF4922AEACEF81CCB2E478145BBC48158 := by decide
theorem test_cc_qr_wrap : quarterRound ⟨0xFFFFFFFF, 0xFFFFFFFF, 0xFFFFFFFF, 0xFFFFFFFF⟩ =
    ⟨0xF0000FFD, 0x88790878, 0x0110FDEF, 0x010FFDF0⟩ := by decide
theorem test_nonce_combine : ∀ how ∈ [(NonceCombine.add, (2 : Word32)), (.xor, 0), (.or, 1)],
    combine how.1 1 1 = how.2 := by decide

/-! ### RoundRobin256: V30, V33, V34, V36 -/

theorem test_rr_init : (after (execRrInit (.fits ()) State.reset)).rr.outsz = 32 ∧
    (after (execRrInit (.fits ()) State.reset)).rr.cc.off = 64 := by decide
theorem test_rr_update_block :
    (after (execRrUpdate (counting 64) rrFresh)).rr.acc.toList =
      bytesOf 44 0xE24C86B6FE86B1506979F7C5A4353F7523105012B498FB0DB02FF5D7976A13D8FA607B5F75726EAA5F0DCA14 ∧
    (after (execRrUpdate (counting 64) rrFresh)).rr.len = 64 := by decide +kernel
theorem test_rr_update_idle : answer (execRrUpdate [0x61] State.reset) = some ⟨0x31, .errNotInitialized, []⟩ := by
  decide
theorem test_rr_final_empty : outOf (execRrFinal (.fits ()) rrFresh) =
    bytesOf 32 0xFB1BCE72E485161D77E7FDDF3B97244CE0D2BE9EC0F920631C29D4C952830B83 := by decide +kernel
theorem test_rr_final_seven :
    outOf (execRrFinal (.fits ())
      { rrFresh with rr := absorb rrFresh.rr [0x61, 0x62, 0x63, 0x64, 0x65, 0x66, 0x67] }) =
    bytesOf 32 0x2F17443F44A5205C536ABEB7E5D3AA68EC08A23430AAFD12DB68A76E0E1A23A9 := by decide +kernel
theorem test_rr_free : (after (execRrFree (.fits ()) rrDone)).rr = RrUnit.zero := by decide
/-- V40: the fill offset and the byte swap. -/
theorem test_rr_parameters :
    rrDigest { params with rrPadFillOffset := 1 } (rrInitial params) =
      bytesOf 32 0x50AE871036544C39C06CD5148576098B66449BC0999DE8B5A04C0987CA44B626 ∧
    rrDigest { params with rrLenBswap := false }
        (absorb (rrInitial params) [0x61, 0x62, 0x63, 0x64, 0x65, 0x66, 0x67]) =
      bytesOf 32 0xEEFC7F12108E9C91EF913B69C00B4D3C40811D6678F362AF759462C4C8C95BF8 := by decide +kernel

/-! ### SYS, responses, port, text: V37, V38, R62, R70, R71, R180 -/

theorem test_sys_nop : answer (execSysNop (.fits ()) (crcDone crc5)) = some ⟨0x00, .ok, []⟩ ∧
    answer (execSysNop (.wrongLength [0]) State.reset) = some ⟨0x00, .errLength, []⟩ := by decide
theorem test_sys_reset : (after (execSysReset (.fits ()) { rrFresh with crc := configureCrc crc5 })).crc.width = 0 ∧
    (after (execSysReset (.fits ()) rrFresh)).rr = RrUnit.zero := by decide
theorem test_response_bytes :
    Response.bytes ⟨0x13, .ok, bytesOf 4 0xCBF43926⟩ = [0x13, 0, 0, 4, 0xCB, 0xF4, 0x39, 0x26] ∧
    Response.bytes ⟨0xFF, .errUnsupported, []⟩ = [0xFF, 0x01, 0, 0] ∧
    Response.bytes ⟨0x12, .errLength, []⟩ = [0x12, 0x04, 0, 0] := by decide
theorem test_step_illegal :
    (after (step { State.reset with port := portOf [0xFF, 0, 0, 2, 0xAA, 0xBB, 0x14] })).responses =
      [⟨0xFF, .errUnsupported, []⟩] ∧
    (after (step { State.reset with port := portOf [0xFF, 0, 0, 2, 0xAA, 0xBB, 0x14] })).port = portOf [0x14] := by
  decide
theorem test_step_reset :
    (after (step { rrFresh with port := [.byte 0x31, .byte 0, .reset, .byte 0x14] })).rr = RrUnit.zero ∧
    (after (step { rrFresh with port := [.byte 0x31, .byte 0, .reset, .byte 0x14] })).port = [.byte 0x14] := by
  decide
theorem test_step_reset_in_progress :
    (after (step { rrFresh with port := [.byte 0x34, .byte 0, .byte 0, .byte 0, .resetInProgress, .byte 0x14] })) =
      { State.reset with port := [.byte 0x14], responses := rrFresh.responses } ∧
    (after (step { rrFresh with port := [.byte 0x34, .byte 0, .byte 0, .byte 0, .reset] })).responses =
      rrFresh.responses ++ [⟨0x34, .ok, []⟩] := ⟨rfl, rfl⟩
theorem test_assemble_line :
    assemble "CRC.REFLECT 32, 0x04C11DB7 ; a comment" = some [.crcReflect (.fits ⟨32, 0x04C11DB7⟩)] ∧
    assemble "CC.ENC zeros(3)" = some [.ccEnc [0, 0, 0]] ∧ assemble "CRC.UPDATE x\"00fF\"" = some [.crcUpdate [0, 0xFF]] ∧
    assemble "RR.UPDATE \"ab\"\nRR.FINAL" = some [.rrUpdate [0x61, 0x62], .rrFinal (.fits ())] ∧
    assemble "CRC.RDTAB 256" = none := by decide
theorem test_assemble_pseudo : assemble "RR.HASH \"a\"" =
    some [.rrInit (.fits ()), .rrUpdate [0x61], .rrFinal (.fits ()), .rrFree (.fits ())] := by decide
theorem test_response_text : Response.text ⟨0x13, .ok, [0xCB, 0x0A]⟩ = "-> OK x\"CB0A\"" ∧
    Response.text ⟨0x13, .errConfig, []⟩ = "-> ERR_CONFIG" := by decide

/-! ### Witnesses: concrete states and operands that meet the hypotheses of each statement -/

/-- The CRC unit right after `CRC.INIT` with V5's configuration has the invariants of R23. -/
theorem crc32_inv : (configureCrc crc32).Inv where
  table _ := rfl
  config _ := by decide
  reflected _ := ⟨rfl, rfl⟩
  bound := ⟨by decide, by decide, by decide, fun i => by
    rw [show (configureCrc crc32).tab = buildTable (reflect crc32.poly 32) 32 from rfl, tableAt_buildTable]
    exact tableEntry_lt _ 32 i (by decide)⟩
  idleZero h := by cases h

theorem witness_StepKeepsCrcInvariants : ∃ s t : State, s.crc.Inv ∧ s.crc.phase = .ready ∧
    s.port = portOf [0x11, 0, 0, 1, 0x61] ∧ step s = .next t :=
  ⟨{ State.reset with crc := configureCrc crc32, port := portOf [0x11, 0, 0, 1, 0x61] }, _, crc32_inv, rfl, rfl, rfl⟩

/-- The instance of a CC unit that has taken one keystream byte. -/
theorem ccStreaming_cc : ccStreaming.cc = { blockNext (ccKeyed 0).cc with off := 1 } := by
  simp only [ccStreaming, cryptBytes]
  rw [cryptByte_used 0 rfl]

theorem witness_StepKeepsChaChaInvariants : ∃ s t : State, s.cc.Inv params ∧ s.cc.phase = .keystreaming ∧
    s.port = portOf [0x24, 0, 0, 0] ∧ step s = .next t := by
  refine ⟨{ ccStreaming with port := portOf [0x24, 0, 0, 0] }, _, ?_, ?_, rfl, rfl⟩
  · show ccStreaming.cc.Inv params
    rw [ccStreaming_cc]
    exact ⟨fun h => (by cases h), fun h => (by cases h), fun h => (by cases h), fun _ => ⟨0, rfl, rfl, by simp⟩⟩
  · show ccStreaming.cc.phase = _
    rw [ccStreaming_cc]
    rfl

/-- A `Keyed` instance has the invariants of R26. -/
theorem keyed_inv (ctr : Word64) (k : Vector Byte 32) (n : Vector Byte 12) :
    (instSetup params (instInit ctr) k n).Inv params :=
  ⟨fun h => (by cases h), fun h => (by cases h), fun _ => ⟨rfl, rfl⟩, fun h => (by cases h)⟩

theorem witness_StepKeepsRoundRobinInvariants : ∃ s t : State, s.rr.Inv params ∧ s.rr.phase = .absorbing ∧
    s.port = portOf [0x34, 0, 0, 0] ∧ step s = .next t :=
  ⟨{ rrFresh with port := portOf [0x34, 0, 0, 0] }, _,
    ⟨fun _ => ⟨rfl, rfl, rfl, rfl, rfl, 0, rfl, rfl, rfl⟩, fun h => (by cases h), fun h => (by cases h), keyed_inv _ _ _⟩,
    rfl, rfl, rfl⟩

/-- What may follow a command that runs to its end: nothing, a byte, a reset between commands. -/
theorem witness_StepPerformsDecodedCommand :
    decode [0x31, 0, 0, 1, 0x61] = .command (.rrUpdate [0x61]) [] ∧
    decode [0x12, 0, 0, 1, 0] = .command (.crcFinal (.wrongLength [0])) [] ∧
    ∀ later ∈ [([] : List PortItem), [.byte 0], [.reset, .resetInProgress]],
      later.head? ≠ some .resetInProgress := by decide

/-- Both ways to be illegal: a reserved byte of 1 or 255; opcodes beside the rows, of the first free unit, and the
last of all. -/
theorem witness_IllegalHeaderIsUnsupported :
    (([0x61, 0x62] : List Byte).length = Header.len 0x11010002 ∧ Header.rsv 0x11010002 ≠ 0) ∧
    (([] : List Byte).length = Header.len 0x00FF0000 ∧ Header.rsv 0x00FF0000 ≠ 0) ∧
    ([.reset] : List PortItem).head? ≠ some .resetInProgress ∧
    (Header.opc 0x17000000 = 0x17 ∧ Header.opc 0xFF000000 = 0xFF ∧ Header.opc 0x40000000 = 0x40) ∧
    ∀ o : Opcode, opcodeByte o ≠ 0x17 ∧ opcodeByte o ≠ 0x33 ∧ opcodeByte o ≠ 0x40 ∧ opcodeByte o ≠ 0xFF :=
  ⟨by decide, by decide, by decide, by decide, fun o => by cases o <;> decide⟩

/-- One byte too few and one too many. -/
theorem witness_IllegalLengthIsRefused :
    (Header.rsv 0x10000018 = 0 ∧ Header.opc 0x10000018 = opcodeByte .crcInit ∧ fixedLen .crcInit = some 25 ∧
      Header.len 0x10000018 = 24) ∧
    (Header.rsv 0x32000001 = 0 ∧ Header.opc 0x32000001 = opcodeByte .rrFinal ∧ fixedLen .rrFinal = some 0 ∧
      Header.len 0x32000001 = 1) ∧
    (Header.rsv 0x2100002D = 0 ∧ Header.opc 0x2100002D = opcodeByte .ccSetup ∧ fixedLen .ccSetup = some 44 ∧
      Header.len 0x2100002D = 45) ∧
    ([.byte 0] : List PortItem).head? ≠ some .resetInProgress := by decide

/-- Three bytes of a header; a payload one byte short; a whole command, with and without payload; a reset behind part
of a command and behind nothing. -/
theorem witness_IncompleteCommandWaitsOrIsAbandoned :
    ([0x11, 0, 0] : List Byte).length < 4 ∧ ([0x61] : List Byte).length < Header.len 0x11000002 ∧
    ([0x61, 0x62] : List Byte).length = Header.len 0x11000002 ∧ ([] : List Byte).length = Header.len 0x14000000 ∧
    frame [0x11, 0, 0, 2, 0x61] = none ∧ frame [] = none := by decide

theorem witness_DecodeOfEncodeIsTheCommand (data : List Byte) (h : data.length = 65535) :
    (Instr.rrUpdate data).wellFormed = true ∧ (Instr.ccSetup (.fits ⟨key23, nonce23⟩)).wellFormed = true ∧
    (Instr.sysNop (.wrongLength data)).wellFormed = true := by
  simp [Instr.wellFormed, dataWellFormed, Payload.wellFormed, legalLen, fixedLen, h]

theorem witness_EncodeOfDecodeIsTheBytes : decode [0x16, 0, 0, 1, 0xFF, 0x14] = .command (.crcRdtab (.fits 0xFF)) [0x14] ∧
    decode [0x16, 0, 0, 0] = .command (.crcRdtab (.wrongLength [])) [] := by decide

theorem witness_SpecCommandBytesDecode (data : List Byte) (h : data.length = 65535) :
    data.length ≤ 65535 ∧ ([] : List Byte).length ≤ 65535 := by simp [h]

/-- Four words of a column, the first and the last words, and a word beside them. -/
theorem witness_QuarterRoundIsTheStandardOne : ([0, 4, 8, 12] : List (Fin 16)).Nodup ∧
    ([3, 4, 9, 14] : List (Fin 16)).Nodup ∧ (15 : Fin 16) ∉ ([3, 4, 9, 14] : List (Fin 16)) := by decide

theorem witness_ResponseHeaderHoldsItsFields :
    (⟨0x22, .ok, List.replicate 65535 0⟩ : Response).out.length ≤ 65535 := by
  simp only [List.length_replicate, Nat.le_refl]

theorem witness_StatusMatrixHolds : legalLen .crcFinal (Instr.crcFinal (.fits ())).payload.length = true ∧
    (Instr.crcFinal (.fits ())).wellFormed = true ∧ legalLen .ccEnc (Instr.ccEnc [1]).payload.length = true ∧
    (Instr.ccEnc [1]).wellFormed = true := by decide

/-- A refusal that writes nothing, and the one that zeroes the CRC unit. -/
theorem witness_RefusedCommandWritesNoState :
    (∃ (t : State) (r : Response), exec (.crcUpdate [1]) State.reset = .next t ∧
      t.responses = State.reset.responses ++ [r] ∧ r.status = .errNotInitialized) ∧
    (∃ (t : State) (r : Response), exec (.crcInit (.fits ⟨65, 1, 0, 0⟩)) (crcReady crc32 1) = .next t ∧
      t.responses = (crcReady crc32 1).responses ++ [r] ∧ r.status = .errConfig ∧ t.crc = CrcUnit.zero) :=
  ⟨⟨_, _, rfl, rfl, rfl⟩, ⟨_, _, rfl, rfl, rfl, rfl⟩⟩

theorem witness_CommandWritesOnlyItsUnit : (∃ t, exec (.ccInit (.fits 1)) rrFresh = .next t) ∧
    (Instr.ccInit (.fits 1)).opcode ≠ .sysReset ∧ unitOf (.ccInit (.fits 1)) = 2 ∧
    unitOf (.crcFree (.fits ())) = 1 ∧ unitOf (.rrFree (.fits ())) = 3 ∧ unitOf (.sysNop (.fits ())) = 0 :=
  ⟨⟨_, rfl⟩, by decide, by decide, by decide, by decide, by decide⟩

/-- Two states that differ in every other unit. -/
theorem witness_UnitsDoNotInterfere :
    ((ccKeyed 1).crc = rrFresh.crc ∧ responsesOf 1 (ccKeyed 1).responses = responsesOf 1 rrFresh.responses) ∧
    ((crcReady crc32 1).cc = rrFresh.cc ∧ responsesOf 2 (crcReady crc32 1).responses = responsesOf 2 rrFresh.responses) ∧
    ((crcReady crc32 1).rr = (ccKeyed 1).rr ∧
      responsesOf 3 (crcReady crc32 1).responses = responsesOf 3 (ccKeyed 1).responses) :=
  ⟨⟨rfl, rfl⟩, ⟨rfl, rfl⟩, ⟨rfl, rfl⟩⟩

/-- The widths of R80, at both ends, with an index inside and one outside. -/
theorem witness_ReflectReversesLowBits : (64 : Nat) ≤ 64 ∧ (63 : Nat) < 64 ∧ (0 : Nat) ≤ 64 ∧ (0 : Nat) ≤ 5 := by decide

theorem witness_UpdateByteIndexesByLowByte :
    ((0x38 : Byte)).setWidth 64 = ((0xE70BE41C4AD4CA50 : Word64) ^^^ (0x68 : Byte).setWidth 64) &&& 0xFF#64 ∧
    ((0x01 : Byte)).setWidth 64 = ((0xFF : Word64) ^^^ (0xFE : Byte).setWidth 64) &&& 0xFF#64 ∧
    (0xFF : Word64).toNat < 256 := by decide

/-- Width 1 and width 64. -/
theorem witness_TableUpdateIsBitSerialDivision :
    (1 ≤ 1 ∧ 1 ≤ 64 ∧ (1 : Word64).toNat < 2 ^ 1) ∧
    (1 ≤ 64 ∧ 64 ≤ 64 ∧ (0xE70BE41C4AD4CA50 : Word64).toNat < 2 ^ 64) := by decide

theorem witness_CrcValuesStayBelowWidth : (1 ≤ 1 ∧ 1 ≤ 64 ∧ (0 : Word64).toNat < 2 ^ 1 ∧ (1 : Word64).toNat < 2 ^ 1) ∧
    (1 ≤ 64 ∧ 64 ≤ 64 ∧ (0xFFFFFFFFFFFFFFFF : Word64).toNat < 2 ^ 64) := by decide

/-- Widths 1, 64; 0, 65; polynomial 0. -/
theorem witness_CrcInitConfiguresOrZeroes :
    (∀ c ∈ [(⟨1, 1, 0, 0⟩ : CrcConfig), ⟨64, 1, 0, 0⟩], 1 ≤ c.width.toNat ∧ c.width.toNat ≤ 64 ∧ c.poly ≠ 0) ∧
    (∀ c ∈ [(⟨0, 1, 0, 0⟩ : CrcConfig), ⟨65, 1, 0, 0⟩, ⟨32, 0, 0, 0⟩],
      c.width.toNat = 0 ∨ 64 < c.width.toNat ∨ c.poly = 0) := by decide

/-- The three phases of the CRC unit. -/
theorem witness_CrcPhases : (crcReady crc32 1).crc.phase = .ready ∧ State.reset.crc.phase = .idle ∧
    (crcDone crc32).crc.phase = .finalized := ⟨rfl, rfl, rfl⟩

theorem witness_CrcUpdateFoldsBytesInOrder : (crcReady crc32 1).crc.phase = .ready ∧ State.reset.crc.phase = .idle ∧
    (crcDone crc32).crc.phase = .finalized := witness_CrcPhases

theorem witness_CrcFinalEmitsStateXorMask : (crcReady crc64 1).crc.phase = .ready ∧ State.reset.crc.phase = .idle ∧
    (crcDone crc64).crc.phase = .finalized := ⟨rfl, rfl, rfl⟩

/-- `Ready` at every native width, and at two that are not. -/
theorem witness_CrcFinalnEmitsNativeWidth :
    (∀ w ∈ [(8 : Byte), 16, 32, 64], (crcReady ⟨w, 1, 0, 0⟩ 0).crc.phase = .ready ∧
      (crcReady ⟨w, 1, 0, 0⟩ 0).crc.width.toNat = w.toNat) ∧
    (∀ w ∈ [(1 : Byte), 63], (crcReady ⟨w, 1, 0, 0⟩ 0).crc.phase = .ready ∧
      ¬((crcReady ⟨w, 1, 0, 0⟩ 0).crc.width.toNat = 8 ∨ (crcReady ⟨w, 1, 0, 0⟩ 0).crc.width.toNat = 16 ∨
        (crcReady ⟨w, 1, 0, 0⟩ 0).crc.width.toNat = 32 ∨ (crcReady ⟨w, 1, 0, 0⟩ 0).crc.width.toNat = 64)) ∧
    State.reset.crc.phase = .idle ∧ (crcDone crc5).crc.phase = .finalized := by decide

theorem witness_CrcFreeZeroesTheUnit : State.reset.crc.Inv ∧ State.reset.crc.phase = .idle :=
  ⟨⟨fun h => absurd rfl h, fun h => absurd rfl h, fun h => absurd rfl h,
    ⟨by decide, by decide, by decide, fun i => by simp [State.reset, CrcUnit.zero, tableAt]⟩, fun _ => rfl⟩, rfl⟩

theorem witness_CrcReflectEmitsReflection : (0 : Byte).toNat ≤ 64 ∧ (64 : Byte).toNat ≤ 64 ∧ 64 < (65 : Byte).toNat ∧
    64 < (255 : Byte).toNat := by decide

theorem witness_CrcRdtabEmitsTheEntry : (crcReady crc32 1).crc.phase = .ready ∧
    (crcDone crc32).crc.phase = .finalized ∧ State.reset.crc.phase = .idle := ⟨rfl, rfl, rfl⟩

theorem witness_EmptyMessageHasZeroDigest : 1 ≤ (1 : Byte).toNat ∧ (1 : Byte).toNat ≤ 64 ∧ 1 ≤ (64 : Byte).toNat ∧
    (64 : Byte).toNat ≤ 64 ∧ (1 : Word64) ≠ 0 := by decide

theorem witness_NativeWidthEnginesAgree : ∀ w ∈ [8, 16, 32, 64], (w = 8 ∨ w = 16 ∨ w = 32 ∨ w = 64) ∧
    (0x07 : Word64) ≠ 0 := by decide

/-- The four phases of the CC unit. -/
theorem witness_CcSetupLaysOutTheState : (ccUnkeyed 0xFFFFFFFFFFFFFFFF).cc.phase = .unkeyed ∧
    (ccKeyed 0).cc.phase = .keyed ∧ State.reset.cc.phase = .idle ∧ ccStreaming.cc.phase = .keystreaming :=
  ⟨rfl, rfl, rfl, by rw [ccStreaming_cc]; rfl⟩

theorem witness_CcEncAndDecDrawTheSameKeystream : (ccKeyed 0).cc.phase = .keyed ∧ (ccKeyed 0).cc.off = 64 ∧
    ccStreaming.cc.phase = .keystreaming ∧ State.reset.cc.phase = .idle ∧ (ccUnkeyed 0).cc.phase = .unkeyed :=
  ⟨rfl, rfl, by rw [ccStreaming_cc]; rfl, rfl, rfl⟩

/-- The window used up, its first byte, its last byte. -/
theorem witness_CryptBytesTakesOneWindowByteEach : (ccKeyed 0).cc.off = 64 ∧
    ({ (ccKeyed 0).cc with off := 0 } : ChaCha).off.val = (0 : Fin 64).val ∧
    ({ (ccKeyed 0).cc with off := 63 } : ChaCha).off.val = (63 : Fin 64).val ∧
    ([1, 2] : List Byte).length = ([3, 2] : List Byte).length ∧ ([1, 2] : List Byte)[1]? = ([3, 2] : List Byte)[1]? :=
  ⟨rfl, rfl, rfl, rfl, rfl⟩

theorem witness_KeystreamByteComesFromItsBlock : 0 < ([1] : List Byte).length ∧
    64 < (List.replicate 65 (0 : Byte)).length := by decide

/-- Two configurations with the same combined word: nonce word 1 with counter high half 0, and the reverse. -/
theorem witness_RunningCounterCountsBlocks : params.nonceCombine = .add ∧
    (let nonce : Vector Byte 12 := #v[1, 0, 0, 0, 0, 0, 0, 0, 0, 0, 0, 0]
     let nonce' : Vector Byte 12 := Vector.replicate 12 0
     let ctr : Word64 := 0x0000000000000005
     let ctr' : Word64 := 0x0000000100000005
     le32At nonce 0 (by decide) + ctr.extractLsb' 32 32 = le32At nonce' 0 (by decide) + ctr'.extractLsb' 32 32 ∧
     ctr.extractLsb' 0 32 = ctr'.extractLsb' 0 32 ∧ ∀ j : Fin 8, nonce[4 + j.val] = nonce'[4 + j.val]) := by
  decide

theorem witness_CryptIsChunkIndependent : (ccKeyed 0).cc.phase = .keyed ∧ ccStreaming.cc.phase = .keystreaming :=
  ⟨rfl, by rw [ccStreaming_cc]; rfl⟩

theorem witness_CcFreeZeroesTheUnit : State.reset.cc.Inv params ∧ State.reset.cc.phase = .idle :=
  ⟨⟨fun _ => rfl, fun h => (by cases h), fun h => (by cases h), fun h => (by cases h)⟩, rfl⟩

theorem witness_TransformEncryptsAndFolds : rrFresh.rr.cc.off = 64 := rfl

/-- A byte that does not complete the block, at both ends, and the one that does. -/
theorem witness_AbsorbFoldsOnThe64thByte : rrFresh.rr.idx.val < 63 ∧
    ({ rrFresh.rr with idx := 62 } : RrUnit).idx.val < 63 ∧ ({ rrFresh.rr with idx := 63 } : RrUnit).idx.val = 63 := by
  decide

theorem witness_RrUpdateAbsorbsTheBytes : rrFresh.rr.phase = .absorbing ∧ State.reset.rr.phase = .idle ∧
    rrDone.rr.phase = .finalized := ⟨rfl, rfl, rfl⟩

/-- Fill index 0: no byte below it, 63 above; fill index 63: the reverse. -/
theorem witness_PadAndFinalFoldAreAsGiven : (0 : Fin 64).val < (1 : Fin 64).val ∧ (62 : Fin 64).val < (63 : Fin 64).val := by
  decide

theorem witness_SqueezeTakesTheFirstBlock : params.rrLenBswap = true ∧
    ({ params with rrLenBswap := false } : Config).rrLenBswap = false := ⟨rfl, rfl⟩

theorem witness_RrFinalEmitsDigestAndClears : rrFresh.rr.phase = .absorbing ∧ State.reset.rr.phase = .idle ∧
    rrDone.rr.phase = .finalized := ⟨rfl, rfl, rfl⟩

theorem witness_RrFreeZeroesTheUnit : State.reset.rr.Inv params ∧ State.reset.rr.phase = .idle :=
  ⟨⟨fun h => (by cases h), fun _ => rfl, fun h => (by cases h), witness_CcFreeZeroesTheUnit.1⟩, rfl⟩

theorem witness_RrUpdateIsChunkIndependent : rrFresh.rr.phase = .absorbing := rfl

theorem witness_DigestIsTheSpecFunction : ([[0x61], [], [0x62, 0x63]] : List (List Byte)).flatten.length < 2 ^ 64 := by
  decide

theorem witness_CrcSumReleasesTheUnit : (1 ≤ crc5.width.toNat ∧ crc5.width.toNat ≤ 64 ∧ crc5.poly ≠ 0) ∧
    ((⟨0, 1, 0, 0⟩ : CrcConfig).width.toNat = 0) ∧ 64 < (⟨65, 1, 0, 0⟩ : CrcConfig).width.toNat := by decide

end Sys2Proof.Tests
end

section
/-! PROOFS. The reset state (R32 of spec/10_state.md): the registers of each zeroed unit, what each `FREE` answers,
and the state a run of one command ends in. -/

namespace Sys2Proof.Machine

/-! ### The zeroed units -/

@[simp] theorem State.reset_crc : State.reset.crc = CrcUnit.zero := rfl
@[simp] theorem State.reset_cc : State.reset.cc = ChaCha.zero := rfl
@[simp] theorem State.reset_rr : State.reset.rr = RrUnit.zero := rfl

/-- Every entry of the zeroed table is zero. -/
@[simp] theorem tableAt_zero (i : Byte) : tableAt CrcUnit.zero.tab i = 0 := Vector.getElem_replicate _

theorem CrcUnit.zero_registers :
    CrcUnit.zero.phase.code = 0 ∧ CrcUnit.zero.width = 0 ∧ CrcUnit.zero.poly = 0 ∧ CrcUnit.zero.init = 0 ∧
      CrcUnit.zero.xorout = 0 ∧ CrcUnit.zero.rpoly = 0 ∧ CrcUnit.zero.rinit = 0 ∧ CrcUnit.zero.s = 0 ∧
      ∀ i : Byte, tableAt CrcUnit.zero.tab i = 0 :=
  ⟨rfl, rfl, rfl, rfl, rfl, rfl, rfl, rfl, tableAt_zero⟩

theorem ChaCha.zero_fields :
    ChaCha.zero.phase.code = 0 ∧ (∀ j : Fin 32, ChaCha.zero.key[j] = 0) ∧ (∀ j : Fin 12, ChaCha.zero.nonce[j] = 0) ∧
      ChaCha.zero.ctr0 = 0 ∧ (∀ j : Fin 16, ChaCha.zero.st[j] = 0) ∧ (∀ j : Fin 64, ChaCha.zero.ks[j] = 0) ∧
      ChaCha.zero.off = 0 :=
  ⟨rfl, fun j => Vector.getElem_replicate j.isLt, fun j => Vector.getElem_replicate j.isLt, rfl,
    fun j => Vector.getElem_replicate j.isLt, fun j => Vector.getElem_replicate j.isLt, rfl⟩

/-- The registers of the RR unit beside its instance, which is `ChaCha.zero`. -/
theorem RrUnit.zero_registers :
    RrUnit.zero.phase.code = 0 ∧ (∀ j : Fin 44, RrUnit.zero.acc[j] = 0) ∧ (∀ j : Fin 64, RrUnit.zero.blk[j] = 0) ∧
      RrUnit.zero.idx = 0 ∧ RrUnit.zero.len = 0 ∧ RrUnit.zero.outsz = 0 :=
  ⟨rfl, fun j => Vector.getElem_replicate j.isLt, fun j => Vector.getElem_replicate j.isLt, rfl, rfl, rfl⟩

/-! ### The three `FREE` commands (R88, R114, R138) -/

theorem exec_crcFree_fits (s : State) : exec (.crcFree (.fits ())) s =
    .next ((s.withCrc CrcUnit.zero).respond ⟨opcodeByte .crcFree, .ok, []⟩) := rfl

theorem exec_ccFree_fits (s : State) : exec (.ccFree (.fits ())) s =
    .next ((s.withCc ChaCha.zero).respond ⟨opcodeByte .ccFree, .ok, []⟩) := rfl

theorem exec_rrFree_fits (s : State) : exec (.rrFree (.fits ())) s =
    .next ((s.withRr RrUnit.zero).respond ⟨opcodeByte .rrFree, .ok, []⟩) := rfl

/-! ### Performing commands in order -/

@[simp] theorem performAll_nil (s : State) : performAll [] s = s := rfl

/-- A command that answers a next state hands that state to the commands after it. -/
theorem performAll_cons_of_next {i : Instr} {s t : State} (h : exec i s = .next t) (is : List Instr) :
    performAll (i :: is) s = performAll is t := by
  simp [performAll, h]

/-! ### The obligation -/

/-- Settles O1: reset holds the zeroed units, register by register, and each `FREE` puts its unit's zero in place. -/
theorem resetLeavesEveryRegisterZero : Obligations.ResetLeavesEveryRegisterZero := by
  unfold Obligations.ResetLeavesEveryRegisterZero
  refine ⟨CrcUnit.zero_registers, ?_, RrUnit.zero_registers, fun s => ⟨?_, ?_, ?_⟩⟩
  · intro c hc
    have hzero : c = ChaCha.zero := by simpa [RrUnit.zero] using hc
    exact hzero ▸ ChaCha.zero_fields
  · simp [performAll_cons_of_next (exec_crcFree_fits s)]
  · simp [performAll_cons_of_next (exec_ccFree_fits s)]
  · simp [performAll_cons_of_next (exec_rrFree_fits s)]

end Sys2Proof.Machine
end

section
/-! PROOFS. Selecting and decoding (R64, R65, R72 of spec/30_encoding.md): the row a header selects, the command a row's
header and payload decode to, and which payload bytes each operand is made of. -/

namespace Sys2Proof.Machine

/-! ### The row a header selects (R65) -/

/-- A row that is found has the header's two fields. -/
theorem fields_of_selectOpcode {h : Header} {o : Opcode} (hs : selectOpcode h = some o) :
    h.opc = opcodeByte o ∧ h.rsv = 0 := by
  have hfound := List.find?_some hs
  exact (selectMask_iff h (opcodeByte o)).1 (beq_iff_eq.1 hfound)

/-- The search of the opcode map finds a row exactly when the header's fields are that row's: no two rows share an
opcode, so the first match is the only one. -/
theorem selectOpcode_eq_some_iff (h : Header) (o : Opcode) :
    selectOpcode h = some o ↔ h.opc = opcodeByte o ∧ h.rsv = 0 := by
  refine ⟨fields_of_selectOpcode, fun ⟨hopc, hrsv⟩ => ?_⟩
  cases hs : selectOpcode h with
  | none =>
    have hmask := (selectMask_iff h (opcodeByte o)).2 ⟨hopc, hrsv⟩
    exact absurd (beq_iff_eq.2 hmask) (List.find?_eq_none.1 hs o (mem_allOpcodes o))
  | some o' =>
    obtain ⟨hopc', -⟩ := fields_of_selectOpcode hs
    rw [opcodeByte_injective o' o (hopc'.symm.trans hopc)]

/-- Settles O10: the map is read off, and the mask condition says the same of the header as its fields. -/
theorem headerSelectsItsRow : Obligations.HeaderSelectsItsRow := by
  unfold Obligations.HeaderSelectsItsRow
  refine ⟨by decide, mem_allOpcodes, fun h o => ⟨selectOpcode_eq_some_iff h o, ?_⟩⟩
  rw [selectMask_iff]
  exact selectOpcode_eq_some_iff h o

/-! ### Decoding a row's header and payload (R60, R63, R72) -/

/-- The byte image of a header: its opcode, its middle byte, and the two bytes of `LEN`, high byte first. -/
theorem headerBytes_mkHeader (o m : Byte) (n : Nat) :
    headerBytes (mkHeader o m n) = [o, m, BitVec.ofNat 8 (n / 256), BitVec.ofNat 8 n] := by
  have hlen : BitVec.ofNat 16 n = BitVec.ofNat 8 (n / 256) ++ BitVec.ofNat 8 n := by
    apply BitVec.eq_of_toNat_eq
    rw [BitVec.toNat_append, ← Nat.shiftLeft_add_eq_or_of_lt (BitVec.ofNat 8 n).isLt, Nat.shiftLeft_eq]
    simp only [BitVec.toNat_ofNat]
    omega
  have hjoin : mkHeader o m n = headerOfBytes o m (BitVec.ofNat 8 (n / 256)) (BitVec.ofNat 8 n) := by
    rw [mkHeader, hlen, headerOfBytes, BitVec.append_assoc (x₁ := o ++ m), BitVec.cast_eq]
  rw [hjoin, headerBytes_headerOfBytes]

/-- A header that selects a row, its payload, and anything after them. -/
theorem decode_of_selectOpcode {h : Header} {o : Opcode} {p : List Byte} (rest : List Byte)
    (hs : selectOpcode h = some o) (hp : p.length = h.len) :
    decode (headerBytes h ++ (p ++ rest)) = .command (instrOf o p) rest := by
  simp [decode, frame_of_command h p rest hp, decodeCommand, hs]

/-- The four header bytes of a row in front of any payload that fits `LEN`. -/
theorem decode_row (o : Opcode) (p : List Byte) (hp : p.length ≤ 65535) :
    decode ([opcodeByte o, 0, BitVec.ofNat 8 (p.length / 256), BitVec.ofNat 8 p.length] ++ p) =
      .command (instrOf o p) [] := by
  have hs : selectOpcode (mkHeader (opcodeByte o) 0 p.length) = some o :=
    (selectOpcode_eq_some_iff _ _).2 ⟨mkHeader_opc _ _ _, mkHeader_rsv _ _ _⟩
  have hd := decode_of_selectOpcode [] hs (mkHeader_len _ _ _ hp).symm
  rwa [headerBytes_mkHeader, List.append_nil] at hd

/-- A payload of the layout's own length is cut into its operands. -/
@[simp] theorem cutPayload_toList {α : Type} {n : Nat} (f : Vector Byte n → α) (p : Vector Byte n) :
    cutPayload n f p.toList = .fits (f p) := by
  exact dif_pos p.length_toList

/-- A row of fixed layout with a payload of its legal length `n`: the command `mk` with the operands `f` cuts. -/
theorem decode_operands {α : Type} {n : Nat} (o : Opcode) (mk : Payload α → Instr) (f : Vector Byte n → α)
    (hrow : ∀ p, instrOf o p = mk (cutPayload n f p)) (hn : n ≤ 65535) (p : Vector Byte n) :
    decode ([opcodeByte o, 0, BitVec.ofNat 8 (n / 256), BitVec.ofNat 8 n] ++ p.toList) =
      .command (mk (.fits (f p))) [] := by
  have hd := decode_row o p.toList (by simpa using hn)
  rwa [Vector.length_toList, hrow, cutPayload_toList] at hd

/-- A row whose one legal `LEN` is 0, with no payload. -/
theorem decode_noPayload (o : Opcode) (mk : Payload Unit → Instr)
    (hrow : ∀ p, instrOf o p = mk (cutPayload 0 (fun _ => ()) p)) :
    decode [opcodeByte o, 0, 0, 0] = .command (mk (.fits ())) [] :=
  decode_operands o mk (fun _ => ()) hrow (by decide) #v[]

/-! ### The bytes of each operand (R41, R42, R64) -/

theorem slice_getElem? {m : Nat} (p : Vector Byte m) (a n k : Nat) (hk : k < n) (ha : a + n ≤ m) :
    (slice p a n)[k]? = some p[a + k] := by
  simp [slice, hk, show a + k < m by omega]

/-- A number cut at offset `a` has the payload's bytes, most significant first. -/
theorem fromBE_slice_byte {m : Nat} (p : Vector Byte m) (a : Nat) (ha : a + 8 ≤ m) (k : Fin 8) :
    (fromBE (slice p a 8)).extractLsb' (56 - 8 * k.val) 8 = p[a + k.val] := by
  apply Option.some.inj
  rw [← be64_getElem? _ _ k.isLt, be64_fromBE _ (slice_length p a 8 ha), slice_getElem? p a 8 k.val k.isLt ha]

/-- A word cut at offset `a` has the payload's bytes, least significant first. -/
theorem le32At_byte {m : Nat} (p : Vector Byte m) (a : Nat) (ha : a + 3 < m) (k : Fin 4) :
    (le32At p a ha).extractLsb' (8 * k.val) 8 = p[a + k.val] := by
  have hbytes : toLE32 (le32At p a ha) = [p[a], p[a + 1], p[a + 2], p[a + 3]] := toLE32_le32 _ _ _ _
  simp only [toLE32_list, List.cons.injEq] at hbytes
  obtain ⟨h0, h1, h2, h3, -⟩ := hbytes
  match k with
  | 0 => exact h0
  | 1 => exact h1
  | 2 => exact h2
  | 3 => exact h3

theorem cutCounter_byte (p : Vector Byte 8) (k : Fin 8) :
    (cutCounter p).extractLsb' (56 - 8 * k.val) 8 = p[k.val] := by
  simpa only [cutCounter, Nat.zero_add] using fromBE_slice_byte p 0 (by decide) k

theorem cutKeyNonce_key (p : Vector Byte 44) (j : Fin 32) : (cutKeyNonce p).key[j.val] = p[j.val] := by
  simp [cutKeyNonce]

theorem cutKeyNonce_nonce (p : Vector Byte 44) (j : Fin 12) : (cutKeyNonce p).nonce[j.val] = p[32 + j.val] := by
  simp [cutKeyNonce]

theorem cutQrWords_a (p : Vector Byte 16) (k : Fin 4) : (cutQrWords p).a.extractLsb' (8 * k.val) 8 = p[k.val] := by
  simpa only [cutQrWords, Nat.zero_add] using le32At_byte p 0 (by decide) k

/-- Settles O13: `decode_operands` and `decode_row` give each row's command, and the byte lemmas of this section say
where each operand was cut. -/
theorem specCommandBytesDecode : Obligations.SpecCommandBytesDecode := by
  unfold Obligations.SpecCommandBytesDecode
  refine ⟨fun p => ?crcInit, fun p => ?crcReflect, fun b => ?crcRdtab, fun p => ?ccInit, fun p => ?ccSetup,
    fun p => ?ccQr, fun data hlen => ?data, ?noPayload, ?programs⟩
  case crcInit =>
    exact ⟨cutCrcConfig p, decode_operands .crcInit .crcInit cutCrcConfig (fun _ => rfl) (by decide) p, rfl, fun k =>
      ⟨fromBE_slice_byte p 1 (by decide) k, fromBE_slice_byte p 9 (by decide) k, fromBE_slice_byte p 17 (by decide) k⟩⟩
  case crcReflect =>
    exact ⟨cutReflectArgs p, decode_operands .crcReflect .crcReflect cutReflectArgs (fun _ => rfl) (by decide) p, rfl,
      fromBE_slice_byte p 1 (by decide)⟩
  case crcRdtab => exact decode_operands .crcRdtab .crcRdtab cutIndex (fun _ => rfl) (by decide) #v[b]
  case ccInit =>
    exact ⟨cutCounter p, decode_operands .ccInit .ccInit cutCounter (fun _ => rfl) (by decide) p, cutCounter_byte p⟩
  case ccSetup =>
    exact ⟨cutKeyNonce p, decode_operands .ccSetup .ccSetup cutKeyNonce (fun _ => rfl) (by decide) p,
      cutKeyNonce_key p, cutKeyNonce_nonce p⟩
  case ccQr =>
    exact ⟨cutQrWords p, decode_operands .ccQr .ccQr cutQrWords (fun _ => rfl) (by decide) p, fun k =>
      ⟨cutQrWords_a p k, le32At_byte p 4 (by decide) k, le32At_byte p 8 (by decide) k, le32At_byte p 12 (by decide) k⟩⟩
  case data =>
    exact ⟨decode_row .crcUpdate data hlen, decode_row .ccEnc data hlen, decode_row .ccDec data hlen,
      decode_row .rrUpdate data hlen⟩
  case noPayload =>
    exact ⟨decode_noPayload .sysNop .sysNop fun _ => rfl, decode_noPayload .sysReset .sysReset fun _ => rfl,
      decode_noPayload .crcFinal .crcFinal fun _ => rfl, decode_noPayload .crcFinaln .crcFinaln fun _ => rfl,
      decode_noPayload .crcFree .crcFree fun _ => rfl, decode_noPayload .ccFree .ccFree fun _ => rfl,
      decode_noPayload .rrInit .rrInit fun _ => rfl, decode_noPayload .rrFinal .rrFinal fun _ => rfl,
      decode_noPayload .rrFree .rrFree fun _ => rfl⟩
  case programs => decide

end Sys2Proof.Machine
end

section
/-! PROOFS. The CRC commands (R83 to R90 of spec/40_crc.md): the table index of one update, the emitted bytes at a
native width, and what each command answers in each phase. -/

namespace Sys2Proof.Machine

/-! ### The table index (R83) -/

theorem setWidth_and_lowByte (v : Word64) : (v &&& 0xFF#64).setWidth 8 = v.setWidth 8 := by
  rw [BitVec.setWidth_and, show (0xFF#64).setWidth 8 = BitVec.allOnes 8 by decide, BitVec.and_allOnes]

theorem ushiftRight_eight_of_lt {v : Word64} (h : v.toNat < 256) : v >>> 8 = 0 := by
  apply BitVec.eq_of_toNat_eq
  rw [BitVec.toNat_ushiftRight, Nat.shiftRight_eq_div_pow]
  exact Nat.div_eq_of_lt h

/-- Settles O24: the index is the low byte of `S ^ b` however it is written, and a short state is shifted out whole. -/
theorem updateByteIndexesByLowByte : Obligations.UpdateByteIndexesByLowByte := by
  intro tab s b i hi
  have hindex : (s ^^^ b.setWidth 64).setWidth 8 = i := by
    rw [← setWidth_and_lowByte, ← hi, BitVec.setWidth_setWidth_of_le _ (by decide), BitVec.setWidth_eq]
  have hupdate : updateByte tab s b = tableAt tab i ^^^ (s >>> 8) := by rw [updateByte, hindex]
  refine ⟨hupdate, fun hs => ?_⟩
  rw [hupdate, ushiftRight_eight_of_lt hs]
  exact BitVec.xor_zero

/-! ### Emitted bytes at a native width (R87) -/

/-- A byte that lies below the mask's width is not changed by the mask. -/
theorem extract_and_mask (v : Word64) (w a : Nat) (hw : w ≤ 64) (ha : a + 8 ≤ w) :
    (v &&& mask w).extractLsb' a 8 = v.extractLsb' a 8 := by
  apply BitVec.eq_of_getLsbD_eq
  intro i hi
  simp [mask_getLsbD w _ hw, show a + i < w by omega]

/-- The bytes of the low `8n` bits are the last `n` of the eight. -/
theorem beBytes_and_mask (v : Word64) (n : Nat) (hn : n ≤ 8) :
    beBytes n (v &&& mask (8 * n)) = (be64 v).drop (8 - n) := by
  apply List.ext_getElem?
  intro k
  rw [List.getElem?_drop]
  by_cases hk : k < n
  · rw [beBytes_getElem? _ _ _ hk, be64_getElem? _ _ (by omega), extract_and_mask _ _ _ (by omega) (by omega),
      show 8 * (n - 1 - k) = 56 - 8 * (8 - n + k) by omega]
  · rw [List.getElem?_eq_none (by rw [beBytes_length]; omega), List.getElem?_eq_none (by rw [be64_length]; omega)]

theorem nativeBytes_of_native {w : BitVec 7} (h : w.toNat = 8 ∨ w.toNat = 16 ∨ w.toNat = 32 ∨ w.toNat = 64) :
    nativeBytes w = some (w.toNat / 8) := by
  rcases h with h | h | h | h <;> simp [nativeBytes, h]

theorem nativeBytes_of_not_native {w : BitVec 7}
    (h : ¬(w.toNat = 8 ∨ w.toNat = 16 ∨ w.toNat = 32 ∨ w.toNat = 64)) : nativeBytes w = none := by
  unfold nativeBytes
  split <;> simp_all

/-! ### The phase check (R176) -/

section
variable {o : Opcode} {s : State} {r : Result}

theorem whenOk_crcStream_ready (h : s.crc.phase = .ready) : whenOk o (crcStreamStatus s.crc.phase) s r = r := by
  rw [h]; rfl

theorem whenOk_crcStream_idle (h : s.crc.phase = .idle) :
    whenOk o (crcStreamStatus s.crc.phase) s r = raise o .errNotInitialized s := by
  rw [h]; rfl

theorem whenOk_crcStream_finalized (h : s.crc.phase = .finalized) :
    whenOk o (crcStreamStatus s.crc.phase) s r = raise o .errPhase s := by
  rw [h]; rfl

theorem whenOk_crcRead (h : s.crc.phase = .ready ∨ s.crc.phase = .finalized) :
    whenOk o (crcReadStatus s.crc.phase) s r = r := by
  rcases h with h | h <;> rw [h] <;> rfl

theorem whenOk_crcRead_idle (h : s.crc.phase = .idle) :
    whenOk o (crcReadStatus s.crc.phase) s r = raise o .errNotInitialized s := by
  rw [h]; rfl

end

/-! ### CRC.INIT (R84) -/

theorem exec_crcInit_legal {c : CrcConfig} (s : State) (h : legalConfig c = true) :
    exec (.crcInit (.fits c)) s = complete .crcInit [] (s.withCrc (configureCrc c)) :=
  if_pos h

theorem exec_crcInit_illegal {c : CrcConfig} (s : State) (h : ¬ legalConfig c = true) :
    exec (.crcInit (.fits c)) s = raise .crcInit .errConfig (s.withCrc CrcUnit.zero) :=
  if_neg h

/-- A legal width fits the seven bits of `CRC.WIDTH`. -/
theorem configureCrc_width {c : CrcConfig} (h : c.width.toNat ≤ 64) :
    (configureCrc c).width.toNat = c.width.toNat := by
  rw [configureCrc, BitVec.toNat_setWidth]
  exact Nat.mod_eq_of_lt (by omega)

/-- Settles O27: the two clauses are the two values of `legalConfig`. -/
theorem crcInitConfiguresOrZeroes : Obligations.CrcInitConfiguresOrZeroes := by
  intro s c
  constructor
  · intro hpos hle hpoly
    have hlegal : legalConfig c = true := (legalConfig_iff c).2 ⟨hpos, hle, hpoly⟩
    exact ⟨configureCrc c, exec_crcInit_legal s hlegal, rfl, configureCrc_width hle, rfl, rfl, rfl, rfl, rfl, rfl, rfl⟩
  · intro hbad
    apply exec_crcInit_illegal
    rw [legalConfig_iff]
    rintro ⟨hpos, hle, hpoly⟩
    rcases hbad with h | h | h
    · omega
    · omega
    · exact hpoly h

/-! ### CRC.UPDATE (R85) -/

section
variable {s : State} (data : List Byte)

theorem exec_crcUpdate_ready (h : s.crc.phase = .ready) : exec (.crcUpdate data) s =
    complete .crcUpdate [] (s.withCrc { s.crc with s := updateBytes s.crc.tab s.crc.s data }) :=
  whenOk_crcStream_ready h

theorem exec_crcUpdate_idle (h : s.crc.phase = .idle) :
    exec (.crcUpdate data) s = raise .crcUpdate .errNotInitialized s :=
  whenOk_crcStream_idle h

theorem exec_crcUpdate_finalized (h : s.crc.phase = .finalized) :
    exec (.crcUpdate data) s = raise .crcUpdate .errPhase s :=
  whenOk_crcStream_finalized h

end

/-- Settles O28, phase by phase; `updateBytes` is the fold the statement writes out. -/
theorem crcUpdateFoldsBytesInOrder : Obligations.CrcUpdateFoldsBytesInOrder :=
  fun _ data => ⟨exec_crcUpdate_ready data, exec_crcUpdate_idle data, exec_crcUpdate_finalized data⟩

/-! ### CRC.FINAL and CRC.FINALN (R86, R87) -/

section
variable {s : State}

theorem exec_crcFinal_ready (h : s.crc.phase = .ready) : exec (.crcFinal (.fits ())) s =
    complete .crcFinal (be64 (s.crc.s ^^^ s.crc.xorout)) (s.withCrc { s.crc with phase := .finalized }) :=
  whenOk_crcStream_ready h

theorem exec_crcFinal_idle (h : s.crc.phase = .idle) :
    exec (.crcFinal (.fits ())) s = raise .crcFinal .errNotInitialized s :=
  whenOk_crcStream_idle h

theorem exec_crcFinal_finalized (h : s.crc.phase = .finalized) :
    exec (.crcFinal (.fits ())) s = raise .crcFinal .errPhase s :=
  whenOk_crcStream_finalized h

/-- The width has a native form: its `n` bytes are emitted. -/
theorem exec_crcFinaln_native {n : Nat} (h : s.crc.phase = .ready) (hn : nativeBytes s.crc.width = some n) :
    exec (.crcFinaln (.fits ())) s =
      complete .crcFinaln (beBytes n ((s.crc.s ^^^ s.crc.xorout) &&& mask s.crc.width.toNat))
        (s.withCrc { s.crc with phase := .finalized }) := by
  refine (whenOk_crcStream_ready h).trans ?_
  rw [hn]

theorem exec_crcFinaln_not_native (h : s.crc.phase = .ready) (hn : nativeBytes s.crc.width = none) :
    exec (.crcFinaln (.fits ())) s = raise .crcFinaln .errConfig s := by
  refine (whenOk_crcStream_ready h).trans ?_
  rw [hn]

theorem exec_crcFinaln_idle (h : s.crc.phase = .idle) :
    exec (.crcFinaln (.fits ())) s = raise .crcFinaln .errNotInitialized s :=
  whenOk_crcStream_idle h

theorem exec_crcFinaln_finalized (h : s.crc.phase = .finalized) :
    exec (.crcFinaln (.fits ())) s = raise .crcFinaln .errPhase s :=
  whenOk_crcStream_finalized h

end

/-- Settles O29, phase by phase; the eight bytes are those of `be64_getElem?`. -/
theorem crcFinalEmitsStateXorMask : Obligations.CrcFinalEmitsStateXorMask :=
  fun _ => ⟨fun h => ⟨_, exec_crcFinal_ready h, be64_length _, be64_getElem? _⟩, exec_crcFinal_idle,
    fun h => ⟨exec_crcFinal_finalized h, exec_crcFinaln_finalized h, fun data => exec_crcUpdate_finalized data h⟩⟩

/-- Settles O30: at a native width the output is the end of `CRC.FINAL`'s (`beBytes_and_mask`), and its bytes are read
off there. -/
theorem crcFinalnEmitsNativeWidth : Obligations.CrcFinalnEmitsNativeWidth := by
  intro s
  refine ⟨fun hready hnative => ?_, fun hready hother => ?_, exec_crcFinaln_idle, exec_crcFinaln_finalized⟩
  · have hbytes := beBytes_and_mask (s.crc.s ^^^ s.crc.xorout) (s.crc.width.toNat / 8) (by omega)
    rw [show 8 * (s.crc.width.toNat / 8) = s.crc.width.toNat by omega] at hbytes
    refine ⟨_, exec_crcFinaln_native hready (nativeBytes_of_native hnative), beBytes_length _ _, fun k hk => ?_,
      _, exec_crcFinal_ready hready, hbytes⟩
    rw [hbytes, List.getElem?_drop, be64_getElem? _ _ (by omega)]
    congr 2
    omega
  · exact exec_crcFinaln_not_native hready (nativeBytes_of_not_native hother)

/-! ### CRC.FREE (R88) -/

/-- Settles O31: `CRC.FREE` puts the zeroed unit in place, which in `Idle` stands there already (R23 (d)). -/
theorem crcFreeZeroesTheUnit : Obligations.CrcFreeZeroesTheUnit := by
  refine fun s => ⟨exec_crcFree_fits s, fun hinv hidle => ?_⟩
  rw [exec_crcFree_fits, ← hinv.idleZero hidle]
  rfl

/-! ### CRC.REFLECT and CRC.RDTAB (R89, R90) -/

theorem exec_crcReflect_legal {bits : Byte} (x : Word64) (s : State) (h : bits.toNat ≤ 64) :
    exec (.crcReflect (.fits ⟨bits, x⟩)) s = complete .crcReflect (be64 (reflect x bits.toNat)) s :=
  if_pos h

theorem exec_crcReflect_illegal {bits : Byte} (x : Word64) (s : State) (h : 64 < bits.toNat) :
    exec (.crcReflect (.fits ⟨bits, x⟩)) s = raise .crcReflect .errConfig s :=
  if_neg (Nat.not_le.2 h)

/-- Settles O32: the two clauses are the two branches of the bound on `bits`. -/
theorem crcReflectEmitsReflection : Obligations.CrcReflectEmitsReflection :=
  fun s _ x => ⟨fun h => ⟨_, exec_crcReflect_legal x s h, be64_length _, be64_getElem? _⟩, exec_crcReflect_illegal x s⟩

theorem exec_crcRdtab_read {s : State} (i : Byte) (h : s.crc.phase = .ready ∨ s.crc.phase = .finalized) :
    exec (.crcRdtab (.fits i)) s = complete .crcRdtab (be64 (tableAt s.crc.tab i)) s :=
  whenOk_crcRead h

theorem exec_crcRdtab_idle {s : State} (i : Byte) (h : s.crc.phase = .idle) :
    exec (.crcRdtab (.fits i)) s = raise .crcRdtab .errNotInitialized s :=
  whenOk_crcRead_idle h

/-- Settles O33, phase by phase; the eight bytes are those of `be64_getElem?`. -/
theorem crcRdtabEmitsTheEntry : Obligations.CrcRdtabEmitsTheEntry :=
  fun _ i => ⟨fun h => ⟨_, exec_crcRdtab_read i h, be64_length _, be64_getElem? _⟩, exec_crcRdtab_idle i⟩

end Sys2Proof.Machine
end

section
/-! PROOFS. The CC commands (R106, R110 to R115 of spec/41_chacha20.md): `BlockNext` word by word, the phase after
`CryptBytes`, the bytes of an emitted quarter round, and what each command answers in each phase. -/

namespace Sys2Proof.Machine

/-! ### BlockNext (R106) -/

/-- The low counter word wraps to 0 exactly from its largest value. -/
theorem word32_add_one_eq_zero_iff (v : Word32) : v + 1 = 0 ↔ v = 0xFFFFFFFF := by
  bv_omega

/-- The window, byte `k` of word `i`. -/
theorem blockBytes_word_byte (st : Vector Word32 16) (i : Fin 16) (k : Fin 4) :
    (blockBytes st)[4 * i.val + k.val] = ((rounds st)[i.val] + st[i.val]).extractLsb' (8 * k.val) 8 := by
  have hword : (4 * i.val + k.val) / 4 = i.val := by omega
  have hbyte : (4 * i.val + k.val) % 4 = k.val := by omega
  simp only [blockBytes_getElem, hword, hbyte]

/-- Settles O41: the window is `blockBytes` and the counter step is `advanceCounter`, word by word. -/
theorem blockNextFillsWindowAndCounts : Obligations.BlockNextFillsWindowAndCounts := by
  refine fun c => ⟨blockBytes_word_byte c.st, advanceCounter_low c.st, ?_, fun j h12 h13 => ?_, rfl, rfl, rfl, rfl, rfl⟩
  · simp only [blockNext_st, advanceCounter_high, word32_add_one_eq_zero_iff]
  · exact advanceCounter_other c.st j.val j.isLt (Fin.val_ne_iff.2 h12) (Fin.val_ne_iff.2 h13)

/-! ### The phase after CryptBytes (R107) -/

/-- A byte either generates a block, which sets the phase, or leaves the phase alone. -/
theorem cryptByte_phase {c : ChaCha} (b : Byte) (h : c.off = 64 ∨ c.phase = .keystreaming) :
    (cryptByte c b).1.phase = .keystreaming := by
  by_cases hoff : c.off = 64
  · rw [cryptByte_used b hoff, blockNext_phase]
  · have hleft : c.off.val < 64 := by omega
    rw [cryptByte_left b ⟨c.off.val, hleft⟩ rfl]
    exact h.resolve_left hoff

theorem cryptBytes_phase {c : ChaCha} (bs : List Byte) (h : c.phase = .keystreaming) :
    (cryptBytes c bs).1.phase = .keystreaming := by
  induction bs generalizing c with
  | nil => exact h
  | cons b bs ih => exact ih (cryptByte_phase b (.inr h))

/-- From the first byte on the phase is `Keystreaming`. -/
theorem cryptBytes_phase_of_ne_nil {c : ChaCha} {bs : List Byte} (hne : bs ≠ [])
    (h : c.off = 64 ∨ c.phase = .keystreaming) : (cryptBytes c bs).1.phase = .keystreaming := by
  cases bs with
  | nil => exact absurd rfl hne
  | cons b bs => exact cryptBytes_phase bs (cryptByte_phase b h)

/-! ### CC.ENC and CC.DEC (R112, R113) -/

section
variable {o : Opcode} {s : State} {r : Result} (data : List Byte)

theorem whenOk_ccCrypt_accepted (h : s.cc.phase = .keyed ∨ s.cc.phase = .keystreaming) :
    whenOk o (ccCryptStatus s.cc.phase) s r = r := by
  rcases h with h | h <;> rw [h] <;> rfl

theorem whenOk_ccCrypt_refused (h : s.cc.phase = .idle ∨ s.cc.phase = .unkeyed) :
    whenOk o (ccCryptStatus s.cc.phase) s r = raise o .errNotInitialized s := by
  rcases h with h | h <;> rw [h] <;> rfl

theorem exec_ccEnc_accepted (h : s.cc.phase = .keyed ∨ s.cc.phase = .keystreaming) : exec (.ccEnc data) s =
    complete .ccEnc (cryptBytes s.cc data).2 (s.withCc (cryptBytes s.cc data).1) :=
  whenOk_ccCrypt_accepted h

theorem exec_ccDec_accepted (h : s.cc.phase = .keyed ∨ s.cc.phase = .keystreaming) : exec (.ccDec data) s =
    complete .ccDec (cryptBytes s.cc data).2 (s.withCc (cryptBytes s.cc data).1) :=
  whenOk_ccCrypt_accepted h

theorem exec_ccEnc_refused (h : s.cc.phase = .idle ∨ s.cc.phase = .unkeyed) :
    exec (.ccEnc data) s = raise .ccEnc .errNotInitialized s :=
  whenOk_ccCrypt_refused h

theorem exec_ccDec_refused (h : s.cc.phase = .idle ∨ s.cc.phase = .unkeyed) :
    exec (.ccDec data) s = raise .ccDec .errNotInitialized s :=
  whenOk_ccCrypt_refused h

end

/-- Settles O42: both commands answer `CryptBytes` of the instance, whose frame and phase the lemmas above give. -/
theorem ccEncAndDecDrawTheSameKeystream : Obligations.CcEncAndDecDrawTheSameKeystream := by
  refine fun s data => ⟨fun h => ?_, fun h => ⟨exec_ccEnc_refused data h, exec_ccDec_refused data h⟩⟩
  obtain ⟨hkey, hnonce, hctr0, hst⟩ := cryptBytes_frame s.cc data
  refine ⟨_, _, exec_ccEnc_accepted data h, exec_ccDec_accepted data h, rfl, cryptBytes_length s.cc data, hkey, hnonce,
    hctr0, fun j h12 h13 => ?_, fun hnil => ?_, cryptBytes_phase_of_ne_nil⟩
  · exact hst j.val j.isLt (Fin.val_ne_iff.2 h12) (Fin.val_ne_iff.2 h13)
  · rw [hnil]; rfl

/-! ### CC.QR (R115) -/

theorem exec_ccQr_fits (q : QrWords) (s : State) :
    exec (.ccQr (.fits q)) s = complete .ccQr (layQrWords (quarterRound q)) s := rfl

/-- Four words laid out, byte `k` of each. -/
theorem layQrWords_getElem? (q : QrWords) (k : Nat) (hk : k < 4) :
    (layQrWords q)[k]? = some (q.a.extractLsb' (8 * k) 8) ∧
      (layQrWords q)[4 + k]? = some (q.b.extractLsb' (8 * k) 8) ∧
      (layQrWords q)[8 + k]? = some (q.c.extractLsb' (8 * k) 8) ∧
      (layQrWords q)[12 + k]? = some (q.d.extractLsb' (8 * k) 8) := by
  rw [layQrWords_bytes]
  match k, hk with
  | 0, _ | 1, _ | 2, _ | 3, _ => exact ⟨rfl, rfl, rfl, rfl⟩

/-- Settles O38: the sixteen bytes are those of `layQrWords_getElem?`. -/
theorem ccQrEmitsQuarterRound : Obligations.CcQrEmitsQuarterRound :=
  fun s q => ⟨_, exec_ccQr_fits q s, layQrWords_length _, layQrWords_getElem? (quarterRound q)⟩

/-! ### CC.INIT and CC.FREE (R110, R114) -/

theorem exec_ccInit_fits (ctr : Word64) (s : State) :
    exec (.ccInit (.fits ctr)) s = complete .ccInit [] (s.withCc (instInit ctr)) := rfl

/-- Settles O39: the statement writes out the fields of `instInit`. -/
theorem ccInitClearsAndStoresCounter : Obligations.CcInitClearsAndStoresCounter :=
  fun s ctr => exec_ccInit_fits ctr s

/-- Settles O48: `CC.FREE` puts the zeroed instance in place, which in `Idle` stands there already (R26 (d)). -/
theorem ccFreeZeroesTheUnit : Obligations.CcFreeZeroesTheUnit := by
  refine fun s => ⟨exec_ccFree_fits s, fun hinv hidle => ?_⟩
  rw [exec_ccFree_fits, ← hinv.idleZero hidle]
  rfl

end Sys2Proof.Machine
end

section
/-! PROOFS. The RR commands (R131 to R133, R135 to R138 of spec/42_roundrobin256.md): how `Absorb` counts, the bytes of
the padded block and of the folded accumulator, and what each command answers in each phase. -/

namespace Sys2Proof.Machine

/-! ### Absorb (R131) -/

/-- One byte moves the index on by one; when the block is full the index is back at 0. -/
theorem absorbByte_idx (r : RrUnit) (b : Byte) : (absorbByte r b).idx.val = (r.idx.val + 1) % 64 := by
  rcases (show r.idx.val ≤ 63 by omega).lt_or_eq with h | h
  · rw [absorbByte_store r b h]
    exact (Nat.mod_eq_of_lt (by omega)).symm
  · simp only [absorbByte_fold r b h, h]
    rfl

/-- One byte adds 64 to the length when it fills the block, else nothing. -/
theorem absorbByte_len (r : RrUnit) (b : Byte) :
    (absorbByte r b).len = r.len + BitVec.ofNat 64 (64 * ((r.idx.val + 1) / 64)) := by
  rcases (show r.idx.val ≤ 63 by omega).lt_or_eq with h | h
  · rw [absorbByte_store r b h, Nat.div_eq_of_lt (by omega)]
    exact (BitVec.add_zero _).symm
  · simp only [absorbByte_fold r b h, h]
    rfl

/-- Over any data the index counts the bytes modulo the block size. -/
theorem absorb_idx (r : RrUnit) (data : List Byte) : (absorb r data).idx.val = (r.idx.val + data.length) % 64 := by
  induction data generalizing r with
  | nil => exact (Nat.mod_eq_of_lt r.idx.isLt).symm
  | cons b bs ih =>
    rw [absorb_cons, ih, absorbByte_idx, List.length_cons]
    omega

/-- Over any data the length goes up by 64 for each block filled. -/
theorem absorb_len (r : RrUnit) (data : List Byte) :
    (absorb r data).len = r.len + BitVec.ofNat 64 (64 * ((r.idx.val + data.length) / 64)) := by
  induction data generalizing r with
  | nil =>
    rw [absorb_nil, List.length_nil, Nat.add_zero, Nat.div_eq_of_lt r.idx.isLt]
    exact (BitVec.add_zero _).symm
  | cons b bs ih =>
    rw [absorb_cons, ih, absorbByte_len, absorbByte_idx, BitVec.add_assoc, ← BitVec.ofNat_add, List.length_cons]
    congr 2
    omega

/-- Settles O51: the two clauses on one byte are the two cases of `absorbByte`; the counts are `absorb_idx` and
`absorb_len`. -/
theorem absorbFoldsOnThe64thByte : Obligations.AbsorbFoldsOnThe64thByte := by
  refine fun r b data => ⟨fun h => ⟨⟨r.idx.val + 1, by omega⟩, rfl, ?store⟩, fun h => ?fold, absorb_nil r,
    absorb_idx r data, absorb_len r data⟩
  case store => rw [absorb_cons, absorbByte_store r b h]
  case fold => simp only [absorb_cons, absorbByte_fold r b h, h]

/-! ### Pad and FinalFold (R132, R133) -/

/-- A byte after the fill index has the value of the index plus the offset. -/
theorem padBlock_fill (cfg : Config) (blk : Vector Byte 64) {i j : Fin 64} (h : i.val < j.val) :
    (padBlock cfg blk i)[j.val].toNat = i.val + cfg.rrPadFillOffset.val := by
  rw [padBlock_getElem, if_neg (by omega), if_neg (by omega), BitVec.toNat_ofNat]
  exact Nat.mod_eq_of_lt (by omega)

/-- `Pad` leaves the pending bytes, then `0x80`, then the fill bytes. -/
theorem pad_bytes (cfg : Config) (r : RrUnit) :
    (pad cfg r).blk[r.idx.val] = 0x80 ∧
      (∀ j : Fin 64, j.val < r.idx.val → (pad cfg r).blk[j.val] = r.blk[j.val]) ∧
      ∀ j : Fin 64, r.idx.val < j.val → (pad cfg r).blk[j.val].toNat = r.idx.val + cfg.rrPadFillOffset.val := by
  simp only [pad_blk]
  refine ⟨?_, fun j h => ?_, fun j h => padBlock_fill cfg r.blk h⟩
  · rw [padBlock_getElem, if_neg (by omega), if_pos rfl]
  · rw [padBlock_getElem, if_pos h]

/-- `Pad` counts the pending bytes, modulo 2^64. -/
theorem pad_len_toNat (cfg : Config) (r : RrUnit) :
    (pad cfg r).len.toNat = (r.len.toNat + r.idx.val) % 2 ^ 64 := by
  rw [pad_len, BitVec.toNat_add, BitVec.toNat_ofNat, Nat.add_mod_mod]

/-- The final fold reaches bytes 0 to 19. -/
theorem finalFold_low (acc : Vector Byte 44) (j : Fin 20) :
    (finalFold acc)[j.val] = acc[j.val] ^^^ acc[24 + j.val] := by
  rw [finalFold, Vector.getElem_ofFn]
  exact dif_pos j.isLt

/-- The final fold leaves bytes 20 to 43. -/
theorem finalFold_high (acc : Vector Byte 44) (j : Fin 24) : (finalFold acc)[20 + j.val] = acc[20 + j.val] := by
  rw [finalFold, Vector.getElem_ofFn]
  exact dif_neg (Nat.not_lt.2 (Nat.le_add_right 20 j.val))

/-- Settles O53, field by field. -/
theorem padAndFinalFoldAreAsGiven : Obligations.PadAndFinalFoldAreAsGiven := by
  refine ⟨fun cfg r => ?_, fun acc => ⟨finalFold_low acc, finalFold_high acc⟩⟩
  obtain ⟨hfill, hpending, hafter⟩ := pad_bytes cfg r
  obtain ⟨hphase, hcc, hacc, hidx, houtsz⟩ := pad_frame cfg r
  exact ⟨pad_len_toNat cfg r, hfill, hpending, hafter, hacc, hcc, hidx, hphase, houtsz⟩

/-! ### RR.INIT (R135) -/

theorem exec_rrInit_fits (s : State) : exec (.rrInit (.fits ())) s =
    complete .rrInit [] (s.withRr (rrInitial params)) := rfl

/-- A zero nonce word and a zero high half of the counter come to zero, however they are combined (R104). -/
theorem combine_zero (how : NonceCombine) : combine how 0 0 = 0 := by
  cases how <;> rfl

theorem le32At_replicate_zero (m i : Nat) (h : i + 3 < m) : le32At (Vector.replicate m 0) i h = 0 := by
  simp only [le32At, Vector.getElem_replicate]
  rfl

/-- The state Setup lays out for the all-zero key, nonce and counter: the constants and zeros. -/
theorem layout_zero (cfg : Config) :
    layout cfg (Vector.replicate 32 0) (Vector.replicate 12 0) 0 = innerState 0 := by
  have hhigh : (0 : Word64).extractLsb' 32 32 = 0 := rfl
  simp only [layout, le32At_replicate_zero, hhigh, combine_zero]
  rfl

/-- Settles O49: the statement writes out the fields of `rrInitial`. -/
theorem rrInitKeysInnerInstanceWithZeros : Obligations.RrInitKeysInnerInstanceWithZeros := by
  refine fun s => (exec_rrInit_fits s).trans ?_
  rw [rrInitial, instSetup, instInit, layout_zero]
  rfl

/-! ### What RR.UPDATE and RR.FINAL answer in each phase (R136, R137, R176) -/

section
variable {o : Opcode} {s : State} {r : Result}

theorem whenOk_rrStream_absorbing (h : s.rr.phase = .absorbing) : whenOk o (rrStreamStatus s.rr.phase) s r = r := by
  rw [h]; rfl

theorem whenOk_rrStream_idle (h : s.rr.phase = .idle) :
    whenOk o (rrStreamStatus s.rr.phase) s r = raise o .errNotInitialized s := by
  rw [h]; rfl

theorem whenOk_rrStream_finalized (h : s.rr.phase = .finalized) :
    whenOk o (rrStreamStatus s.rr.phase) s r = raise o .errPhase s := by
  rw [h]; rfl

theorem exec_rrUpdate_absorbing (data : List Byte) (h : s.rr.phase = .absorbing) :
    exec (.rrUpdate data) s = complete .rrUpdate [] (s.withRr (absorb s.rr data)) :=
  whenOk_rrStream_absorbing h

theorem exec_rrUpdate_idle (data : List Byte) (h : s.rr.phase = .idle) :
    exec (.rrUpdate data) s = raise .rrUpdate .errNotInitialized s :=
  whenOk_rrStream_idle h

theorem exec_rrUpdate_finalized (data : List Byte) (h : s.rr.phase = .finalized) :
    exec (.rrUpdate data) s = raise .rrUpdate .errPhase s :=
  whenOk_rrStream_finalized h

theorem exec_rrFinal_absorbing (h : s.rr.phase = .absorbing) : exec (.rrFinal (.fits ())) s =
    complete .rrFinal (rrDigest params s.rr) (s.withRr (rrFinalized s.rr)) :=
  whenOk_rrStream_absorbing h

theorem exec_rrFinal_idle (h : s.rr.phase = .idle) :
    exec (.rrFinal (.fits ())) s = raise .rrFinal .errNotInitialized s :=
  whenOk_rrStream_idle h

theorem exec_rrFinal_finalized (h : s.rr.phase = .finalized) :
    exec (.rrFinal (.fits ())) s = raise .rrFinal .errPhase s :=
  whenOk_rrStream_finalized h

end

/-! ### RR.UPDATE (R136) -/

/-- Settles O52, phase by phase; `absorb_frame` gives the phase and the output size. -/
theorem rrUpdateAbsorbsTheBytes : Obligations.RrUpdateAbsorbsTheBytes := by
  refine fun s data => ⟨fun h => ?_, exec_rrUpdate_idle data, exec_rrUpdate_finalized data⟩
  obtain ⟨hphase, houtsz⟩ := absorb_frame s.rr data
  exact ⟨exec_rrUpdate_absorbing data h, hphase.trans h, houtsz, absorb_nil s.rr⟩

/-! ### RR.FINAL (R137) -/

theorem squeeze_length (cfg : Config) (acc : Vector Byte 44) (len : Word64) : (squeeze cfg acc len).length = 32 := by
  rw [squeeze, cryptBytes_length, List.length_replicate]

/-- The digest is squeezed from the folded accumulator; the Transform has left the padded length. -/
theorem rrDigest_eq_squeeze (cfg : Config) (r : RrUnit) :
    rrDigest cfg r = squeeze cfg (finalFold (transform (pad cfg r)).acc) (pad cfg r).len := by
  rw [rrDigest, transform_len]

/-- Settles O55, phase by phase. -/
theorem rrFinalEmitsDigestAndClears : Obligations.RrFinalEmitsDigestAndClears :=
  fun s => ⟨fun h => ⟨_, exec_rrFinal_absorbing h, squeeze_length _ _ _, rrDigest_eq_squeeze params s.rr⟩,
    exec_rrFinal_idle, exec_rrFinal_finalized⟩

/-! ### RR.FREE (R138) -/

/-- Settles O56: `RR.FREE` puts the zeroed unit in place, which in `Idle` stands there already (R28 (d)). -/
theorem rrFreeZeroesTheUnit : Obligations.RrFreeZeroesTheUnit := by
  refine fun s => ⟨exec_rrFree_fits s, fun hinv hidle => ?_⟩
  rw [exec_rrFree_fits, ← hinv.idleZero hidle]
  rfl

end Sys2Proof.Machine
end

section
/-! PROOFS. The SYS commands (R150 of spec/43_sys.md): what `SYS.NOP` answers with and without a payload. -/

namespace Sys2Proof.Machine

/-! ### SYS.NOP (R150) -/

theorem exec_sysNop (p : Payload Unit) (s : State) :
    exec (.sysNop p) s = withOperands .sysNop p s fun _ => complete .sysNop [] s := rfl

theorem exec_sysNop_fits (s : State) : exec (.sysNop (.fits ())) s = complete .sysNop [] s := by
  rw [exec_sysNop, withOperands_fits]

theorem exec_sysNop_wrongLength (p : List Byte) (s : State) :
    exec (.sysNop (.wrongLength p)) s = raise .sysNop .errLength s := by
  rw [exec_sysNop, withOperands_wrongLength]

/-- Settles O20: the zero header selects the row of `OPC` 0, and either answer only adds a response. -/
theorem sysNopChangesNothing : Obligations.SysNopChangesNothing :=
  ⟨decode_noPayload .sysNop .sysNop fun _ => rfl, fun s p => ⟨exec_sysNop_fits s, exec_sysNop_wrongLength p s⟩⟩

end Sys2Proof.Machine
end

section
/-! PROOFS. Decoding and encoding are inverse (R60 to R66, R72 of spec/30_encoding.md), and the fields of a response
header (R62). Each operand layout of R64 is packed with the laws that make its cutting and its laying inverse, so that
the two directions over all rows cite one lemma about a payload each. -/

namespace Sys2Proof.Machine

/-! ### Operand layouts (R64) -/

/-- A layout of operands in exactly `n` payload bytes, with the laws of its two directions. -/
structure Layout (α : Type) (n : Nat) where
  cut : Vector Byte n → α
  lay : α → List Byte
  lay_length : ∀ a, (lay a).length = n
  cut_lay : ∀ a (h : (lay a).toArray.size = n), cut ⟨(lay a).toArray, h⟩ = a
  lay_cut : ∀ v, lay (cut v) = v.toList

namespace Layout

/-- No operands. -/
def nothing : Layout Unit 0 where
  cut _ := ()
  lay _ := []
  lay_length _ := rfl
  cut_lay _ _ := rfl
  lay_cut := layNothing_cut

/-- `CRC.INIT`. -/
def crcConfig : Layout CrcConfig 25 where
  cut := cutCrcConfig
  lay := layCrcConfig
  lay_length := layCrcConfig_length
  cut_lay := cutCrcConfig_lay
  lay_cut := layCrcConfig_cut

/-- `CRC.REFLECT`. -/
def reflectArgs : Layout ReflectArgs 9 where
  cut := cutReflectArgs
  lay := layReflectArgs
  lay_length := layReflectArgs_length
  cut_lay := cutReflectArgs_lay
  lay_cut := layReflectArgs_cut

/-- `CRC.RDTAB`. -/
def index : Layout Byte 1 where
  cut := cutIndex
  lay b := [b]
  lay_length _ := rfl
  cut_lay _ _ := rfl
  lay_cut := layIndex_cut

/-- `CC.INIT`. -/
def counter : Layout Word64 8 where
  cut := cutCounter
  lay := be64
  lay_length := be64_length
  cut_lay := cutCounter_lay
  lay_cut := layCounter_cut

/-- `CC.SETUP`. -/
def keyNonce : Layout KeyNonce 44 where
  cut := cutKeyNonce
  lay := layKeyNonce
  lay_length := layKeyNonce_length
  cut_lay := cutKeyNonce_lay
  lay_cut := layKeyNonce_cut

/-- `CC.QR`. -/
def qrWords : Layout QrWords 16 where
  cut := cutQrWords
  lay := layQrWords
  lay_length := layQrWords_length
  cut_lay := cutQrWords_lay
  lay_cut := layQrWords_cut

variable {α : Type} {n : Nat} (l : Layout α n) {o : Opcode} {p : Payload α}

/-- A well-formed payload comes back from its bytes. -/
theorem cutPayload_layPayload (ho : fixedLen o = some n) (h : p.wellFormed o = true) :
    cutPayload n l.cut (layPayload l.lay p) = p :=
  Machine.cutPayload_layPayload n l.cut l.lay l.lay_length l.cut_lay p (wellFormed_length_ne ho h)

/-- The bytes come back from what is cut of them. -/
theorem layPayload_cutPayload (bs : List Byte) : layPayload l.lay (cutPayload n l.cut bs) = bs :=
  Machine.layPayload_cutPayload n l.cut l.lay l.lay_cut bs

/-- The bytes of a well-formed payload fit `LEN`. -/
theorem layPayload_length_le (hn : n ≤ Config.maxLen) (h : p.wellFormed o = true) :
    (layPayload l.lay p).length ≤ Config.maxLen := by
  cases p with
  | fits a => exact (l.lay_length a).trans_le hn
  | wrongLength bs =>
    simp only [Payload.wellFormed, Bool.and_eq_true, decide_eq_true_eq] at h
    exact h.2

end Layout

/-! ### A command from its payload bytes, and back -/

/-- The payload of a well-formed command fits `LEN`. -/
theorem payload_length_le {i : Instr} (h : i.wellFormed = true) : i.payload.length ≤ Config.maxLen := by
  cases i with
  | crcUpdate data | ccEnc data | ccDec data | rrUpdate data => exact of_decide_eq_true h
  | crcInit p => exact Layout.crcConfig.layPayload_length_le (by decide) h
  | crcReflect p => exact Layout.reflectArgs.layPayload_length_le (by decide) h
  | crcRdtab p => exact Layout.index.layPayload_length_le (by decide) h
  | ccInit p => exact Layout.counter.layPayload_length_le (by decide) h
  | ccSetup p => exact Layout.keyNonce.layPayload_length_le (by decide) h
  | ccQr p => exact Layout.qrWords.layPayload_length_le (by decide) h
  | sysNop p | sysReset p | crcFinal p | crcFinaln p | crcFree p | ccFree p | rrInit p | rrFinal p | rrFree p =>
    exact Layout.nothing.layPayload_length_le (by decide) h

/-- A well-formed command is its row with its payload. -/
theorem instrOf_payload {i : Instr} (h : i.wellFormed = true) : instrOf i.opcode i.payload = i := by
  cases i with
  | crcUpdate data | ccEnc data | ccDec data | rrUpdate data => rfl
  | crcInit p => exact congrArg Instr.crcInit (Layout.crcConfig.cutPayload_layPayload rfl h)
  | crcReflect p => exact congrArg Instr.crcReflect (Layout.reflectArgs.cutPayload_layPayload rfl h)
  | crcRdtab p => exact congrArg Instr.crcRdtab (Layout.index.cutPayload_layPayload rfl h)
  | ccInit p => exact congrArg Instr.ccInit (Layout.counter.cutPayload_layPayload rfl h)
  | ccSetup p => exact congrArg Instr.ccSetup (Layout.keyNonce.cutPayload_layPayload rfl h)
  | ccQr p => exact congrArg Instr.ccQr (Layout.qrWords.cutPayload_layPayload rfl h)
  | sysNop p => exact congrArg Instr.sysNop (Layout.nothing.cutPayload_layPayload rfl h)
  | sysReset p => exact congrArg Instr.sysReset (Layout.nothing.cutPayload_layPayload rfl h)
  | crcFinal p => exact congrArg Instr.crcFinal (Layout.nothing.cutPayload_layPayload rfl h)
  | crcFinaln p => exact congrArg Instr.crcFinaln (Layout.nothing.cutPayload_layPayload rfl h)
  | crcFree p => exact congrArg Instr.crcFree (Layout.nothing.cutPayload_layPayload rfl h)
  | ccFree p => exact congrArg Instr.ccFree (Layout.nothing.cutPayload_layPayload rfl h)
  | rrInit p => exact congrArg Instr.rrInit (Layout.nothing.cutPayload_layPayload rfl h)
  | rrFinal p => exact congrArg Instr.rrFinal (Layout.nothing.cutPayload_layPayload rfl h)
  | rrFree p => exact congrArg Instr.rrFree (Layout.nothing.cutPayload_layPayload rfl h)

@[simp] theorem instrOf_opcode (o : Opcode) (p : List Byte) : (instrOf o p).opcode = o := by
  cases o <;> rfl

/-- A row's command with payload bytes `p` has the payload bytes `p`. -/
@[simp] theorem payload_instrOf (o : Opcode) (p : List Byte) : (instrOf o p).payload = p := by
  cases o with
  | crcUpdate | ccEnc | ccDec | rrUpdate => rfl
  | crcInit => exact Layout.crcConfig.layPayload_cutPayload p
  | crcReflect => exact Layout.reflectArgs.layPayload_cutPayload p
  | crcRdtab => exact Layout.index.layPayload_cutPayload p
  | ccInit => exact Layout.counter.layPayload_cutPayload p
  | ccSetup => exact Layout.keyNonce.layPayload_cutPayload p
  | ccQr => exact Layout.qrWords.layPayload_cutPayload p
  | sysNop | sysReset | crcFinal | crcFinaln | crcFree | ccFree | rrInit | rrFinal | rrFree =>
    exact Layout.nothing.layPayload_cutPayload p

/-- A row's command with a payload that fits `LEN` is well-formed. -/
theorem instrOf_wellFormed (o : Opcode) {p : List Byte} (h : p.length ≤ Config.maxLen) :
    (instrOf o p).wellFormed = true := by
  cases o with
  | crcUpdate | ccEnc | ccDec | rrUpdate => exact decide_eq_true h
  | crcInit | crcReflect | crcRdtab | ccInit | ccSetup | ccQr | sysNop | sysReset | crcFinal | crcFinaln | crcFree
  | ccFree | rrInit | rrFinal | rrFree => exact cutPayload_wellFormed _ rfl h

/-! ### Headers -/

theorem selectOpcode_header (i : Instr) : selectOpcode i.header = some i.opcode :=
  (selectOpcode_eq_some_iff _ _).2 ⟨mkHeader_opc _ _ _, mkHeader_rsv _ _ _⟩

/-- What a command decodes from: a header that selects its row, and the payload bytes `LEN` counts. -/
theorem decode_command {bs rest : List Byte} {i : Instr} (h : decode bs = .command i rest) :
    ∃ hd o p, selectOpcode hd = some o ∧ p.length = hd.len ∧ i = instrOf o p ∧ bs = headerBytes hd ++ (p ++ rest) := by
  unfold decode at h
  split at h
  · cases h
  next f hf =>
    obtain ⟨hlen, hbytes⟩ := frame_some hf
    unfold decodeCommand at h
    cases hs : selectOpcode f.header with
    | none => simp [hs] at h
    | some o =>
      simp only [hs, Decoded.command.injEq] at h
      obtain ⟨rfl, rfl⟩ := h
      exact ⟨f.header, o, f.payload, hs, hlen, rfl, hbytes.symm⟩

/-- The header that selects row `o` with `LEN` the length of `p` is that of the row's command with payload `p`. -/
theorem header_instrOf {hd : Header} {o : Opcode} {p : List Byte} (hs : selectOpcode hd = some o)
    (hp : p.length = hd.len) : (instrOf o p).header = hd := by
  obtain ⟨hopc, hrsv⟩ := fields_of_selectOpcode hs
  rw [Instr.header, instrOf_opcode, payload_instrOf, ← hopc, ← hrsv, hp, mkHeader_fields]

/-! ### The obligations -/

/-- Settles O11: the header selects the command's row, `LEN` frames its payload, and the payload is cut back. -/
theorem decodeOfEncodeIsTheCommand : Obligations.DecodeOfEncodeIsTheCommand := by
  intro i rest hwf
  have hlen : i.payload.length = i.header.len := (mkHeader_len _ _ _ (payload_length_le hwf)).symm
  rw [encode, List.append_assoc, decode_of_selectOpcode rest (selectOpcode_header i) hlen, instrOf_payload hwf]

/-- Settles O12: the header is rebuilt from its fields, the payload laid back. -/
theorem encodeOfDecodeIsTheBytes : Obligations.EncodeOfDecodeIsTheBytes := by
  intro bs rest i hdec
  obtain ⟨hd, o, p, hs, hp, rfl, rfl⟩ := decode_command hdec
  refine ⟨instrOf_wellFormed o (hp ▸ header_len_le hd), ?_⟩
  rw [encode, header_instrOf hs hp, payload_instrOf, List.append_assoc]

/-- Settles O14: a header made of its fields has them (`mkHeader_opc`, `mkHeader_rsv`, `mkHeader_len`). -/
theorem responseHeaderHoldsItsFields : Obligations.ResponseHeaderHoldsItsFields := by
  refine ⟨⟨rfl, rfl, rfl, rfl, rfl, rfl, fun st => ?_⟩, fun r hlen => ?_⟩
  · cases st <;> decide
  · exact ⟨mkHeader_opc _ _ _, mkHeader_rsv _ _ _, mkHeader_len _ _ _ hlen, rfl⟩

end Sys2Proof.Machine
end

section
/-! PROOFS. The step on what stands first on the port (R60, R69, R72 of spec/30_encoding.md; R161, R164 of
spec/60_exceptions.md; R175, R180, R189): a whole command, an illegal header, an illegal length, part of a command, a
reset. -/

namespace Sys2Proof.Machine

/-! ### The step by what is fetched -/

section
variable {s : State}

theorem step_of_waiting (h : fetch s.port = .waiting) : step s = .next s := by
  rw [step, h]

theorem step_of_reset {rest : List PortItem} (h : fetch s.port = .reset rest) :
    step s = .next (hardwareReset rest s) := by
  rw [step, h]

theorem step_of_command {hd : Header} {p : List Byte} {rest : List PortItem}
    (h : fetch s.port = .command hd p rest) : step s = perform hd p (s.withPort rest) := by
  rw [step, h]

/-- A whole command first on the port that no reset interrupts is performed, its bytes taken. -/
theorem step_portOf_command (s : State) (hd : Header) (p : List Byte) (later : List PortItem)
    (hp : p.length = hd.len) (hr : later.head? ≠ some .resetInProgress) :
    step { s with port := portOf (headerBytes hd ++ p) ++ later } = perform hd p { s with port := later } :=
  step_of_command (fetch_command hd p later hp hr)

end

theorem perform_selected {hd : Header} {o : Opcode} (p : List Byte) (s : State) (h : selectOpcode hd = some o) :
    perform hd p s = exec (instrOf o p) s := by
  simp only [perform, decodeCommand, h]

theorem perform_unselected {hd : Header} (p : List Byte) (s : State) (h : selectOpcode hd = none) :
    perform hd p s = raiseUnsupported hd.opc s := by
  simp only [perform, decodeCommand, h]

/-- Settles O6: the bytes are one header and its payload, which are taken and performed. -/
theorem stepPerformsDecodedCommand : Obligations.StepPerformsDecodedCommand := by
  intro s bs i later hdec hr
  obtain ⟨hd, o, p, hs, hp, rfl, rfl⟩ := decode_command hdec
  rw [List.append_nil, step_portOf_command s hd p later hp hr, perform_selected p _ hs]

/-! ### Illegal headers (R161) -/

theorem selectOpcode_eq_none {hd : Header} (h : hd.rsv ≠ 0 ∨ ∀ o : Opcode, opcodeByte o ≠ hd.opc) :
    selectOpcode hd = none := by
  cases hs : selectOpcode hd with
  | none => rfl
  | some o =>
    obtain ⟨hopc, hrsv⟩ := fields_of_selectOpcode hs
    rcases h with h | h
    · exact absurd hrsv h
    · exact absurd hopc.symm (h o)

/-- Settles O7: no row is selected, and each `FREE` answers `OK` in every state. -/
theorem illegalHeaderIsUnsupported : Obligations.IllegalHeaderIsUnsupported := by
  intro s hd p later hp hr hillegal
  refine ⟨_, ?_, rfl, ?_⟩
  · rw [step_portOf_command s hd p later hp hr, perform_unselected p _ (selectOpcode_eq_none hillegal)]
    rfl
  · simp only [List.forall_mem_cons]
    exact ⟨⟨_, exec_crcFree_fits _, rfl⟩, ⟨_, exec_ccFree_fits _, rfl⟩, ⟨_, exec_rrFree_fits _, rfl⟩, by simp⟩

/-! ### Illegal lengths (R164) -/

/-- A payload of another length than the layout's is not cut. -/
theorem cutPayload_of_length_ne {α : Type} {n : Nat} (f : Vector Byte n → α) {p : List Byte} (h : p.length ≠ n) :
    cutPayload n f p = .wrongLength p :=
  dif_neg h

/-- A command of fixed length with a payload of another length is refused. -/
theorem exec_instrOf_wrongLength {o : Opcode} {k : Nat} {p : List Byte} (s : State) (ho : fixedLen o = some k)
    (h : p.length ≠ k) : exec (instrOf o p) s = raise o .errLength s := by
  cases o with
  | crcUpdate | ccEnc | ccDec | rrUpdate => cases ho
  | sysNop | sysReset | crcInit | crcFinal | crcFinaln | crcFree | crcReflect | crcRdtab | ccInit | ccSetup | ccFree
  | ccQr | rrInit | rrFinal | rrFree =>
    cases ho
    simp only [instrOf, cutPayload_of_length_ne _ h]
    rfl

/-- Settles O8: the header selects its row, whose length check refuses the payload. -/
theorem illegalLengthIsRefused : Obligations.IllegalLengthIsRefused := by
  rintro s hd o p later hp hr hrsv hopc ⟨k, hk, hne⟩
  have hs : selectOpcode hd = some o := (selectOpcode_eq_some_iff hd o).2 ⟨hopc, hrsv⟩
  rw [step_portOf_command s hd p later hp hr, perform_selected p _ hs, exec_instrOf_wrongLength _ hk (hp ▸ hne), hopc]
  rfl

/-! ### Part of a command, and resets (R175, R180, R189) -/

theorem frame_of_short_header {bs : List Byte} (h : bs.length < 4) : frame bs = none := by
  match bs, h with
  | [], _ | [_], _ | [_, _], _ | [_, _, _], _ => rfl

theorem frame_of_short_payload {hd : Header} {p : List Byte} (h : p.length < hd.len) :
    frame (headerBytes hd ++ p) = none := by
  simp only [headerBytes, List.cons_append, List.nil_append, frame, headerOfBytes_headerBytes]
  exact if_neg (Nat.not_le.2 h)

/-- Bytes alone that are no whole command are waited on. -/
theorem fetch_incomplete {bs : List Byte} (h : frame bs = none) : fetch (portOf bs) = .waiting := by
  have hbytes := portBytes_portOf bs []
  have hafter := afterReset_portOf bs []
  rw [List.append_nil] at hbytes hafter
  rw [fetch, hbytes, hafter, portBytes, List.append_nil, h]
  rfl

/-- A reset of either kind behind bytes that are no whole command is what is taken. -/
theorem fetch_incomplete_reset {bs : List Byte} {item : PortItem} (later : List PortItem) (h : frame bs = none)
    (hitem : item = .reset ∨ item = .resetInProgress) : fetch (portOf bs ++ item :: later) = .reset later := by
  rw [fetch, portBytes_portOf, afterReset_portOf]
  rcases hitem with rfl | rfl <;> simp only [portBytes, List.append_nil, h, afterReset]

/-- Settles O9: what is fetched in each of the four cases; a reset gives the zeroed units. -/
theorem incompleteCommandWaitsOrIsAbandoned : Obligations.IncompleteCommandWaitsOrIsAbandoned := by
  refine fun s => ⟨fun bs hshort hport => ?_, fun hd p hshort hport => ?_, fun hd p later hp hport => ?_,
    fun bs later hframe hport => ?_⟩
  · exact step_of_waiting (hport ▸ fetch_incomplete (frame_of_short_header hshort))
  · exact step_of_waiting (hport ▸ fetch_incomplete (frame_of_short_payload hshort))
  · exact step_of_reset (hport ▸ fetch_abandoned hd p later hp)
  · rcases hport with hport | hport
    · exact step_of_reset (hport ▸ fetch_incomplete_reset later hframe (.inl rfl))
    · exact step_of_reset (hport ▸ fetch_incomplete_reset later hframe (.inr rfl))

/-! ### SYS.RESET (R151) -/

theorem exec_sysReset_fits (s : State) :
    exec (.sysReset (.fits ())) s = complete .sysReset [] s.zeroUnits := rfl

theorem exec_sysReset_wrongLength (p : List Byte) (s : State) :
    exec (.sysReset (.wrongLength p)) s = raise .sysReset .errLength s := rfl

/-- The three `FREE` commands together leave the units zeroed. -/
theorem performAll_frees (s : State) :
    performAll [.crcFree (.fits ()), .ccFree (.fits ()), .rrFree (.fits ())] s =
      ((s.zeroUnits.respond ⟨opcodeByte .crcFree, .ok, []⟩).respond ⟨opcodeByte .ccFree, .ok, []⟩).respond
        ⟨opcodeByte .rrFree, .ok, []⟩ := by
  rw [performAll_cons_of_next (exec_crcFree_fits _), performAll_cons_of_next (exec_ccFree_fits _),
    performAll_cons_of_next (exec_rrFree_fits _)]
  rfl

/-- Settles O21: `SYS.RESET` zeroes the units, as the three `FREE` commands do. -/
theorem sysResetZeroesEveryUnit : Obligations.SysResetZeroesEveryUnit := by
  refine fun s p => ⟨exec_sysReset_wrongLength p s, exec_sysReset_fits s, ?_, ?_⟩
  · rw [performAll_frees]
    exact ⟨rfl, rfl, rfl⟩
  · rw [performAll_cons_of_next (exec_sysReset_fits _), performAll_cons_of_next (exec_sysReset_fits _)]
    exact ⟨rfl, rfl, rfl⟩

end Sys2Proof.Machine
end

section
/-! PROOFS. The CRC functions (R80 to R83, R94 of spec/40_crc.md): `Reflect` bit by bit, the table update as bit-serial
division, the bound `2^w`; and the CRC unit invariants (R23 of spec/10_state.md), kept by every step. -/

namespace Sys2Proof.Machine

/-! ### Reflect (R80) -/

/-- One turn of the loop of `Reflect`. -/
def reflectBit (x : Word64) (bits : Nat) (r : Word64) (i : Nat) : Word64 :=
  if x.getLsbD i then r ||| ((1#64) <<< (bits - 1 - i)) else r

theorem reflect_eq_foldl (x : Word64) (bits : Nat) :
    reflect x bits = (List.range bits).foldl (reflectBit x bits) 0 := rfl

/-- Turn `i` sets bit `bits-1-i` when bit `i` of `x` is set. -/
theorem reflectBit_getLsbD (x r : Word64) {bits i : Nat} (hb : bits ≤ 64) (hi : i < bits) (j : Nat) :
    (reflectBit x bits r i).getLsbD j = (r.getLsbD j || (decide (j = bits - 1 - i) && x.getLsbD i)) := by
  have hone : ((1#64) <<< (bits - 1 - i)).getLsbD j = decide (j = bits - 1 - i) := by
    rw [BitVec.getLsbD_shiftLeft, BitVec.getLsbD_one, Bool.eq_iff_iff]
    simp only [Bool.and_eq_true, Bool.not_eq_true', decide_eq_true_eq, decide_eq_false_iff_not]
    omega
  cases hx : x.getLsbD i <;> simp [reflectBit, hx, hone]

/-- After `n` turns the top `n` of the `bits` low bits are placed. -/
theorem reflect_loop_getLsbD (x : Word64) {bits : Nat} (hb : bits ≤ 64) (n : Nat) (hn : n ≤ bits) (j : Nat) :
    ((List.range n).foldl (reflectBit x bits) 0).getLsbD j =
      (decide (bits - n ≤ j ∧ j < bits) && x.getLsbD (bits - 1 - j)) := by
  induction n with
  | zero => simp [show ¬(bits ≤ j ∧ j < bits) by omega]
  | succ n ih =>
    rw [List.range_succ, List.foldl_append, List.foldl_cons, List.foldl_nil, reflectBit_getLsbD x _ hb hn,
      ih (by omega)]
    by_cases hj : j = bits - 1 - n
    · simp [hj, show bits - (n + 1) ≤ bits - 1 - n ∧ bits - 1 - n < bits by omega,
        show bits - 1 - (bits - 1 - n) = n by omega]
    · have hsame : (bits - (n + 1) ≤ j ∧ j < bits) ↔ (bits - n ≤ j ∧ j < bits) := by omega
      simp only [hj, hsame, decide_false, Bool.false_and, Bool.or_false]

/-- `Reflect` bit by bit. -/
theorem reflect_getLsbD (x : Word64) {bits : Nat} (hb : bits ≤ 64) (j : Nat) :
    (reflect x bits).getLsbD j = (decide (j < bits) && x.getLsbD (bits - 1 - j)) := by
  rw [reflect_eq_foldl, reflect_loop_getLsbD x hb bits (Nat.le_refl _)]
  simp

theorem reflect_lt (x : Word64) {bits : Nat} (hb : bits ≤ 64) : (reflect x bits).toNat < 2 ^ bits := by
  rw [lt_two_pow_iff_bits]
  intro j hj
  simp [reflect_getLsbD x hb, Nat.not_lt.2 hj]

/-- Reflecting twice keeps the low bits. -/
theorem reflect_reflect (x : Word64) {bits : Nat} (hb : bits ≤ 64) :
    (reflect (reflect x bits) bits).toNat = x.toNat % 2 ^ bits := by
  apply Nat.eq_of_testBit_eq
  intro j
  rw [Nat.testBit_mod_two_pow, ← BitVec.getLsbD, ← BitVec.getLsbD, reflect_getLsbD _ hb, reflect_getLsbD _ hb]
  by_cases hj : j < bits
  · simp [hj, show bits - 1 - j < bits by omega, show bits - 1 - (bits - 1 - j) = j by omega]
  · simp [hj]

/-- Settles O22, from `Reflect` bit by bit. -/
theorem reflectReversesLowBits : Obligations.ReflectReversesLowBits := by
  refine ⟨fun x bits hb => ⟨fun i hi => ?_, fun j hj => ?_, reflect_reflect x hb⟩, by decide, by decide, by decide,
    by decide, by decide⟩
  · simp [reflect_getLsbD x hb, show bits - 1 - i < bits by omega, show bits - 1 - (bits - 1 - i) = i by omega]
  · simp [reflect_getLsbD x hb, Nat.not_lt.2 hj]

/-! ### Table entries (R82) -/

theorem divideSteps_add (rpoly : Word64) (m n : Nat) (c : Word64) :
    divideSteps rpoly (m + n) c = divideSteps rpoly n (divideSteps rpoly m c) := by
  induction m generalizing c with
  | zero => rw [Nat.zero_add, divideSteps]
  | succ m ih => rw [Nat.succ_add, divideSteps, ih, divideSteps]

/-- The mask changes no entry when the polynomial is short enough. -/
theorem tableEntry_eq_divideSteps (rpoly : Word64) {w : Nat} (i : Byte) (hw : w ≤ 64) (hp : rpoly.toNat < 2 ^ w) :
    tableEntry rpoly w i = divideSteps rpoly 8 (i.setWidth 64) := by
  refine and_mask_of_lt _ w hw (divideSteps_lt rpoly _ w w 8 hp (Nat.le_refl _) ?_)
  calc (i.setWidth 64).toNat = i.toNat := BitVec.toNat_setWidth_of_le (by decide)
    _ < 2 ^ 8 := i.isLt
    _ ≤ 2 ^ (w + 8) := Nat.pow_le_pow_right (by decide) (by omega)

theorem divideSteps_zero (rpoly : Word64) (n : Nat) : divideSteps rpoly n 0 = 0 := by
  rw [divideSteps_shift rpoly n 0 (fun i _ => BitVec.getLsbD_zero)]
  exact BitVec.zero_ushiftRight

/-- Seven shifts bring the top bit of the byte down, the eighth takes in the polynomial. -/
theorem divideSteps_topBit (rpoly : Word64) : divideSteps rpoly 8 0x80 = rpoly := by
  have hseven : divideSteps rpoly 7 0x80 = 1 := by
    rw [divideSteps_shift rpoly 7 0x80 (by decide)]
    rfl
  rw [divideSteps_add rpoly 7 1, hseven, divideSteps, divideSteps, divideStep, if_pos (by decide)]
  exact BitVec.zero_xor

/-- Settles O23: each entry is eight divide steps; the two named ones compute. -/
theorem tableHasItsKnownEntries : Obligations.TableHasItsKnownEntries := by
  refine ⟨fun poly w _ hw => ⟨?_, ?_⟩, ?_, ?_⟩
  · rw [tableAt_buildTable, tableEntry_eq_divideSteps _ _ hw (reflect_lt poly hw)]
    exact divideSteps_zero _ 8
  · rw [tableAt_buildTable, tableEntry_eq_divideSteps _ _ hw (reflect_lt poly hw)]
    exact divideSteps_topBit _
  · rw [tableAt_buildTable]
    decide
  · rw [tableAt_buildTable]
    decide

/-! ### The update as bit-serial division (R82, R83) -/

/-- A word is its low byte XOR the rest of it. -/
theorem eq_lowByte_xor_rest (v : Word64) : v = (v.setWidth 8).setWidth 64 ^^^ (v >>> 8 <<< 8) := by
  apply BitVec.eq_of_getLsbD_eq
  intro i hi
  simp only [BitVec.getLsbD_xor, BitVec.getLsbD_setWidth, BitVec.getLsbD_shiftLeft, BitVec.getLsbD_ushiftRight]
  by_cases h8 : i < 8
  · simp [h8, hi]
  · simp [h8, hi, show 8 + (i - 8) = i by omega]

/-- Eight divide steps of a word: those of its low byte, and the rest shifted down. -/
theorem divideSteps_eight (rpoly v : Word64) :
    divideSteps rpoly 8 v = divideSteps rpoly 8 ((v.setWidth 8).setWidth 64) ^^^ (v >>> 8) := by
  have hrest : divideSteps rpoly 8 (v >>> 8 <<< 8) = v >>> 8 := by
    rw [divideSteps_shift rpoly 8 _ fun i hi => by simp [hi]]
    apply BitVec.eq_of_getLsbD_eq
    intro i hi
    by_cases h56 : 8 + i < 64
    · simp [h56]
    · simp [h56, BitVec.getLsbD_of_ge v (8 + i) (by omega)]
  conv_lhs => rw [eq_lowByte_xor_rest v]
  rw [divideSteps_xor, hrest]

theorem setWidth_byte_ushiftRight_eight (b : Byte) : (b.setWidth 64) >>> 8 = 0#64 :=
  ushiftRight_eight_of_lt ((BitVec.toNat_setWidth_of_le (by decide)).trans_lt b.isLt)

/-- `UpdateByte` with the table built for a polynomial is bit-serial division by it. -/
theorem updateByte_buildTable (rpoly s : Word64) {w : Nat} (b : Byte) (hw : w ≤ 64) (hp : rpoly.toNat < 2 ^ w) :
    updateByte (buildTable rpoly w) s b = bitSerialByte rpoly s b := by
  rw [updateByte, tableAt_buildTable, tableEntry_eq_divideSteps _ _ hw hp, bitSerialByte,
    divideSteps_eight rpoly (s ^^^ b.setWidth 64), BitVec.ushiftRight_xor_distrib, setWidth_byte_ushiftRight_eight,
    BitVec.xor_zero]

/-- Settles O25: byte by byte, `updateByte_buildTable`. -/
theorem tableUpdateIsBitSerialDivision : Obligations.TableUpdateIsBitSerialDivision := by
  intro rpoly s w data _ hw hp _
  have hbyte : updateByte (buildTable rpoly w) = bitSerialByte rpoly :=
    funext fun v => funext fun b => updateByte_buildTable rpoly v b hw hp
  rw [updateBytes, hbyte]

/-! ### The bound (R94) -/

/-- A table whose entries are below `2^w` keeps the state below `2^w`. -/
theorem updateByte_lt {tab : Vector Word64 256} {w : Nat} (htab : ∀ i, (tableAt tab i).toNat < 2 ^ w) {s : Word64}
    (hs : s.toNat < 2 ^ w) (b : Byte) : (updateByte tab s b).toNat < 2 ^ w := by
  rw [updateByte, BitVec.toNat_xor]
  refine Nat.xor_lt_two_pow (htab _) (Nat.lt_of_le_of_lt ?_ hs)
  rw [BitVec.toNat_ushiftRight]
  exact Nat.shiftRight_le _ _

theorem updateBytes_lt {tab : Vector Word64 256} {w : Nat} (htab : ∀ i, (tableAt tab i).toNat < 2 ^ w) {s : Word64}
    (hs : s.toNat < 2 ^ w) (data : List Byte) : (updateBytes tab s data).toNat < 2 ^ w := by
  induction data generalizing s with
  | nil => exact hs
  | cons b bs ih => exact ih (updateByte_lt htab hs b)

theorem tableAt_buildTable_lt (rpoly : Word64) {w : Nat} (hw : w ≤ 64) (i : Byte) :
    (tableAt (buildTable rpoly w) i).toNat < 2 ^ w := by
  rw [tableAt_buildTable]
  exact tableEntry_lt rpoly w i hw

/-- Settles O26, value by value. -/
theorem crcValuesStayBelowWidth : Obligations.CrcValuesStayBelowWidth := by
  intro poly init rpoly s w b data _ hw
  exact ⟨reflect_lt poly hw, reflect_lt init hw, tableAt_buildTable_lt rpoly hw b,
    fun hs => updateBytes_lt (tableAt_buildTable_lt rpoly hw) hs data,
    tableEntry_eq_divideSteps rpoly b hw⟩

/-! ### Invariants kept by a step -/

/-- What a step keeps of a unit: a property that the zeroed unit has and every command keeps, of a part of the state
that is neither the port nor the responses. -/
theorem step_keeps {U : Type} (get : State → U) (P : U → Prop) (hport : ∀ (s : State) p, get (s.withPort p) = get s)
    (hrespond : ∀ (s : State) r, get (s.respond r) = get s) (hzero : ∀ s : State, P (get s.zeroUnits))
    (hexec : ∀ i s t, P (get s) → exec i s = .next t → P (get t)) {s t : State} (hs : P (get s))
    (h : step s = .next t) : P (get t) := by
  rcases step_cases h with rfl | ⟨rest, rfl⟩ | ⟨opc, rest, rfl⟩ | ⟨i, rest, hi⟩
  · exact hs
  · rw [hardwareReset, hport]
    exact hzero s
  · rwa [hrespond, hport]
  · exact hexec i _ t (by rwa [hport]) hi

/-! ### The CRC unit (R23) -/

theorem CrcUnit.zero_inv : CrcUnit.zero.Inv where
  table h := absurd rfl h
  config h := absurd rfl h
  reflected h := absurd rfl h
  bound := by
    refine ⟨by decide, by decide, by decide, fun i => ?_⟩
    rw [tableAt_zero]
    decide
  idleZero _ := rfl

/-- A legal configuration leaves a unit with the invariants. -/
theorem configureCrc_inv {c : CrcConfig} (h : legalConfig c = true) : (configureCrc c).Inv := by
  obtain ⟨hpos, hle, hpoly⟩ := (legalConfig_iff c).1 h
  have hwidth := configureCrc_width hle
  constructor
  case table => exact fun _ => by rw [hwidth]; rfl
  case config => exact fun _ => by rw [hwidth]; exact ⟨hpos, hle, hpoly⟩
  case reflected => exact fun _ => by rw [hwidth]; exact ⟨rfl, rfl⟩
  case bound =>
    rw [hwidth]
    exact ⟨reflect_lt _ hle, reflect_lt _ hle, reflect_lt _ hle, tableAt_buildTable_lt _ hle⟩
  case idleZero => exact fun hidle => nomatch hidle

/-- `CRC.UPDATE` changes the state word alone, which stays bounded. -/
theorem CrcUnit.Inv.update {u : CrcUnit} (h : u.Inv) (hready : u.phase = .ready) (data : List Byte) :
    CrcUnit.Inv { u with s := updateBytes u.tab u.s data } where
  table := h.table
  config := h.config
  reflected := h.reflected
  bound := by
    obtain ⟨hrpoly, hrinit, hs, htab⟩ := h.bound
    exact ⟨hrpoly, hrinit, updateBytes_lt htab hs data, htab⟩
  idleZero hidle := nomatch hready.symm.trans hidle

/-- `CRC.FINAL` and `CRC.FINALN` change the phase alone. -/
theorem CrcUnit.Inv.finalize {u : CrcUnit} (h : u.Inv) (hready : u.phase = .ready) :
    CrcUnit.Inv { u with phase := .finalized } := by
  have hbusy : u.phase ≠ .idle := by simp [hready]
  exact ⟨fun _ => h.table hbusy, fun _ => h.config hbusy, fun _ => h.reflected hbusy, h.bound, nofun⟩

theorem exec_keeps_crc_inv (i : Instr) (s t : State) (h : s.crc.Inv) (hexec : exec i s = .next t) : t.crc.Inv := by
  rcases exec_crc i s t hexec with ht | ht | ⟨c, hlegal, ht⟩ | ⟨hready, data, ht⟩ | ⟨hready, ht⟩ <;> rw [ht]
  · exact h
  · exact CrcUnit.zero_inv
  · exact configureCrc_inv hlegal
  · exact h.update hready data
  · exact h.finalize hready

/-- Settles O3: each way a command writes the unit keeps the invariants. -/
theorem stepKeepsCrcInvariants : Obligations.StepKeepsCrcInvariants :=
  fun _ _ => step_keeps State.crc CrcUnit.Inv (fun _ _ => rfl) (fun _ _ => rfl) (fun _ => CrcUnit.zero_inv)
    exec_keeps_crc_inv

end Sys2Proof.Machine
end

section
/-! PROOFS. The quarter round and the rounds (R101, R105 of spec/41_chacha20.md), and what `CC.SETUP` lays out (R104,
R111). -/

namespace Sys2Proof.Machine

/-! ### Rotations (R5) -/

/-- `ROTL32` is the rotation of the library. -/
theorem rotl32_eq_rotateLeft (v : Word32) {n : Nat} (hn : n < 32) : rotl32 v n = v.rotateLeft n := by
  rw [BitVec.rotateLeft_def, Nat.mod_eq_of_lt hn, rotl32]

/-- Rotating on to a whole turn gives the word back. -/
theorem rotl32_rest_rotl32 (v : Word32) {n : Nat} (h0 : 0 < n) (hn : n < 32) : rotl32 (rotl32 v n) (32 - n) = v := by
  have hn' : 32 - n < 32 := by omega
  rw [rotl32_eq_rotateLeft _ hn', rotl32_eq_rotateLeft _ hn]
  ext i hi
  simp only [BitVec.getElem_rotateLeft, Nat.mod_eq_of_lt hn', Nat.mod_eq_of_lt hn]
  by_cases hlow : i < 32 - n
  · simp [hlow, show ¬ 32 - (32 - n) + i < n by omega, show 32 - (32 - n) + i - n = i by omega]
  · simp [hlow, show i - (32 - n) < n by omega, show 32 - n + (i - (32 - n)) = i by omega]

/-- Rotating by the rest of a turn first, then by `n`, gives the word back too. -/
theorem rotl32_rotl32_rest (v : Word32) {n : Nat} (h0 : 0 < n) (hn : n < 32) : rotl32 (rotl32 v (32 - n)) n = v := by
  simpa only [show 32 - (32 - n) = n by omega] using rotl32_rest_rotl32 v (n := 32 - n) (by omega) (by omega)

/-! ### The quarter round (R101) -/

/-- Half a quarter round, with rotations by `m` and `n`. -/
def halfRound (m n : Nat) (q : QrWords) : QrWords :=
  let a := q.a + q.b
  let d := rotl32 (q.d ^^^ a) m
  let c := q.c + d
  let b := rotl32 (q.b ^^^ c) n
  ⟨a, b, c, d⟩

/-- Half a quarter round undone, last step first. -/
def halfRoundInv (m n : Nat) (q : QrWords) : QrWords :=
  let b := rotl32 q.b (32 - n) ^^^ q.c
  ⟨q.a - b, b, q.c - q.d, rotl32 q.d (32 - m) ^^^ q.a⟩

theorem quarterRound_eq_halfRounds : quarterRound = halfRound 8 7 ∘ halfRound 16 12 := rfl

theorem halfRound_bijective {m n : Nat} (hm0 : 0 < m) (hm : m < 32) (hn0 : 0 < n) (hn : n < 32) :
    Function.Bijective (halfRound m n) := by
  refine Function.bijective_iff_has_inverse.2 ⟨halfRoundInv m n, fun q => ?_, fun q => ?_⟩
  · simp only [halfRound, halfRoundInv, rotl32_rest_rotl32 _ hm0 hm, rotl32_rest_rotl32 _ hn0 hn, BitVec.xor_assoc,
      BitVec.xor_self, BitVec.xor_zero, BitVec.add_sub_cancel]
  · simp only [halfRound, halfRoundInv, BitVec.xor_assoc, BitVec.xor_self, BitVec.xor_zero, BitVec.sub_add_cancel,
      rotl32_rotl32_rest _ hm0 hm, rotl32_rotl32_rest _ hn0 hn]

theorem quarterRound_bijective : Function.Bijective quarterRound := by
  rw [quarterRound_eq_halfRounds]
  exact (halfRound_bijective (by decide) (by decide) (by decide) (by decide)).comp
    (halfRound_bijective (by decide) (by decide) (by decide) (by decide))

/-- On four different words the quarter round in place replaces those and leaves the others. -/
theorem quarterAt_getElem (w : Vector Word32 16) {a b c d : Fin 16} (h : [a, b, c, d].Nodup) :
    let q := quarterRound ⟨w[a.val], w[b.val], w[c.val], w[d.val]⟩
    let t := quarterAt w a b c d
    t[a.val] = q.a ∧ t[b.val] = q.b ∧ t[c.val] = q.c ∧ t[d.val] = q.d ∧
      ∀ j : Fin 16, j ∉ [a, b, c, d] → t[j.val] = w[j.val] := by
  simp only [List.nodup_cons, List.mem_cons, List.not_mem_nil, or_false, not_or, Fin.ext_iff] at h
  obtain ⟨⟨hab, hac, had⟩, ⟨hbc, hbd⟩, hcd, -⟩ := h
  refine ⟨?_, ?_, ?_, ?_, fun j hj => ?_⟩
  · simp [quarterAt, Ne.symm hab, Ne.symm hac, Ne.symm had]
  · simp [quarterAt, Ne.symm hbc, Ne.symm hbd]
  · simp [quarterAt, Ne.symm hcd]
  · simp [quarterAt]
  · simp only [List.mem_cons, List.not_mem_nil, or_false, not_or, Fin.ext_iff] at hj
    obtain ⟨ha, hb, hc, hd⟩ := hj
    simp [quarterAt, Ne.symm ha, Ne.symm hb, Ne.symm hc, Ne.symm hd]

/-! ### The rounds (R105) -/

theorem doubleRound_eq_foldl (w : Vector Word32 16) :
    doubleRound w = doubleRoundSteps.foldl (fun v q => quarterAt v q.1 q.2.1 q.2.2.1 q.2.2.2) w := rfl

theorem doubleRounds_eq_foldl (n : Nat) (w : Vector Word32 16) :
    doubleRounds n w = (List.replicate n doubleRoundSteps).flatten.foldl
      (fun v q => quarterAt v q.1 q.2.1 q.2.2.1 q.2.2.2) w := by
  induction n generalizing w with
  | zero => rfl
  | succ n ih =>
    rw [doubleRounds, ih, doubleRound_eq_foldl, List.replicate_succ, List.flatten_cons, List.foldl_append]

/-- Settles O37: the steps rotate as the library does, each half is undone step by step, and the indices are those of
`doubleRoundSteps`. -/
theorem quarterRoundIsTheStandardOne : Obligations.QuarterRoundIsTheStandardOne := by
  refine ⟨fun a b c d => ?_, quarterRound_bijective, by decide, by decide, fun w a b c d hnodup => ?_,
    doubleRounds_eq_foldl 10⟩
  · simp only [quarterRound, rotl32_eq_rotateLeft _ (show 16 < 32 by decide),
      rotl32_eq_rotateLeft _ (show 12 < 32 by decide), rotl32_eq_rotateLeft _ (show 8 < 32 by decide),
      rotl32_eq_rotateLeft _ (show 7 < 32 by decide)]
  · obtain ⟨ha, hb, hc, hd, hother⟩ := quarterAt_getElem w hnodup
    refine ⟨?_, hother⟩
    rw [ha, hb, hc, hd]

/-! ### CC.SETUP (R104, R111) -/

section
variable {s : State} (k : KeyNonce)

theorem exec_ccSetup_accepted (h : s.cc.phase = .unkeyed ∨ s.cc.phase = .keyed) : exec (.ccSetup (.fits k)) s =
    complete .ccSetup [] (s.withCc (instSetup params s.cc k.key k.nonce)) := by
  rcases h with h | h <;> simp only [exec, execCcSetup, withOperands_fits, h, ccSetupStatus, whenOk_ok]

theorem exec_ccSetup_idle (h : s.cc.phase = .idle) :
    exec (.ccSetup (.fits k)) s = raise .ccSetup .errNotInitialized s := by
  simp only [exec, execCcSetup, withOperands_fits, h, ccSetupStatus]
  exact whenOk_of_ne (by decide)

theorem exec_ccSetup_keystreaming (h : s.cc.phase = .keystreaming) :
    exec (.ccSetup (.fits k)) s = raise .ccSetup .errPhase s := by
  simp only [exec, execCcSetup, withOperands_fits, h, ccSetupStatus]
  exact whenOk_of_ne (by decide)

end

/-- The key words of the layout, byte by byte. -/
theorem layout_key_byte (cfg : Config) (key : Vector Byte 32) (nonce : Vector Byte 12) (ctr : Word64) (j : Fin 8)
    (k : Fin 4) :
    (layout cfg key nonce ctr)[4 + j.val].extractLsb' (8 * k.val) 8 = key[4 * j.val + k.val] := by
  have hword : (layout cfg key nonce ctr)[4 + j.val] = le32At key (4 * j.val) (by omega) := by
    match j with
    | 0 | 1 | 2 | 3 | 4 | 5 | 6 | 7 => rfl
  rw [hword, le32At_byte]

/-- Settles O40: the words of `layout` one by one, their bytes by `le32At_byte`. -/
theorem ccSetupLaysOutTheState : Obligations.CcSetupLaysOutTheState := by
  refine fun s key nonce => ⟨fun h => ⟨layout params key nonce s.cc.ctr0, exec_ccSetup_accepted ⟨key, nonce⟩ h,
    rfl, rfl, rfl, rfl, layout_key_byte params key nonce _, rfl, ⟨le32At nonce 0 (by decide), fun k => ?_, rfl⟩,
    le32At_byte nonce 4 (by decide), le32At_byte nonce 8 (by decide)⟩, exec_ccSetup_idle _, exec_ccSetup_keystreaming _⟩
  simpa only [Nat.zero_add] using le32At_byte nonce 0 (by decide) k

end Sys2Proof.Machine
end

section
/-! PROOFS. The keystream of an instance (R106, R107, R116, R117, R119 of spec/41_chacha20.md): where an instance stands
in the stream of a laid-out state, the byte it takes there, the counter pair as one number, and the commands that draw
the stream. -/

namespace Sys2Proof.Machine

/-! ### CryptBytes byte by byte (R107, R52) -/

theorem cryptBytes_cons (c : ChaCha) (b : Byte) (bs : List Byte) :
    cryptBytes c (b :: bs) =
      ((cryptBytes (cryptByte c b).1 bs).1, (cryptByte c b).2 :: (cryptBytes (cryptByte c b).1 bs).2) := rfl

/-- The instance after a byte does not depend on the byte. -/
theorem cryptByte_fst_eq (c : ChaCha) (x y : Byte) : (cryptByte c x).1 = (cryptByte c y).1 :=
  (cryptByte_xor c x).1.trans (cryptByte_xor c y).1.symm

/-- The instance afterwards depends on the number of bytes alone, output byte `k` on input byte `k` alone. -/
theorem cryptBytes_bytewise (c : ChaCha) {xs ys : List Byte} (hlen : xs.length = ys.length) :
    (cryptBytes c xs).1 = (cryptBytes c ys).1 ∧
      ∀ k : Nat, xs[k]? = ys[k]? → (cryptBytes c xs).2[k]? = (cryptBytes c ys).2[k]? := by
  induction xs generalizing c ys with
  | nil =>
    obtain rfl := List.length_eq_zero_iff.1 hlen.symm
    exact ⟨rfl, fun _ _ => rfl⟩
  | cons x xs ih =>
    cases ys with
    | nil => cases hlen
    | cons y ys =>
      obtain ⟨hinst, hout⟩ := ih (cryptByte c y).1 (Nat.succ.inj hlen)
      simp only [cryptBytes_cons, cryptByte_fst_eq c x y]
      refine ⟨hinst, fun k hk => ?_⟩
      cases k with
      | zero =>
        obtain rfl : x = y := by simpa using hk
        rfl
      | succ k => exact hout k (by simpa using hk)

/-- Settles O43: the two cases of `cryptByte`, and `cryptBytes_bytewise`. -/
theorem cryptBytesTakesOneWindowByteEach : Obligations.CryptBytesTakesOneWindowByteEach := by
  refine ⟨fun c b rest => ⟨rfl, fun hused => ?_, fun k hk => ?_⟩, fun c xs ys => cryptBytes_bytewise c⟩
  · rw [cryptBytes_cons, cryptByte_used b hused]
    rfl
  · rw [cryptBytes_cons, cryptByte_left b k hk]

/-! ### Where an instance stands in a stream (R107) -/

/-- Byte `m` of the keystream from the state words `st`. -/
def keystreamByte (st : Vector Word32 16) (m : Nat) : Byte :=
  (blockBytes (advanceCounters (m / 64) st))[m % 64]

/-- The instance has taken `m` keystream bytes since its state words were `st₀` and its window used up. -/
structure ChaCha.StreamAt (st₀ : Vector Word32 16) (m : Nat) (c : ChaCha) : Prop where
  off : c.off.val = if m = 0 then 64 else (m - 1) % 64 + 1
  st : c.st = advanceCounters ((m + 63) / 64) st₀
  ks : m ≠ 0 → c.ks = blockBytes (advanceCounters ((m - 1) / 64) st₀)

section
variable {st : Vector Word32 16} {m : Nat} {c : ChaCha}

/-- At a block boundary the window is used up; elsewhere byte `m mod 64` of it is next. -/
theorem ChaCha.StreamAt.off_cases (h : c.StreamAt st m) :
    (m % 64 = 0 ∧ c.off = 64) ∨ (m % 64 ≠ 0 ∧ c.off.val = m % 64) := by
  have hoff := h.off
  by_cases hm : m % 64 = 0
  · refine .inl ⟨hm, Fin.ext ?_⟩
    rw [hoff, show ((64 : Fin 65).val) = 64 from rfl]
    split <;> omega
  · refine .inr ⟨hm, ?_⟩
    rw [hoff, if_neg (by omega)]
    omega

/-- One byte moves the instance on by one and is XORed with byte `m` of the stream. -/
theorem ChaCha.StreamAt.cryptByte (h : c.StreamAt st m) (b : Byte) :
    (cryptByte c b).1.StreamAt st (m + 1) ∧ (Machine.cryptByte c b).2 = b ^^^ keystreamByte st m := by
  have hst := h.st
  rcases h.off_cases with ⟨hm, hoff⟩ | ⟨hm, hoff⟩
  · rw [show (m + 63) / 64 = m / 64 by omega] at hst
    have hmod : m % 64 + 1 = 1 := by omega
    rw [cryptByte_used b hoff]
    refine ⟨⟨?_, ?_, fun _ => ?_⟩, ?_⟩
    · exact (by simpa using hm : (1 : Fin 65).val = (m + 1 - 1) % 64 + 1)
    · rw [show (m + 1 + 63) / 64 = m / 64 + 1 by omega, advanceCounters, ← hst]
      rfl
    · rw [Nat.add_sub_cancel, ← hst]
      rfl
    · simp only [keystreamByte, hm, hst]
  · rw [cryptByte_left b ⟨m % 64, Nat.mod_lt _ (by decide)⟩ hoff]
    have hks := h.ks (by omega)
    rw [show (m - 1) / 64 = m / 64 by omega] at hks
    refine ⟨⟨?_, ?_, fun _ => ?_⟩, ?_⟩
    · rw [if_neg (by omega), Nat.add_sub_cancel]
    · rw [show (m + 1 + 63) / 64 = (m + 63) / 64 by omega]
      exact hst
    · rw [Nat.add_sub_cancel]
      exact hks
    · simp only [keystreamByte, hks]

/-- Any data moves the instance on by its length. -/
theorem ChaCha.StreamAt.cryptBytes (h : c.StreamAt st m) (bs : List Byte) :
    (cryptBytes c bs).1.StreamAt st (m + bs.length) := by
  induction bs generalizing c m with
  | nil => exact h
  | cons b bs ih =>
    rw [List.length_cons, show m + (bs.length + 1) = m + 1 + bs.length by omega]
    exact ih (h.cryptByte b).1

/-- Any data is XORed with the stream from byte `m` on. -/
theorem ChaCha.StreamAt.output (h : c.StreamAt st m) (bs : List Byte) :
    (Machine.cryptBytes c bs).2 = bs.mapIdx fun k b => b ^^^ keystreamByte st (m + k) := by
  induction bs generalizing c m with
  | nil => rfl
  | cons b bs ih =>
    obtain ⟨hnext, hbyte⟩ := h.cryptByte b
    rw [cryptBytes_cons, ih hnext, hbyte, List.mapIdx_cons]
    simp only [Nat.add_zero, Nat.add_right_comm m 1, Nat.add_assoc]

/-- An instance whose window is used up begins a stream. -/
theorem ChaCha.StreamAt.start (h : c.off = 64) : c.StreamAt c.st 0 :=
  ⟨congrArg Fin.val h, rfl, fun h0 => absurd rfl h0⟩

end

/-- A freshly keyed instance begins the stream of its laid-out state. -/
theorem instSetup_stream (cfg : Config) (ctr : Word64) (key : Vector Byte 32) (nonce : Vector Byte 12) :
    (instSetup cfg (instInit ctr) key nonce).StreamAt (layout cfg key nonce ctr) 0 :=
  ChaCha.StreamAt.start (c := instSetup cfg (instInit ctr) key nonce) rfl

/-- What the stream's XOR does it undoes. -/
theorem mapIdx_xor_twice (f : Nat → Byte) (bs : List Byte) :
    (bs.mapIdx fun k b => b ^^^ f k).mapIdx (fun k b => b ^^^ f k) = bs := by
  apply List.ext_getElem?
  intro k
  simp only [List.getElem?_mapIdx, Option.map_map]
  cases bs[k]? <;> simp

/-! ### CC.INIT, CC.SETUP, CC.ENC and CC.DEC in a row (R116) -/

/-- The command of one piece: `CC.ENC` or `CC.DEC`. -/
def cryptCommand (piece : Bool × List Byte) : Instr :=
  if piece.1 then .ccEnc piece.2 else .ccDec piece.2

/-- Both commands answer `CryptBytes` of the instance. -/
theorem exec_cryptCommand (piece : Bool × List Byte) {s : State}
    (h : s.cc.phase = .keyed ∨ s.cc.phase = .keystreaming) :
    exec (cryptCommand piece) s = .next ((s.withCc (cryptBytes s.cc piece.2).1).respond
      ⟨opcodeByte (cryptCommand piece).opcode, .ok, (cryptBytes s.cc piece.2).2⟩) := by
  obtain ⟨enc, data⟩ := piece
  cases enc with
  | true => exact exec_ccEnc_accepted data h
  | false => exact exec_ccDec_accepted data h

/-- The state after `CC.INIT` and `CC.SETUP`, which complete in every state. -/
def ccOpened (ctr : Word64) (k : KeyNonce) (s : State) : State :=
  ((s.withCc (instSetup params (instInit ctr) k.key k.nonce)).respond ⟨0x20, .ok, []⟩).respond ⟨0x21, .ok, []⟩

theorem performAll_ccOpen (ctr : Word64) (k : KeyNonce) (is : List Instr) (s : State) :
    performAll (.ccInit (.fits ctr) :: .ccSetup (.fits k) :: is) s = performAll is (ccOpened ctr k s) := by
  rw [performAll_cons_of_next (exec_ccInit_fits ctr s), performAll_cons_of_next (exec_ccSetup_accepted k (.inl rfl))]
  rfl

/-- After them either command draws the stream of the laid-out state from its byte 0. -/
theorem performAll_crypt_opened (ctr : Word64) (k : KeyNonce) (piece : Bool × List Byte) (s : State) :
    (performAll [.ccInit (.fits ctr), .ccSetup (.fits k), cryptCommand piece] s).responses =
      s.responses ++ [⟨0x20, .ok, []⟩, ⟨0x21, .ok, []⟩, ⟨opcodeByte (cryptCommand piece).opcode, .ok,
        piece.2.mapIdx fun i b => b ^^^ keystreamByte (layout params k.key k.nonce ctr) i⟩] := by
  have hout := (instSetup_stream params ctr k.key k.nonce).output piece.2
  simp only [Nat.zero_add] at hout
  rw [performAll_ccOpen, performAll_cons_of_next (exec_cryptCommand piece (.inl rfl)), ← hout]
  simp [ccOpened]

/-- Settles O44: the stream of the laid-out state from its byte 0. -/
theorem keystreamByteComesFromItsBlock : Obligations.KeystreamByteComesFromItsBlock := by
  refine fun s ctr key nonce data => ⟨_, performAll_crypt_opened ctr ⟨key, nonce⟩ (true, data) s,
    List.length_mapIdx, fun m hm => ?_⟩
  rw [List.getElem?_mapIdx, List.getElem?_eq_getElem hm, List.getD_eq_getElem _ _ hm]
  rfl

/-- Settles O46: both commands draw the same stream, and the XOR with it is its own inverse. -/
theorem decryptInvertsEncrypt : Obligations.DecryptInvertsEncrypt := by
  refine fun s s' ctr k m => ⟨_, performAll_crypt_opened ctr k (true, m) s, ?_⟩
  have hdec := performAll_crypt_opened ctr k
    (false, m.mapIdx fun i b => b ^^^ keystreamByte (layout params k.key k.nonce ctr) i) s'
  rwa [mapIdx_xor_twice] at hdec

/-! ### Data in pieces (R117) -/

/-- `CryptBytes` leaves the phase or sets it to `Keystreaming`. -/
theorem cryptBytes_phase_cases (c : ChaCha) (bs : List Byte) :
    (cryptBytes c bs).1.phase = c.phase ∨ (cryptBytes c bs).1.phase = .keystreaming := by
  induction bs generalizing c with
  | nil => exact .inl rfl
  | cons b bs ih =>
    have hbyte : (cryptByte c b).1.phase = c.phase ∨ (cryptByte c b).1.phase = .keystreaming := by
      unfold cryptByte
      split
      · exact .inr rfl
      · exact .inl rfl
    rcases hbyte with hbyte | hbyte
    · simpa only [cryptBytes_cons, hbyte] using ih (cryptByte c b).1
    · exact .inr (cryptBytes_phase bs hbyte)

theorem cryptBytes_accepted {c : ChaCha} (bs : List Byte) (h : c.phase = .keyed ∨ c.phase = .keystreaming) :
    (cryptBytes c bs).1.phase = .keyed ∨ (cryptBytes c bs).1.phase = .keystreaming := by
  rcases cryptBytes_phase_cases c bs with hp | hp
  · rwa [hp]
  · exact .inr hp

/-- The pieces together draw what the whole data draws. -/
theorem performAll_cryptCommands (pieces : List (Bool × List Byte)) {s : State}
    (h : s.cc.phase = .keyed ∨ s.cc.phase = .keystreaming) :
    ∃ outs : List Response,
      (performAll (pieces.map cryptCommand) s).responses = s.responses ++ outs ∧
      (outs.map Response.out).flatten = (cryptBytes s.cc (pieces.map Prod.snd).flatten).2 ∧
      (∀ r ∈ outs, r.status = .ok) ∧
      (performAll (pieces.map cryptCommand) s).cc = (cryptBytes s.cc (pieces.map Prod.snd).flatten).1 := by
  induction pieces generalizing s with
  | nil => exact ⟨[], (List.append_nil _).symm, rfl, by simp, rfl⟩
  | cons piece pieces ih =>
    obtain ⟨outs, hresp, hout, hok, hcc⟩ :=
      ih (s := (s.withCc (cryptBytes s.cc piece.2).1).respond
        ⟨opcodeByte (cryptCommand piece).opcode, .ok, (cryptBytes s.cc piece.2).2⟩) (cryptBytes_accepted piece.2 h)
    rw [List.map_cons, performAll_cons_of_next (exec_cryptCommand piece h), List.map_cons, List.flatten_cons,
      cryptBytes_append]
    refine ⟨⟨opcodeByte (cryptCommand piece).opcode, .ok, (cryptBytes s.cc piece.2).2⟩ :: outs, ?_, ?_, ?_, hcc⟩
    · rw [hresp, State.respond_responses, State.withCc_responses, List.append_assoc, List.singleton_append]
    · rw [List.map_cons, List.flatten_cons, hout]
      rfl
    · simpa using hok

/-- Settles O47: the pieces and the one command draw the same bytes. -/
theorem cryptIsChunkIndependent : Obligations.CryptIsChunkIndependent := by
  intro s chunks h
  obtain ⟨outs, hresp, hout, hok, hcc⟩ := performAll_cryptCommands chunks h
  rw [performAll_cons_of_next (exec_ccEnc_accepted _ h)]
  exact ⟨outs, hresp, by rw [hout]; rfl, hok, hcc⟩

/-! ### The counter pair (R119) -/

/-- `ST[13]` and `ST[12]` as one 64-bit number. -/
def counterPair (st : Vector Word32 16) : Nat := st[13].toNat * 2 ^ 32 + st[12].toNat

theorem counterPair_lt (st : Vector Word32 16) : counterPair st < 2 ^ 64 := by
  have h12 := st[12].isLt
  have h13 := st[13].isLt
  rw [counterPair]
  omega

/-- The pair determines its two words. -/
theorem words_of_counterPair_eq {st st' : Vector Word32 16} (h : counterPair st = counterPair st') :
    st[12] = st'[12] ∧ st[13] = st'[13] := by
  have h12 := st[12].isLt
  have h12' := st'[12].isLt
  simp only [counterPair] at h
  exact ⟨BitVec.eq_of_toNat_eq (by omega), BitVec.eq_of_toNat_eq (by omega)⟩

/-- One counter step adds one to the pair, modulo 2^64. -/
theorem counterPair_advanceCounter (st : Vector Word32 16) :
    counterPair (advanceCounter st) = (counterPair st + 1) % 2 ^ 64 := by
  have h12 := st[12].isLt
  have h13 := st[13].isLt
  have hone : (1 : Word32).toNat = 1 := rfl
  simp only [counterPair, advanceCounter_low, advanceCounter_high]
  by_cases hwrap : st[12] = 0xFFFFFFFF
  · rw [if_pos ((word32_add_one_eq_zero_iff _).2 hwrap), BitVec.toNat_add, BitVec.toNat_add, hone,
      show st[12].toNat = 0xFFFFFFFF from congrArg BitVec.toNat hwrap]
    omega
  · have hne : st[12].toNat ≠ 0xFFFFFFFF := fun h => hwrap (BitVec.eq_of_toNat_eq h)
    rw [if_neg (fun h => hwrap ((word32_add_one_eq_zero_iff _).1 h)), BitVec.toNat_add, hone]
    omega

theorem counterPair_advanceCounters (n : Nat) (st : Vector Word32 16) :
    counterPair (advanceCounters n st) = (counterPair st + n) % 2 ^ 64 := by
  induction n with
  | zero => rw [advanceCounters, Nat.add_zero, Nat.mod_eq_of_lt (counterPair_lt st)]
  | succ n ih =>
    rw [advanceCounters, counterPair_advanceCounter, ih]
    omega

/-- Under `NONCE_COMBINE = add` the laid-out pair is nonce word 0 and the counter as one sum. -/
theorem counterPair_layout {cfg : Config} (key : Vector Byte 32) (nonce : Vector Byte 12) (ctr : Word64)
    (h : cfg.nonceCombine = .add) :
    counterPair (layout cfg key nonce ctr) = ((le32At nonce 0 (by decide)).toNat * 2 ^ 32 + ctr.toNat) % 2 ^ 64 := by
  have h12 : (layout cfg key nonce ctr)[12] = ctr.extractLsb' 0 32 := rfl
  have h13 : (layout cfg key nonce ctr)[13] = le32At nonce 0 (by decide) + ctr.extractLsb' 32 32 := by
    rw [show (layout cfg key nonce ctr)[13] =
      combine cfg.nonceCombine (le32At nonce 0 (by decide)) (ctr.extractLsb' 32 32) from rfl, h, combine]
  have hctr := ctr.isLt
  rw [counterPair, h12, h13, BitVec.toNat_add, BitVec.extractLsb'_toNat, BitVec.extractLsb'_toNat,
    Nat.shiftRight_eq_div_pow, Nat.shiftRight_eq_div_pow]
  omega

/-- Vectors with the same four bytes at `o` have the same word there. -/
theorem le32At_congr {n : Nat} {b b' : Vector Byte n} (o : Nat) (ho : o + 3 < n)
    (h : ∀ k : Fin 4, b[o + k.val] = b'[o + k.val]) : le32At b o ho = le32At b' o ho := by
  have h0 : b[o] = b'[o] := h 0
  have h1 : b[o + 1] = b'[o + 1] := h 1
  have h2 : b[o + 2] = b'[o + 2] := h 2
  have h3 : b[o + 3] = b'[o + 3] := h 3
  simp only [le32At, h0, h1, h2, h3]

/-- Configurations with one combined word and all else equal lay out one state. -/
theorem layout_eq_of_combined {cfg : Config} (key : Vector Byte 32) {nonce nonce' : Vector Byte 12}
    {ctr ctr' : Word64} (h : cfg.nonceCombine = .add)
    (hcombined : le32At nonce 0 (by decide) + ctr.extractLsb' 32 32 =
      le32At nonce' 0 (by decide) + ctr'.extractLsb' 32 32)
    (hlow : ctr.extractLsb' 0 32 = ctr'.extractLsb' 0 32) (hrest : ∀ j : Fin 8, nonce[4 + j.val] = nonce'[4 + j.val]) :
    layout cfg key nonce ctr = layout cfg key nonce' ctr' := by
  have h4 : le32At nonce 4 (by decide) = le32At nonce' 4 (by decide) :=
    le32At_congr 4 _ fun k => hrest ⟨k.val, by omega⟩
  have h8 : le32At nonce 8 (by decide) = le32At nonce' 8 (by decide) :=
    le32At_congr 8 _ fun k => by simpa only [← Nat.add_assoc] using hrest ⟨4 + k.val, by omega⟩
  simp only [layout, h, combine, hcombined, hlow, h4, h8]

/-- Settles O45: the pair counts blocks from the laid-out sum; equal states have equal streams. -/
theorem runningCounterCountsBlocks : Obligations.RunningCounterCountsBlocks := by
  refine fun cfg key nonce ctr n hadd => ⟨?_, fun nonce' ctr' hcombined hlow hrest data => ?_, ?_⟩
  · show counterPair (advanceCounters n (layout cfg key nonce ctr)) = _
    rw [counterPair_advanceCounters, counterPair_layout key nonce ctr hadd, Nat.mod_add_mod]
  · rw [(instSetup_stream cfg ctr key nonce).output, (instSetup_stream cfg ctr' key nonce').output,
      layout_eq_of_combined key hadd hcombined hlow hrest]
  · refine words_of_counterPair_eq ?_
    rw [counterPair_advanceCounters, counterPair_advanceCounters, ← Nat.add_assoc, Nat.add_mod_right]

end Sys2Proof.Machine
end

section
/-! PROOFS. The invariants of a ChaCha20 instance (R26 of spec/10_state.md) as a place in the stream of its laid-out
state, kept by every step. -/

namespace Sys2Proof.Machine

/-! ### The invariants as a place in a stream (R26) -/

section
variable {cfg : Config} {c : ChaCha}

theorem ChaCha.zero_inv : ChaCha.zero.Inv cfg :=
  ⟨fun _ => rfl, nofun, nofun, nofun⟩

theorem instInit_inv (ctr : Word64) : (instInit ctr).Inv cfg :=
  ⟨nofun, fun _ => rfl, nofun, nofun⟩

/-- A keyed instance with the invariants stands somewhere in the stream of its laid-out state; at the start of it
exactly in `Keyed`. -/
theorem ChaCha.Inv.stream (h : c.Inv cfg) (hphase : c.phase = .keyed ∨ c.phase = .keystreaming) :
    ∃ m, c.StreamAt (layout cfg c.key c.nonce c.ctr0) m ∧ c.phase = if m = 0 then .keyed else .keystreaming := by
  rcases hphase with hkeyed | hstreaming
  · obtain ⟨hoff, hst⟩ := h.keyed hkeyed
    exact ⟨0, ⟨congrArg Fin.val hoff, hst, fun h0 => absurd rfl h0⟩, hkeyed⟩
  · obtain ⟨n, hst, hks, hoff⟩ := h.keystreaming hstreaming
    have hpos : c.off.val ≠ 0 := Fin.val_ne_iff.2 hoff
    refine ⟨64 * n + c.off.val, ⟨?_, ?_, fun _ => ?_⟩, ?_⟩
    · rw [if_neg (by omega)]
      omega
    · rw [show (64 * n + c.off.val + 63) / 64 = n + 1 by omega]
      exact hst
    · rw [show (64 * n + c.off.val - 1) / 64 = n by omega]
      exact hks
    · rw [if_neg (by omega)]
      exact hstreaming

/-- Conversely, such an instance has the invariants. -/
theorem ChaCha.StreamAt.inv {m : Nat} (h : c.StreamAt (layout cfg c.key c.nonce c.ctr0) m)
    (hphase : c.phase = if m = 0 then .keyed else .keystreaming) : c.Inv cfg := by
  obtain ⟨hoff, hst, hks⟩ := h
  by_cases hm : m = 0
  · subst hm
    rw [if_pos rfl] at hphase hoff
    exact ⟨fun hp => by simp [hphase] at hp, fun hp => by simp [hphase] at hp, fun _ => ⟨Fin.ext hoff, hst⟩,
      fun hp => by simp [hphase] at hp⟩
  · rw [if_neg hm] at hphase hoff
    refine ⟨fun hp => by simp [hphase] at hp, fun hp => by simp [hphase] at hp, fun hp => by simp [hphase] at hp,
      fun _ => ⟨(m - 1) / 64, ?_, hks hm, ?_⟩⟩
    · rw [hst, show (m + 63) / 64 = (m - 1) / 64 + 1 by omega]
      rfl
    · rw [← Fin.val_ne_iff, hoff]
      exact Nat.succ_ne_zero _

/-- Setup begins a stream, since in `Unkeyed` and `Keyed` the window is used up. -/
theorem ChaCha.Inv.setup (h : c.Inv cfg) (hphase : c.phase = .unkeyed ∨ c.phase = .keyed) (key : Vector Byte 32)
    (nonce : Vector Byte 12) : (instSetup cfg c key nonce).Inv cfg := by
  have hoff : c.off = 64 := by
    rcases hphase with hp | hp
    · rw [h.unkeyed hp]
      rfl
    · exact (h.keyed hp).1
  exact ChaCha.StreamAt.inv (m := 0) (ChaCha.StreamAt.start (c := instSetup cfg c key nonce) hoff) rfl

/-- `CryptBytes` moves the instance on in its stream. -/
theorem ChaCha.Inv.crypt (h : c.Inv cfg) (hphase : c.phase = .keyed ∨ c.phase = .keystreaming) (bs : List Byte) :
    (cryptBytes c bs).1.Inv cfg := by
  obtain ⟨m, hstream, hm⟩ := h.stream hphase
  obtain ⟨hkey, hnonce, hctr0, -⟩ := cryptBytes_frame c bs
  have hnext := hstream.cryptBytes bs
  rw [← hkey, ← hnonce, ← hctr0] at hnext
  refine hnext.inv ?_
  by_cases hnil : bs = []
  · subst hnil
    exact hm
  · rw [if_neg (by have := List.length_pos_iff.2 hnil; omega)]
    refine cryptBytes_phase_of_ne_nil hnil ?_
    by_cases h0 : m = 0
    · subst h0
      exact .inl (Fin.ext hstream.off)
    · exact .inr (by rw [hm, if_neg h0])

end

theorem exec_keeps_cc_inv (i : Instr) (s t : State) (h : s.cc.Inv params) (hexec : exec i s = .next t) :
    t.cc.Inv params := by
  rcases exec_cc i s t hexec with ht | ht | ⟨ctr, ht⟩ | ⟨hphase, key, nonce, ht⟩ | ⟨hphase, data, ht⟩ <;> rw [ht]
  · exact h
  · exact ChaCha.zero_inv
  · exact instInit_inv ctr
  · exact h.setup hphase key nonce
  · exact h.crypt hphase data

/-- Settles O4: each way a command writes the instance keeps the invariants. -/
theorem stepKeepsChaChaInvariants : Obligations.StepKeepsChaChaInvariants :=
  fun _ _ => step_keeps State.cc (ChaCha.Inv params) (fun _ _ => rfl) (fun _ _ => rfl) (fun _ => ChaCha.zero_inv)
    exec_keeps_cc_inv

end Sys2Proof.Machine
end

section
/-! PROOFS. One block through `Transform` (R130 of spec/42_roundrobin256.md), the squeeze (R134), and the invariants of
the RR unit (R28 of spec/10_state.md), kept by every step. -/

namespace Sys2Proof.Machine

/-! ### One whole block (R107, R130) -/

theorem ChaCha.eq_of_fields {c d : ChaCha} (hphase : c.phase = d.phase) (hkey : c.key = d.key)
    (hnonce : c.nonce = d.nonce) (hctr0 : c.ctr0 = d.ctr0) (hst : c.st = d.st) (hks : c.ks = d.ks)
    (hoff : c.off = d.off) : c = d := by
  cases c
  cases d
  simp only [ChaCha.mk.injEq]
  exact ⟨hphase, hkey, hnonce, hctr0, hst, hks, hoff⟩

/-- From a used-up window a block of data generates one block and uses it up. -/
theorem cryptBytes_block {c : ChaCha} (hoff : c.off = 64) {bs : List Byte} (hlen : bs.length = 64) :
    (cryptBytes c bs).1 = { blockNext c with off := 64 } ∧
      (cryptBytes c bs).2 = bs.mapIdx fun k b => b ^^^ keystreamByte c.st k := by
  have hstart := ChaCha.StreamAt.start hoff
  have hend := hstart.cryptBytes bs
  have hout := hstart.output bs
  obtain ⟨hkey, hnonce, hctr0, -⟩ := cryptBytes_frame c bs
  have hne : bs ≠ [] := List.ne_nil_of_length_pos (by omega)
  simp only [hlen, Nat.zero_add] at hend hout
  exact ⟨ChaCha.eq_of_fields (cryptBytes_phase_of_ne_nil hne (.inl hoff)) hkey hnonce hctr0 hend.st
    (hend.ks (by decide)) (Fin.ext hend.off), hout⟩

/-- The first 64 bytes of a stream are its first block. -/
theorem keystreamByte_of_lt (st : Vector Word32 16) {k : Nat} (hk : k < 64) :
    keystreamByte st k = (blockBytes st)[k] := by
  simp only [keystreamByte, Nat.div_eq_of_lt hk, Nat.mod_eq_of_lt hk, advanceCounters]

theorem transform_cc_used {r : RrUnit} (hoff : r.cc.off = 64) : (transform r).cc = { blockNext r.cc with off := 64 } :=
  (cryptBytes_block hoff r.blk.length_toList).1

/-- From a used-up window the block is XORed with the block of the instance's state. -/
theorem transform_blk_used {r : RrUnit} (hoff : r.cc.off = 64) (i : Nat) (hi : i < 64) :
    (transform r).blk[i] = r.blk[i] ^^^ (blockBytes r.cc.st)[i] := by
  have hblk := congrArg (·[i]?) (transform_blk r)
  simp only [(cryptBytes_block hoff r.blk.length_toList).2, List.getElem?_mapIdx] at hblk
  simpa [hi, keystreamByte_of_lt _ hi] using hblk

/-! ### The fold (R130) -/

/-- One turn of the fold: byte `i` of the block onto byte `i mod 44` of the accumulator. -/
def foldByte (blk : Vector Byte 64) (acc : Vector Byte 44) (i : Fin 64) : Vector Byte 44 :=
  acc.set (i.val % 44) (acc[i.val % 44]'(by omega) ^^^ blk[i.val]) (by omega)

theorem foldBlock_eq_foldl (acc : Vector Byte 44) (blk : Vector Byte 64) :
    foldBlock acc blk = (List.finRange 64).foldl (foldByte blk) acc := rfl

/-- Only the turns that reach byte `j` matter to it. -/
theorem foldl_foldByte_getElem (blk : Vector Byte 64) (is : List (Fin 64)) (acc : Vector Byte 44) (j : Fin 44) :
    (is.foldl (foldByte blk) acc)[j.val] =
      (is.filter fun i => i.val % 44 = j.val).foldl (fun a i => a ^^^ blk[i.val]) acc[j.val] := by
  induction is generalizing acc with
  | nil => rfl
  | cons i is ih =>
    rw [List.foldl_cons, ih]
    by_cases hi : i.val % 44 = j.val
    · simp [foldByte, hi]
    · simp [foldByte, hi]

/-- Bytes 0 to 19 take two bytes of the block. -/
theorem foldBlock_low (acc : Vector Byte 44) (blk : Vector Byte 64) (j : Fin 20) :
    (foldBlock acc blk)[j.val] = acc[j.val] ^^^ (blk[j.val] ^^^ blk[j.val + 44]) := by
  have hturns : ∀ j : Fin 20, ((List.finRange 64).filter fun i => i.val % 44 = j.val) =
      [⟨j.val, by omega⟩, ⟨j.val + 44, by omega⟩] := by decide
  rw [foldBlock_eq_foldl, foldl_foldByte_getElem blk _ acc ⟨j.val, by omega⟩, hturns j, ← BitVec.xor_assoc]
  rfl

/-- Bytes 20 to 43 take one. -/
theorem foldBlock_high (acc : Vector Byte 44) (blk : Vector Byte 64) (j : Fin 24) :
    (foldBlock acc blk)[20 + j.val] = acc[20 + j.val] ^^^ blk[20 + j.val] := by
  have hturns : ∀ j : Fin 24, ((List.finRange 64).filter fun i => i.val % 44 = 20 + j.val) =
      [⟨20 + j.val, by omega⟩] := by decide
  rw [foldBlock_eq_foldl, foldl_foldByte_getElem blk _ acc ⟨20 + j.val, by omega⟩, hturns j]
  rfl

/-- Settles O50: the fold's two ranges, and the block from a used-up window. -/
theorem transformEncryptsAndFolds : Obligations.TransformEncryptsAndFolds :=
  fun r => ⟨transform_blk r, transform_cc r, foldBlock_low r.acc _, foldBlock_high r.acc _, rfl, rfl, rfl, rfl,
    fun hoff => ⟨transform_cc_used hoff, fun i => transform_blk_used hoff i.val i.isLt⟩⟩

/-! ### Squeeze (R134) -/

/-- The digest is the first half of the first block of the fresh instance. -/
theorem squeeze_eq_take (cfg : Config) (acc : Vector Byte 44) (len : Word64) :
    squeeze cfg acc len =
      (blockBytes (layout cfg (accKey acc) (accIv acc) (lengthCounter cfg len))).toList.take 32 := by
  rw [squeeze, (instSetup_stream cfg (lengthCounter cfg len) (accKey acc) (accIv acc)).output]
  apply List.ext_getElem
  · simp
  · intro k hk _
    have hk32 : k < 32 := by simpa using hk
    simp only [List.getElem_mapIdx, List.getElem_replicate, List.getElem_take, Vector.getElem_toList, Nat.zero_add,
      keystreamByte_of_lt _ (show k < 64 by omega), BitVec.ofNat_eq_ofNat, BitVec.zero_xor]

/-- `BSWAP64` reverses the eight bytes. -/
theorem bswap64_byte (v : Word64) (k : Fin 8) :
    (bswap64 v).extractLsb' (8 * k.val) 8 = v.extractLsb' (8 * (7 - k.val)) 8 := by
  have hk : 7 - k.val < 8 := by omega
  apply Option.some.inj
  rw [show 8 * k.val = 56 - 8 * (7 - k.val) by omega, ← be64_getElem? _ _ hk, bswap64, be64_fromBE _ (by simp),
    List.getElem?_map, List.getElem?_range hk]
  rfl

/-- Settles O54: the operands of the fresh instance are the accumulator's bytes and the length counter. -/
theorem squeezeTakesTheFirstBlock : Obligations.SqueezeTakesTheFirstBlock := by
  refine fun cfg acc len => ⟨accKey acc, accIv acc, lengthCounter cfg len, fun j => by simp [accKey],
    fun j => by simp [accIv], fun hswap => ?_, fun hplain => ?_, squeeze_eq_take cfg acc len⟩
  · rw [lengthCounter, if_pos hswap]
    exact bswap64_byte len
  · rw [lengthCounter, if_neg (by simp [hplain])]

/-! ### The RR unit (R28) -/

theorem RrUnit.zero_inv {cfg : Config} : RrUnit.zero.Inv cfg :=
  ⟨nofun, fun _ => rfl, nofun, ChaCha.zero_inv⟩

theorem rrInitial_inv {cfg : Config} : (rrInitial cfg).Inv cfg :=
  ⟨fun _ => ⟨rfl, rfl, rfl, rfl, rfl, 0, rfl, rfl, rfl⟩, nofun, nofun,
    (instInit_inv 0).setup (.inl rfl) _ _⟩

/-- Folding a full block counts it and takes one more block of the inner instance. -/
theorem RrUnit.Inv.fold {cfg : Config} {r : RrUnit} (h : r.Inv cfg) (hphase : r.phase = .absorbing)
    (blk : Vector Byte 64) :
    RrUnit.Inv cfg { transform { r with blk := blk } with len := r.len + 64, idx := 0 } := by
  obtain ⟨houtsz, hoff, hkey, hnonce, hctr0, n, hlen, hst, hccphase⟩ := h.absorbing hphase
  have hcc : (transform { r with blk := blk }).cc = { blockNext r.cc with off := 64 } := transform_cc_used hoff
  have hkeyed : r.cc.phase = .keyed ∨ r.cc.phase = .keystreaming := by
    rw [hccphase]
    split
    · exact .inl rfl
    · exact .inr rfl
  refine ⟨fun _ => ?_, (fun hp => nomatch hphase.symm.trans hp), (fun hp => nomatch hphase.symm.trans hp),
    h.inner.crypt hkeyed _⟩
  simp only [hcc, true_and]
  refine ⟨houtsz, hkey, hnonce, hctr0, n + 1, ?_, congrArg advanceCounter hst, rfl⟩
  rw [hlen, Nat.mul_add, BitVec.ofNat_add]
  rfl

/-- Absorbing a byte keeps the invariants: a stored byte is in none of them. -/
theorem RrUnit.Inv.absorbByte {cfg : Config} {r : RrUnit} (h : r.Inv cfg) (hphase : r.phase = .absorbing) (b : Byte) :
    (absorbByte r b).Inv cfg := by
  rcases (show r.idx.val ≤ 63 by omega).lt_or_eq with hidx | hidx
  · rw [absorbByte_store r b hidx]
    exact ⟨h.absorbing, (fun hp => nomatch hphase.symm.trans hp), (fun hp => nomatch hphase.symm.trans hp), h.inner⟩
  · rw [absorbByte_fold r b hidx]
    exact h.fold hphase _

theorem RrUnit.Inv.absorb {cfg : Config} {r : RrUnit} (h : r.Inv cfg) (hphase : r.phase = .absorbing)
    (data : List Byte) : (absorb r data).Inv cfg := by
  induction data generalizing r with
  | nil => exact h
  | cons b bs ih => exact ih (h.absorbByte hphase b) ((absorbByte_frame r b).1.trans hphase)

/-- `RR.FINAL` keeps the output size, which in `Absorbing` is 32. -/
theorem RrUnit.Inv.finalize {cfg : Config} {r : RrUnit} (h : r.Inv cfg) (hphase : r.phase = .absorbing) :
    (rrFinalized r).Inv cfg := by
  obtain ⟨houtsz, -⟩ := h.absorbing hphase
  exact ⟨nofun, nofun, fun _ => by rw [rrFinalized, houtsz], ChaCha.zero_inv⟩

theorem exec_keeps_rr_inv (i : Instr) (s t : State) (h : s.rr.Inv params) (hexec : exec i s = .next t) :
    t.rr.Inv params := by
  rcases exec_rr i s t hexec with ht | ht | ht | ⟨hphase, data, ht⟩ | ⟨hphase, ht⟩ <;> rw [ht]
  · exact h
  · exact RrUnit.zero_inv
  · exact rrInitial_inv
  · exact h.absorb hphase data
  · exact h.finalize hphase

/-- Settles O5: each way a command writes the unit keeps the invariants. -/
theorem stepKeepsRoundRobinInvariants : Obligations.StepKeepsRoundRobinInvariants :=
  fun _ _ => step_keeps State.rr (RrUnit.Inv params) (fun _ _ => rfl) (fun _ _ => rfl) (fun _ => RrUnit.zero_inv)
    exec_keeps_rr_inv

/-- Settles O2: the three zeroed units have their invariants. -/
theorem resetMeetsUnitInvariants : Obligations.ResetMeetsUnitInvariants :=
  ⟨CrcUnit.zero_inv, ChaCha.zero_inv, RrUnit.zero_inv⟩

end Sys2Proof.Machine
end

section
/-! PROOFS. RoundRobin256 over a whole message (R139 to R141 of spec/42_roundrobin256.md): the messages in pieces, and
what the unit holds after any message, as the terms of the digest function. -/

namespace Sys2Proof.Machine

/-! ### RR.UPDATE in pieces (R139) -/

/-- The updates absorb the concatenation and are answered `OK` each. -/
theorem performAll_rrUpdates (chunks : List (List Byte)) {s : State} (h : s.rr.phase = .absorbing) :
    (performAll (chunks.map .rrUpdate) s).rr = absorb s.rr chunks.flatten ∧
      (performAll (chunks.map .rrUpdate) s).responses =
        s.responses ++ chunks.map fun _ => ⟨0x31, .ok, []⟩ := by
  induction chunks generalizing s with
  | nil => exact ⟨rfl, (List.append_nil _).symm⟩
  | cons chunk chunks ih =>
    obtain ⟨hrr, hresp⟩ := ih (s := (s.withRr (absorb s.rr chunk)).respond ⟨opcodeByte .rrUpdate, .ok, []⟩)
      ((absorb_frame s.rr chunk).1.trans h)
    rw [List.map_cons, performAll_cons_of_next (exec_rrUpdate_absorbing chunk h), hrr, hresp, List.flatten_cons,
      absorb_append]
    exact ⟨rfl, List.append_assoc _ _ _⟩

theorem performAll_rrFinal {s : State} (h : s.rr.phase = .absorbing) :
    (performAll [.rrFinal (.fits ())] s).responses = s.responses ++ [⟨0x32, .ok, rrDigest params s.rr⟩] := by
  rw [performAll_cons_of_next (exec_rrFinal_absorbing h)]
  rfl

/-- Settles O57: both runs leave the unit that has absorbed the concatenation. -/
theorem rrUpdateIsChunkIndependent : Obligations.RrUpdateIsChunkIndependent := by
  intro s chunks h
  obtain ⟨hpieces, -⟩ := performAll_rrUpdates chunks h
  have hwhole : (performAll [.rrUpdate chunks.flatten] s).rr = absorb s.rr chunks.flatten := by
    rw [performAll_cons_of_next (exec_rrUpdate_absorbing _ h)]
    rfl
  have hphase := (absorb_frame s.rr chunks.flatten).1.trans h
  refine ⟨hpieces.trans hwhole.symm, rrDigest params (absorb s.rr chunks.flatten), ?_, ?_⟩
  · rw [performAll_rrFinal (hpieces ▸ hphase), hpieces]
  · rw [performAll_rrFinal (hwhole ▸ hphase), hwhole]

/-! ### RR.INIT and the empty message (R140) -/

theorem performAll_append (is js : List Instr) (s : State) :
    performAll (is ++ js) s = performAll js (performAll is s) := by
  induction is generalizing s with
  | nil => rfl
  | cons i is ih =>
    rw [List.cons_append, performAll, performAll]
    split <;> exact ih _

/-- The state after `RR.INIT`, which completes in every state. -/
def rrOpened (s : State) : State := (s.withRr (rrInitial params)).respond ⟨0x30, .ok, []⟩

theorem performAll_rrInit (is : List Instr) (s : State) :
    performAll (.rrInit (.fits ()) :: is) s = performAll is (rrOpened s) :=
  performAll_cons_of_next (exec_rrInit_fits s) is

/-- Settles O59: the digest of the initial unit. -/
theorem emptyInputHasFixedDigest : Obligations.EmptyInputHasFixedDigest := by
  refine ⟨rrDigest params (rrInitial params), squeeze_length _ _ _, fun s => ⟨?_, ?_⟩⟩
  · rw [performAll_rrInit, performAll_rrFinal rfl]
    exact List.append_assoc _ _ _
  · rw [performAll_rrInit, performAll_nil]
    obtain ⟨hfill, -, hafter⟩ := pad_bytes params (rrInitial params)
    have hlen : (pad params (rrOpened s).rr).len = 0 := rfl
    refine ⟨hlen, hfill, fun j => BitVec.eq_of_toNat_eq ?_, ?_, rrDigest_eq_squeeze _ _⟩
    · exact hafter ⟨1 + j.val, by omega⟩ (by show 0 < 1 + j.val; omega)
    · rw [hlen]
      decide

/-! ### The terms of the digest function (R141) -/

/-- The inner states differ in the counter words alone. -/
theorem innerState_other (t t' : Nat) (j : Nat) (hj : j < 16) (h12 : j ≠ 12) (h13 : j ≠ 13) :
    (innerState t)[j] = (innerState t')[j] := by
  have hset : innerState t =
      ((innerState t').set 12 (BitVec.ofNat 32 t)).set 13 (BitVec.ofNat 32 (t / 2 ^ 32)) := rfl
  rw [hset, Vector.getElem_set_ne _ _ h13.symm, Vector.getElem_set_ne _ _ h12.symm]

/-- The inner counter after one more block. -/
theorem advanceCounter_innerState (t : Nat) : advanceCounter (innerState t) = innerState (t + 1) := by
  have hlow : (innerState t)[12] + 1 = BitVec.ofNat 32 (t + 1) := (BitVec.ofNat_add t 1).symm
  refine Vector.ext fun j hj => ?_
  by_cases h12 : j = 12
  · subst h12
    rw [advanceCounter_low, hlow]
    rfl
  by_cases h13 : j = 13
  · subst h13
    rw [advanceCounter_high, hlow]
    show (if BitVec.ofNat 32 (t + 1) = 0 then BitVec.ofNat 32 (t / 2 ^ 32) + 1 else BitVec.ofNat 32 (t / 2 ^ 32)) =
      BitVec.ofNat 32 ((t + 1) / 2 ^ 32)
    have hzero : BitVec.ofNat 32 (t + 1) = 0 ↔ (t + 1) % 2 ^ 32 = 0 := BitVec.toNat_inj.symm
    by_cases hwrap : (t + 1) % 2 ^ 32 = 0
    · rw [if_pos (hzero.2 hwrap), show (t + 1) / 2 ^ 32 = t / 2 ^ 32 + 1 by omega]
      exact (BitVec.ofNat_add _ 1).symm
    · rw [if_neg (fun h => hwrap (hzero.1 h)), show (t + 1) / 2 ^ 32 = t / 2 ^ 32 by omega]
  · rw [advanceCounter_other _ j hj h12 h13]
    exact innerState_other t (t + 1) j hj h12 h13

/-- What block `t` adds to byte `j` of the accumulator. -/
def accumulate (cfg : Config) (m : List Byte) (j : Fin 44) (a : Byte) (t : Nat) : Byte :=
  a ^^^ encryptedByte cfg m t ⟨j.val, by omega⟩ ^^^
    (if h : j.val + 44 < 64 then encryptedByte cfg m t ⟨j.val + 44, h⟩ else 0)

/-- Byte `j` of the accumulator after the first `n` blocks. -/
def accumulatorAfter (cfg : Config) (m : List Byte) (n : Nat) (j : Fin 44) : Byte :=
  (List.range n).foldl (accumulate cfg m j) 0

theorem digestAccumulator_eq (cfg : Config) (m : List Byte) (j : Fin 44) :
    digestAccumulator cfg m j = accumulatorAfter cfg m (m.length / 64 + 1) j := rfl

theorem accumulatorAfter_succ (cfg : Config) (m : List Byte) (n : Nat) (j : Fin 44) :
    accumulatorAfter cfg m (n + 1) j = accumulate cfg m j (accumulatorAfter cfg m n j) n := by
  rw [accumulatorAfter, List.range_succ, List.foldl_append]
  rfl

/-- A byte of a message that one more byte does not reach. -/
theorem messageBlock_append (cfg : Config) (m : List Byte) (b : Byte) {t j : Nat} (h : 64 * t + j < m.length) :
    messageBlock cfg (m ++ [b]) t j = messageBlock cfg m t j := by
  simp only [messageBlock, List.length_append, List.length_singleton]
  rw [if_pos (by omega), if_pos h, List.getD_append _ _ _ _ h]

/-- One more byte changes nothing in the blocks already full. -/
theorem accumulatorAfter_append (cfg : Config) (m : List Byte) (b : Byte) {n : Nat} (hn : n ≤ m.length / 64)
    (j : Fin 44) : accumulatorAfter cfg (m ++ [b]) n j = accumulatorAfter cfg m n j := by
  have hbyte : ∀ t < n, ∀ i : Fin 64, encryptedByte cfg (m ++ [b]) t i = encryptedByte cfg m t i := fun t ht i => by
    rw [encryptedByte, messageBlock_append cfg m b (by omega), encryptedByte]
  refine List.foldl_ext _ _ _ fun a t ht => ?_
  have ht' := List.mem_range.1 ht
  simp only [accumulate, hbyte t ht']

/-- A Transform of block `t` with the inner counter at `t` adds the terms of block `t`. -/
theorem transform_accumulates {cfg : Config} {m : List Byte} {t : Nat} {r : RrUnit}
    (hblk : ∀ j, (hj : j < 64) → r.blk[j] = messageBlock cfg m t j) (hoff : r.cc.off = 64)
    (hst : r.cc.st = innerState t) (hacc : ∀ j : Fin 44, r.acc[j.val] = accumulatorAfter cfg m t j) (j : Fin 44) :
    (transform r).acc[j.val] = accumulatorAfter cfg m (t + 1) j := by
  have henc : ∀ i (hi : i < 64), (transform r).blk[i] = encryptedByte cfg m t ⟨i, hi⟩ := fun i hi => by
    rw [transform_blk_used hoff i hi, hblk i hi, hst]
    rfl
  rw [accumulatorAfter_succ, accumulate, ← hacc, ← henc, transform_acc]
  by_cases hj : j.val < 20
  · rw [dif_pos (by omega), ← henc, foldBlock_low _ _ ⟨j.val, hj⟩, BitVec.xor_assoc]
  · rw [dif_neg (by omega)]
    have hhigh := foldBlock_high r.acc (transform r).blk ⟨j.val - 20, by omega⟩
    simp only [show 20 + (j.val - 20) = j.val by omega] at hhigh
    rw [hhigh]
    exact (BitVec.xor_zero).symm

/-! ### The unit after a message (R131, R141) -/

/-- What the unit holds after `RR.INIT` and the message `m`. -/
structure RrUnit.Absorbed (cfg : Config) (m : List Byte) (r : RrUnit) : Prop where
  idx : r.idx.val = m.length % 64
  len : r.len = BitVec.ofNat 64 (64 * (m.length / 64))
  pending : ∀ j, (hj : j < 64) → j < m.length % 64 → r.blk[j] = m.getD (64 * (m.length / 64) + j) 0
  off : r.cc.off = 64
  st : r.cc.st = innerState (m.length / 64)
  acc : ∀ j : Fin 44, r.acc[j.val] = accumulatorAfter cfg m (m.length / 64) j

theorem rrInitial_absorbed (cfg : Config) : (rrInitial cfg).Absorbed cfg [] where
  idx := rfl
  len := rfl
  pending _ _ h := absurd h (Nat.not_lt_zero _)
  off := rfl
  st := layout_zero cfg
  acc j := Vector.getElem_replicate j.isLt

section
variable {cfg : Config} {m : List Byte} {r : RrUnit}

/-- The block with the next byte put at the index. -/
theorem RrUnit.Absorbed.set_getElem (h : r.Absorbed cfg m) (b : Byte) {j : Nat} (hj : j < 64)
    (hle : j ≤ m.length % 64) : (r.blk.set r.idx.val b)[j] = (m ++ [b]).getD (64 * (m.length / 64) + j) 0 := by
  have hidx := h.idx
  by_cases heq : j = m.length % 64
  · rw [show 64 * (m.length / 64) + j = m.length by omega, List.getD_append_right _ _ _ _ (Nat.le_refl _), Nat.sub_self]
    simp [hidx, heq]
  · rw [Vector.getElem_set_ne _ _ (by omega), h.pending j hj (by omega), List.getD_append _ _ _ _ (by omega)]

/-- A message byte inside the block is stored. -/
theorem RrUnit.Absorbed.store (h : r.Absorbed cfg m) (b : Byte) (hidx : r.idx.val < 63) :
    (absorbByte r b).Absorbed cfg (m ++ [b]) := by
  have hmod := h.idx
  have hlen : (m ++ [b]).length = m.length + 1 := by simp
  have hdiv : (m ++ [b]).length / 64 = m.length / 64 := by omega
  have hidx' : r.idx.val + 1 = (m ++ [b]).length % 64 := by omega
  rw [absorbByte_store r b hidx]
  refine ⟨hidx', ?_, fun j hj hlt => ?_, h.off, ?_, fun j => ?_⟩ <;> rw [hdiv]
  · exact h.len
  · exact h.set_getElem b hj (by omega)
  · exact h.st
  · exact (h.acc j).trans (accumulatorAfter_append cfg m b (Nat.le_refl _) j).symm

/-- The byte that fills the block folds it. -/
theorem RrUnit.Absorbed.fold (h : r.Absorbed cfg m) (b : Byte) (hidx : r.idx.val = 63) :
    (absorbByte r b).Absorbed cfg (m ++ [b]) := by
  have hmod := h.idx
  have hlen : (m ++ [b]).length = m.length + 1 := by simp
  have hdiv : (m ++ [b]).length / 64 = m.length / 64 + 1 := by omega
  have hidx' : 0 = (m ++ [b]).length % 64 := by omega
  have hcc := transform_cc_used (r := { r with blk := r.blk.set r.idx.val b }) h.off
  have hblk : ∀ j, (hj : j < 64) → (r.blk.set r.idx.val b)[j] = messageBlock cfg (m ++ [b]) (m.length / 64) j := by
    intro j hj
    rw [messageBlock, if_pos (by omega)]
    exact h.set_getElem b hj (by omega)
  rw [absorbByte_fold r b hidx]
  refine ⟨hidx', ?_, fun j hj hlt => by omega, congrArg ChaCha.off hcc, ?_, ?_⟩ <;> rw [hdiv]
  · show r.len + 64 = _
    rw [h.len, Nat.mul_add, BitVec.ofNat_add]
    rfl
  · refine (congrArg ChaCha.st hcc).trans ?_
    rw [← advanceCounter_innerState, ← h.st]
    rfl
  · exact transform_accumulates hblk h.off h.st fun j =>
      (h.acc j).trans (accumulatorAfter_append cfg m b (Nat.le_refl _) j).symm

theorem RrUnit.Absorbed.absorbByte (h : r.Absorbed cfg m) (b : Byte) : (absorbByte r b).Absorbed cfg (m ++ [b]) := by
  rcases (show r.idx.val ≤ 63 by omega).lt_or_eq with hidx | hidx
  · exact h.store b hidx
  · exact h.fold b hidx

theorem RrUnit.Absorbed.absorb (h : r.Absorbed cfg m) (data : List Byte) :
    (absorb r data).Absorbed cfg (m ++ data) := by
  induction data generalizing r m with
  | nil => rwa [List.append_nil]
  | cons b bs ih =>
    rw [absorb_cons, List.append_cons]
    exact ih (h.absorbByte b)

/-! ### The digest (R137, R141) -/

/-- The padded block is the last block of the padded message. -/
theorem RrUnit.Absorbed.padded (h : r.Absorbed cfg m) (j : Nat) (hj : j < 64) :
    (pad cfg r).blk[j] = messageBlock cfg m (m.length / 64) j := by
  rw [pad_blk, padBlock_getElem, h.idx, messageBlock]
  by_cases hlt : j < m.length % 64
  · have hlt' : 64 * (m.length / 64) + j < m.length := by omega
    rw [if_pos hlt, if_pos hlt', h.pending j hj hlt]
  · have hlt' : ¬ 64 * (m.length / 64) + j < m.length := by omega
    have heq : 64 * (m.length / 64) + j = m.length ↔ j = m.length % 64 := by omega
    simp only [hlt, hlt', heq, if_false]

theorem RrUnit.Absorbed.padded_len (h : r.Absorbed cfg m) : (pad cfg r).len = BitVec.ofNat 64 m.length := by
  rw [pad_len, h.len, h.idx, ← BitVec.ofNat_add, Nat.div_add_mod]

/-- The final fold of the last accumulator. -/
theorem RrUnit.Absorbed.folded (h : r.Absorbed cfg m) (j : Fin 44) :
    (finalFold (transform (pad cfg r)).acc)[j.val] = digestFolded cfg m j := by
  obtain ⟨-, hcc, hacc, -, -⟩ := pad_frame cfg r
  have hlast : ∀ j : Fin 44, (transform (pad cfg r)).acc[j.val] = digestAccumulator cfg m j :=
    transform_accumulates h.padded (by rw [hcc, h.off]) (by rw [hcc, h.st]) fun j => by rw [hacc, h.acc]
  simp only [finalFold, Vector.getElem_ofFn, digestFolded, ← hlast]

/-- The digest the unit emits is the digest function's. -/
theorem RrUnit.Absorbed.digest (h : r.Absorbed cfg m) : rrDigest cfg r = digestOf cfg m := by
  have hkey : accKey (finalFold (transform (pad cfg r)).acc) =
      Vector.ofFn fun j : Fin 32 => digestFolded cfg m ⟨j.val, by omega⟩ :=
    congrArg Vector.ofFn (funext fun j => h.folded ⟨j.val, by omega⟩)
  have hiv : accIv (finalFold (transform (pad cfg r)).acc) =
      Vector.ofFn fun j : Fin 12 => digestFolded cfg m ⟨32 + j.val, by omega⟩ :=
    congrArg Vector.ofFn (funext fun j => h.folded ⟨32 + j.val, by omega⟩)
  rw [rrDigest_eq_squeeze, squeeze_eq_take, hkey, hiv, h.padded_len]
  rfl

end

/-- Settles O58: after `RR.INIT` and the pieces the unit has absorbed the message (`Absorbed`), whose digest is the
function's. -/
theorem digestIsTheSpecFunction : Obligations.DigestIsTheSpecFunction := by
  intro s chunks _
  obtain ⟨hrr, hresp⟩ := performAll_rrUpdates chunks (s := rrOpened s) rfl
  have hphase := (absorb_frame (rrInitial params) chunks.flatten).1
  have hdigest := ((rrInitial_absorbed params).absorb chunks.flatten).digest
  rw [List.nil_append] at hdigest
  rw [List.cons_append, performAll_rrInit, performAll_append, performAll_rrFinal (hrr ▸ hphase), hrr, hresp]
  rw [show (rrOpened s).rr = rrInitial params from rfl, hdigest]
  simp [rrOpened]

end Sys2Proof.Machine
end

section
/-! PROOFS. All commands at once (R34 of spec/10_state.md, R62, R66 of spec/30_encoding.md, R166, R176 of
spec/60_exceptions.md): every command is answered by one response, of which status, output and frame are said together
(`Answer`); one rule for each shared operation, then one case for each command. -/

namespace Sys2Proof.Machine

/-! ### What an answer is -/

/-- `UNIT` of each row (R65). -/
def rowUnit : Opcode → Nat
  | .sysNop | .sysReset => 0
  | .crcInit | .crcUpdate | .crcFinal | .crcFinaln | .crcFree | .crcReflect | .crcRdtab => 1
  | .ccInit | .ccSetup | .ccEnc | .ccDec | .ccFree | .ccQr => 2
  | .rrInit | .rrUpdate | .rrFinal | .rrFree => 3

theorem opcodeByte_unit (o : Opcode) : (opcodeByte o).toNat / 16 = rowUnit o := by
  cases o <;> decide

theorem unitOf_eq_rowUnit (i : Instr) : unitOf i = rowUnit i.opcode := opcodeByte_unit i.opcode

/-- The state `t` a command `i` leaves, before its response is added, differs from `s` at most in the unit of `i`; after
`SYS.RESET` in any unit. -/
structure UnitFrame (i : Instr) (s t : State) : Prop where
  port : t.port = s.port
  responses : t.responses = s.responses
  crc : i.opcode ≠ .sysReset → rowUnit i.opcode ≠ 1 → t.crc = s.crc
  cc : i.opcode ≠ .sysReset → rowUnit i.opcode ≠ 2 → t.cc = s.cc
  rr : i.opcode ≠ .sysReset → rowUnit i.opcode ≠ 3 → t.rr = s.rr

section
variable {i : Instr} {s : State}

theorem UnitFrame.refl : UnitFrame i s s := ⟨rfl, rfl, fun _ _ => rfl, fun _ _ => rfl, fun _ _ => rfl⟩

theorem UnitFrame.withCrc (h : rowUnit i.opcode = 1) (u : CrcUnit) : UnitFrame i s (s.withCrc u) :=
  ⟨rfl, rfl, fun _ hne => absurd h hne, fun _ _ => rfl, fun _ _ => rfl⟩

theorem UnitFrame.withCc (h : rowUnit i.opcode = 2) (u : ChaCha) : UnitFrame i s (s.withCc u) :=
  ⟨rfl, rfl, fun _ _ => rfl, fun _ hne => absurd h hne, fun _ _ => rfl⟩

theorem UnitFrame.withRr (h : rowUnit i.opcode = 3) (u : RrUnit) : UnitFrame i s (s.withRr u) :=
  ⟨rfl, rfl, fun _ _ => rfl, fun _ _ => rfl, fun _ hne => absurd h hne⟩

theorem UnitFrame.zeroUnits (h : i.opcode = .sysReset) : UnitFrame i s s.zeroUnits :=
  ⟨rfl, rfl, fun hne _ => absurd h hne, fun hne _ => absurd h hne, fun hne _ => absurd h hne⟩

end

/-- Status `st`, output `out` and state `t` are an answer to command `i` in state `s`. -/
structure Answer (i : Instr) (s : State) (st : Status) (out : List Byte) (t : State) : Prop where
  frame : UnitFrame i s t
  length : st = .ok → out.length = okOutputLength i s
  refused : st ≠ .ok → out = [] ∧
    (t = s ∨ (∃ c, i = .crcInit (.fits c)) ∧ st = .errConfig ∧ t = s.withCrc CrcUnit.zero)
  status : i.wellFormed = true → legalLen i.opcode i.payload.length = true → st = matrixStatus i s

/-- The result is a next state with one response more, and that is an answer. -/
def Answers (i : Instr) (s : State) (r : Result) : Prop :=
  ∃ st out t, r = .next (t.respond ⟨opcodeByte i.opcode, st, out⟩) ∧ Answer i s st out t

/-! ### One rule for each shared operation -/

section
variable {i : Instr} {s : State}

/-- A refusal writes nothing. -/
theorem Answers.raise {st : Status} (hst : st ≠ .ok)
    (hmatrix : i.wellFormed = true → legalLen i.opcode i.payload.length = true → st = matrixStatus i s) :
    Answers i s (raise i.opcode st s) :=
  ⟨st, [], s, rfl, .refl, fun h => absurd h hst, fun _ => ⟨rfl, .inl rfl⟩, hmatrix⟩

theorem Answers.complete {out : List Byte} {t : State} (hframe : UnitFrame i s t) (hmatrix : matrixStatus i s = .ok)
    (hlen : out.length = okOutputLength i s) : Answers i s (complete i.opcode out t) :=
  ⟨.ok, out, t, rfl, hframe, fun _ => hlen, fun h => absurd rfl h, fun _ _ => hmatrix.symm⟩

/-- The phase check answers by the matrix. -/
theorem Answers.whenOk {st : Status} {r : Result} (hmatrix : st ≠ .ok → matrixStatus i s = st)
    (hok : st = .ok → Answers i s r) : Answers i s (whenOk i.opcode st s r) := by
  by_cases hst : st = .ok
  · rw [hst, whenOk_ok]
    exact hok hst
  · rw [whenOk_of_ne hst]
    exact .raise hst fun _ _ => (hmatrix hst).symm

/-- No well-formed payload of a legal length is kept as `wrongLength`. -/
theorem wrongLength_illegal {α : Type} {o : Opcode} {bs : List Byte}
    (hwf : (Payload.wrongLength bs : Payload α).wellFormed o = true) (hlegal : legalLen o bs.length = true) :
    False := by
  simp [Payload.wellFormed, hlegal] at hwf

/-- The length check answers by the payload. -/
theorem Answers.withOperands {α : Type} {p : Payload α} {f : α → Result} (mk : Payload α → Instr)
    (hwf : ∀ bs, (mk (.wrongLength bs)).wellFormed =
      (Payload.wrongLength bs : Payload α).wellFormed (mk (.wrongLength bs)).opcode)
    (hpayload : ∀ bs, (mk (.wrongLength bs)).payload = bs) (hfits : ∀ a, Answers (mk (.fits a)) s (f a)) :
    Answers (mk p) s (withOperands (mk p).opcode p s f) := by
  cases p with
  | fits a => exact hfits a
  | wrongLength bs =>
    refine .raise (by decide) fun h hlegal => (wrongLength_illegal ((hwf bs).symm.trans h) ?_).elim
    rwa [hpayload] at hlegal

end

/-! ### The matrix read by unit (R176) -/

section
variable (s : State)

theorem matrixStatus_crcUpdate (d : List Byte) : matrixStatus (.crcUpdate d) s = crcStreamStatus s.crc.phase := by
  unfold matrixStatus
  cases s.crc.phase <;> rfl

theorem matrixStatus_crcFinal (p : Payload Unit) : matrixStatus (.crcFinal p) s = crcStreamStatus s.crc.phase := by
  unfold matrixStatus
  cases s.crc.phase <;> rfl

theorem matrixStatus_crcRdtab (p : Payload Byte) : matrixStatus (.crcRdtab p) s = crcReadStatus s.crc.phase := by
  unfold matrixStatus
  cases s.crc.phase <;> rfl

theorem matrixStatus_ccSetup (p : Payload KeyNonce) : matrixStatus (.ccSetup p) s = ccSetupStatus s.cc.phase := by
  unfold matrixStatus
  cases s.cc.phase <;> rfl

theorem matrixStatus_ccEnc (d : List Byte) : matrixStatus (.ccEnc d) s = ccCryptStatus s.cc.phase := by
  unfold matrixStatus
  cases s.cc.phase <;> rfl

theorem matrixStatus_ccDec (d : List Byte) : matrixStatus (.ccDec d) s = ccCryptStatus s.cc.phase := by
  unfold matrixStatus
  cases s.cc.phase <;> rfl

theorem matrixStatus_rrUpdate (d : List Byte) : matrixStatus (.rrUpdate d) s = rrStreamStatus s.rr.phase := by
  unfold matrixStatus
  cases s.rr.phase <;> rfl

theorem matrixStatus_rrFinal (p : Payload Unit) : matrixStatus (.rrFinal p) s = rrStreamStatus s.rr.phase := by
  unfold matrixStatus
  cases s.rr.phase <;> rfl

theorem native_iff (w : BitVec 7) : (w = 8 ∨ w = 16 ∨ w = 32 ∨ w = 64) ↔
    (w.toNat = 8 ∨ w.toNat = 16 ∨ w.toNat = 32 ∨ w.toNat = 64) := by
  simp [← BitVec.toNat_inj]

theorem matrixStatus_crcFinaln_refused (p : Payload Unit) (h : crcStreamStatus s.crc.phase ≠ .ok) :
    matrixStatus (.crcFinaln p) s = crcStreamStatus s.crc.phase := by
  unfold matrixStatus
  cases hp : s.crc.phase with
  | idle | finalized => rfl
  | ready => exact absurd (congrArg crcStreamStatus hp) h

theorem matrixStatus_crcFinaln_ready (p : Payload Unit) (h : s.crc.phase = .ready) : matrixStatus (.crcFinaln p) s =
    if s.crc.width = 8 ∨ s.crc.width = 16 ∨ s.crc.width = 32 ∨ s.crc.width = 64 then .ok else .errConfig := by
  unfold matrixStatus
  rw [h]

/-- The operand check of `CRC.INIT` in the matrix is `legalConfig`. -/
theorem matrixStatus_crcInit (c : CrcConfig) :
    matrixStatus (.crcInit (.fits c)) s = if legalConfig c = true then .ok else .errConfig := by
  have hlegal : (c.width = 0 ∨ 64 < c.width.toNat ∨ c.poly = 0) ↔ ¬ legalConfig c = true := by
    have hzero : c.width = 0 ↔ c.width.toNat = 0 := BitVec.toNat_inj.symm
    rw [legalConfig_iff, hzero]
    refine ⟨?_, fun h => ?_⟩
    · rintro (h | h | h) ⟨hpos, hle, hpoly⟩
      · omega
      · omega
      · exact hpoly h
    · by_cases hpoly : c.poly = 0
      · exact .inr (.inr hpoly)
      · have hbounds : ¬(1 ≤ c.width.toNat ∧ c.width.toNat ≤ 64) := fun ⟨hpos, hle⟩ => h ⟨hpos, hle, hpoly⟩
        omega
  show (if c.width = 0 ∨ 64 < c.width.toNat ∨ c.poly = 0 then Status.errConfig else .ok) = _
  by_cases hc : legalConfig c = true
  · rw [if_pos hc, if_neg fun h => hlegal.1 h hc]
  · rw [if_neg hc, if_pos (hlegal.2 hc)]

theorem matrixStatus_crcReflect (r : ReflectArgs) :
    matrixStatus (.crcReflect (.fits r)) s = if 64 < r.bits.toNat then .errConfig else .ok := rfl

end

/-! ### Every command (R66, R166, R176) -/

section
variable (s : State)

theorem execCrcInit_answers (p : Payload CrcConfig) : Answers (.crcInit p) s (execCrcInit p s) := by
  refine .withOperands .crcInit (fun _ => rfl) (fun _ => rfl) fun c => ?_
  have hmatrix := matrixStatus_crcInit s c
  by_cases hc : legalConfig c = true
  · rw [if_pos hc] at hmatrix ⊢
    exact .complete (.withCrc rfl _) hmatrix rfl
  · rw [if_neg hc] at hmatrix ⊢
    exact ⟨.errConfig, [], s.withCrc CrcUnit.zero, rfl, .withCrc rfl _, nofun,
      fun _ => ⟨rfl, .inr ⟨⟨c, rfl⟩, rfl, rfl⟩⟩, fun _ _ => hmatrix.symm⟩

theorem execCrcFinaln_answers (p : Payload Unit) : Answers (.crcFinaln p) s (execCrcFinaln p s) := by
  refine .withOperands .crcFinaln (fun _ => rfl) (fun _ => rfl) fun _ =>
    .whenOk (matrixStatus_crcFinaln_refused s _) fun hok => ?_
  have hready : s.crc.phase = .ready := by
    cases hp : s.crc.phase with
    | ready => rfl
    | idle | finalized => simp [hp, crcStreamStatus] at hok
  have hmatrix := matrixStatus_crcFinaln_ready s (.fits ()) hready
  simp only [native_iff] at hmatrix
  by_cases hnative : s.crc.width.toNat = 8 ∨ s.crc.width.toNat = 16 ∨ s.crc.width.toNat = 32 ∨ s.crc.width.toNat = 64
  · rw [if_pos hnative] at hmatrix
    rw [nativeBytes_of_native hnative]
    exact .complete (.withCrc rfl _) hmatrix (beBytes_length _ _)
  · rw [if_neg hnative] at hmatrix
    rw [nativeBytes_of_not_native hnative]
    exact .raise (by decide) fun _ _ => hmatrix.symm

theorem execCrcReflect_answers (p : Payload ReflectArgs) : Answers (.crcReflect p) s (execCrcReflect p s) := by
  refine .withOperands .crcReflect (fun _ => rfl) (fun _ => rfl) fun r => ?_
  have hmatrix := matrixStatus_crcReflect s r
  by_cases hbits : r.bits.toNat ≤ 64
  · rw [if_neg (Nat.not_lt.2 hbits)] at hmatrix
    rw [if_pos hbits]
    exact .complete .refl hmatrix rfl
  · rw [if_pos (Nat.not_le.1 hbits)] at hmatrix
    rw [if_neg hbits]
    exact .raise (by decide) fun _ _ => hmatrix.symm

/-- Every command in every state answers. -/
theorem exec_answers (i : Instr) : Answers i s (exec i s) := by
  cases i with
  | sysNop p => exact .withOperands .sysNop (fun _ => rfl) (fun _ => rfl) fun _ => .complete .refl rfl rfl
  | sysReset p =>
    exact .withOperands .sysReset (fun _ => rfl) (fun _ => rfl) fun _ => .complete (.zeroUnits rfl) rfl rfl
  | crcInit p => exact execCrcInit_answers s p
  | crcUpdate d =>
    exact .whenOk (fun _ => matrixStatus_crcUpdate s d) fun hok =>
      .complete (.withCrc rfl _) ((matrixStatus_crcUpdate s d).trans hok) rfl
  | crcFinal p =>
    exact .withOperands .crcFinal (fun _ => rfl) (fun _ => rfl) fun _ =>
      .whenOk (fun _ => matrixStatus_crcFinal s _) fun hok =>
        .complete (.withCrc rfl _) ((matrixStatus_crcFinal s _).trans hok) rfl
  | crcFinaln p => exact execCrcFinaln_answers s p
  | crcFree p =>
    exact .withOperands .crcFree (fun _ => rfl) (fun _ => rfl) fun _ => .complete (.withCrc rfl _) rfl rfl
  | crcReflect p => exact execCrcReflect_answers s p
  | crcRdtab p =>
    exact .withOperands .crcRdtab (fun _ => rfl) (fun _ => rfl) fun _ =>
      .whenOk (fun _ => matrixStatus_crcRdtab s _) fun hok =>
        .complete .refl ((matrixStatus_crcRdtab s _).trans hok) rfl
  | ccInit p => exact .withOperands .ccInit (fun _ => rfl) (fun _ => rfl) fun _ => .complete (.withCc rfl _) rfl rfl
  | ccSetup p =>
    exact .withOperands .ccSetup (fun _ => rfl) (fun _ => rfl) fun _ =>
      .whenOk (fun _ => matrixStatus_ccSetup s _) fun hok =>
        .complete (.withCc rfl _) ((matrixStatus_ccSetup s _).trans hok) rfl
  | ccEnc d =>
    exact .whenOk (fun _ => matrixStatus_ccEnc s d) fun hok =>
      .complete (.withCc rfl _) ((matrixStatus_ccEnc s d).trans hok) (cryptBytes_length _ _)
  | ccDec d =>
    exact .whenOk (fun _ => matrixStatus_ccDec s d) fun hok =>
      .complete (.withCc rfl _) ((matrixStatus_ccDec s d).trans hok) (cryptBytes_length _ _)
  | ccFree p => exact .withOperands .ccFree (fun _ => rfl) (fun _ => rfl) fun _ => .complete (.withCc rfl _) rfl rfl
  | ccQr p => exact .withOperands .ccQr (fun _ => rfl) (fun _ => rfl) fun _ => .complete .refl rfl rfl
  | rrInit p => exact .withOperands .rrInit (fun _ => rfl) (fun _ => rfl) fun _ => .complete (.withRr rfl _) rfl rfl
  | rrUpdate d =>
    exact .whenOk (fun _ => matrixStatus_rrUpdate s d) fun hok =>
      .complete (.withRr rfl _) ((matrixStatus_rrUpdate s d).trans hok) rfl
  | rrFinal p =>
    exact .withOperands .rrFinal (fun _ => rfl) (fun _ => rfl) fun _ =>
      .whenOk (fun _ => matrixStatus_rrFinal s _) fun hok =>
        .complete (.withRr rfl _) ((matrixStatus_rrFinal s _).trans hok) (squeeze_length _ _ _)
  | rrFree p => exact .withOperands .rrFree (fun _ => rfl) (fun _ => rfl) fun _ => .complete (.withRr rfl _) rfl rfl

end

/-! ### The obligations on single commands -/

/-- Settles O15: the answer of `exec_answers`. -/
theorem everyCommandIsAnsweredOnce : Obligations.EveryCommandIsAnsweredOnce := by
  intro i s
  obtain ⟨st, out, t, hexec, hanswer⟩ := exec_answers s i
  exact ⟨_, _, hexec, congrArg (· ++ _) hanswer.frame.responses, hanswer.frame.port, rfl,
    fun hst => (hanswer.refused hst).1, hanswer.length⟩

/-- Settles O16: the status of `exec_answers`. -/
theorem statusMatrixHolds : Obligations.StatusMatrixHolds := by
  intro i s hlegal hwf
  obtain ⟨st, out, t, hexec, hanswer⟩ := exec_answers s i
  refine ⟨_, out, hexec, ?_⟩
  rw [State.respond_responses, hanswer.frame.responses, hanswer.status hwf hlegal]

/-- Settles O17: what `exec_answers` says of a refusal. -/
theorem refusedCommandWritesNoState : Obligations.RefusedCommandWritesNoState := by
  intro i s t r hexec hresp hst
  obtain ⟨st, out, u, hexec', hanswer⟩ := exec_answers s i
  obtain rfl : u.respond ⟨opcodeByte i.opcode, st, out⟩ = t := Host.Outcome.next.inj (hexec'.symm.trans hexec)
  rw [State.respond_responses, hanswer.frame.responses] at hresp
  obtain rfl : _ = r := List.singleton_inj.1 (List.append_cancel_left hresp)
  obtain ⟨hout, hsame | ⟨hinit, hconfig, hzero⟩⟩ := hanswer.refused hst
  · exact ⟨hout, .inl (by rw [hsame]; rfl)⟩
  · exact ⟨hout, .inr ⟨hinit, hconfig, by rw [hzero]; rfl⟩⟩

/-- Settles O18: the frame of `exec_answers`. -/
theorem commandWritesOnlyItsUnit : Obligations.CommandWritesOnlyItsUnit := by
  intro i s t hexec hreset
  obtain ⟨st, out, u, hexec', hanswer⟩ := exec_answers s i
  obtain rfl : u.respond ⟨opcodeByte i.opcode, st, out⟩ = t := Host.Outcome.next.inj (hexec'.symm.trans hexec)
  rw [unitOf_eq_rowUnit]
  exact ⟨hanswer.frame.crc hreset, hanswer.frame.cc hreset, hanswer.frame.rr hreset⟩

end Sys2Proof.Machine
end

section
/-! PROOFS. Non-interference (R34 of spec/10_state.md): a command answers the same in any two states in which its unit
is the same, and leaves the unit the same; a command of another unit leaves the unit alone. -/

namespace Sys2Proof.Machine

/-! ### The same answer in two states -/

/-- Two results are next states with the same response added to the responses there were, and with the same `get`. -/
def SameAnswer {U : Type} (get : State → U) (s s' : State) (r r' : Result) : Prop :=
  ∃ t t' x, r = .next (t.respond x) ∧ r' = .next (t'.respond x) ∧ t.responses = s.responses ∧
    t'.responses = s'.responses ∧ get t = get t'

section
variable {U : Type} {get : State → U} {s s' : State}

theorem SameAnswer.complete {o : Opcode} {out : List Byte} {t t' : State} (hresp : t.responses = s.responses)
    (hresp' : t'.responses = s'.responses) (hget : get t = get t') :
    SameAnswer get s s' (complete o out t) (complete o out t') :=
  ⟨t, t', ⟨opcodeByte o, .ok, out⟩, rfl, rfl, hresp, hresp', hget⟩

theorem SameAnswer.raise {o : Opcode} {st : Status} {t t' : State} (hresp : t.responses = s.responses)
    (hresp' : t'.responses = s'.responses) (hget : get t = get t') :
    SameAnswer get s s' (raise o st t) (raise o st t') :=
  ⟨t, t', ⟨opcodeByte o, st, []⟩, rfl, rfl, hresp, hresp', hget⟩

theorem SameAnswer.withOperands {α : Type} {o : Opcode} {p : Payload α} {f f' : α → Result} (hs : get s = get s')
    (h : ∀ a, SameAnswer get s s' (f a) (f' a)) :
    SameAnswer get s s' (withOperands o p s f) (withOperands o p s' f') := by
  cases p with
  | fits a => exact h a
  | wrongLength bs => exact .raise rfl rfl hs

theorem SameAnswer.whenOk {o : Opcode} {st : Status} {r r' : Result} (hs : get s = get s')
    (h : SameAnswer get s s' r r') : SameAnswer get s s' (whenOk o st s r) (whenOk o st s' r') := by
  by_cases hst : st = .ok
  · rwa [hst, whenOk_ok, whenOk_ok]
  · rw [whenOk_of_ne hst, whenOk_of_ne hst]
    exact .raise rfl rfl hs

theorem SameAnswer.ite {c : Prop} [Decidable c] {r r' q q' : Result} (hr : SameAnswer get s s' r r')
    (hq : SameAnswer get s s' q q') : SameAnswer get s s' (if c then r else q) (if c then r' else q') := by
  by_cases hc : c
  · rwa [if_pos hc, if_pos hc]
  · rwa [if_neg hc, if_neg hc]

/-- `SYS.RESET` zeroes the unit in both states. -/
theorem exec_sysReset_same (p : Payload Unit) (hs : get s = get s') (hzero : get s.zeroUnits = get s'.zeroUnits) :
    SameAnswer get s s' (exec (.sysReset p) s) (exec (.sysReset p) s') :=
  .withOperands hs fun _ => .complete rfl rfl hzero

end

/-! ### The commands of each unit -/

/-- The CRC commands read the CRC unit alone. -/
theorem exec_crc_same {i : Instr} (h : rowUnit i.opcode = 1) {s s' : State} (hs : s.crc = s'.crc) :
    SameAnswer State.crc s s' (exec i s) (exec i s') := by
  obtain ⟨crc, cc, rr, port, responses⟩ := s
  obtain ⟨crc', cc', rr', port', responses'⟩ := s'
  obtain rfl : crc = crc' := hs
  cases i with
  | sysNop | sysReset | ccInit | ccSetup | ccEnc | ccDec | ccFree | ccQr | rrInit | rrUpdate | rrFinal | rrFree =>
    cases h
  | crcInit p => exact .withOperands rfl fun c => .ite (.complete rfl rfl rfl) (.raise rfl rfl rfl)
  | crcUpdate d => exact .whenOk rfl (.complete rfl rfl rfl)
  | crcFinal p => exact .withOperands rfl fun _ => .whenOk rfl (.complete rfl rfl rfl)
  | crcFinaln p =>
    refine .withOperands rfl fun _ => .whenOk rfl ?_
    cases nativeBytes crc.width with
    | some n => exact .complete rfl rfl rfl
    | none => exact .raise rfl rfl rfl
  | crcFree p => exact .withOperands rfl fun _ => .complete rfl rfl rfl
  | crcReflect p => exact .withOperands rfl fun r => .ite (.complete rfl rfl rfl) (.raise rfl rfl rfl)
  | crcRdtab p => exact .withOperands rfl fun _ => .whenOk rfl (.complete rfl rfl rfl)

/-- The CC commands read the CC unit alone. -/
theorem exec_cc_same {i : Instr} (h : rowUnit i.opcode = 2) {s s' : State} (hs : s.cc = s'.cc) :
    SameAnswer State.cc s s' (exec i s) (exec i s') := by
  obtain ⟨crc, cc, rr, port, responses⟩ := s
  obtain ⟨crc', cc', rr', port', responses'⟩ := s'
  obtain rfl : cc = cc' := hs
  cases i with
  | sysNop | sysReset | crcInit | crcUpdate | crcFinal | crcFinaln | crcFree | crcReflect | crcRdtab | rrInit
  | rrUpdate | rrFinal | rrFree => cases h
  | ccInit p | ccFree p | ccQr p => exact .withOperands rfl fun _ => .complete rfl rfl rfl
  | ccSetup p => exact .withOperands rfl fun _ => .whenOk rfl (.complete rfl rfl rfl)
  | ccEnc d | ccDec d => exact .whenOk rfl (.complete rfl rfl rfl)

/-- The RR commands read the RR unit alone. -/
theorem exec_rr_same {i : Instr} (h : rowUnit i.opcode = 3) {s s' : State} (hs : s.rr = s'.rr) :
    SameAnswer State.rr s s' (exec i s) (exec i s') := by
  obtain ⟨crc, cc, rr, port, responses⟩ := s
  obtain ⟨crc', cc', rr', port', responses'⟩ := s'
  obtain rfl : rr = rr' := hs
  cases i with
  | sysNop | sysReset | crcInit | crcUpdate | crcFinal | crcFinaln | crcFree | crcReflect | crcRdtab | ccInit
  | ccSetup | ccEnc | ccDec | ccFree | ccQr => cases h
  | rrInit p | rrFree p => exact .withOperands rfl fun _ => .complete rfl rfl rfl
  | rrUpdate d => exact .whenOk rfl (.complete rfl rfl rfl)
  | rrFinal p => exact .withOperands rfl fun _ => .whenOk rfl (.complete rfl rfl rfl)

/-! ### Over a sequence of commands -/

theorem concerns_iff (unit : Nat) (i : Instr) :
    concerns unit i = true ↔ rowUnit i.opcode = unit ∨ i.opcode = .sysReset := by
  simp [concerns, unitOf_eq_rowUnit]

theorem responsesOf_append (unit : Nat) (rs : List Response) (r : Response) :
    responsesOf unit (rs ++ [r]) = responsesOf unit rs ++ responsesOf unit [r] :=
  List.filter_append _ _

/-- The response to a command of another unit is not one of this unit's. -/
theorem responsesOf_other {unit : Nat} {o : Opcode} (st : Status) (out : List Byte) (h : rowUnit o ≠ unit) :
    responsesOf unit [⟨opcodeByte o, st, out⟩] = [] := by
  simp [responsesOf, responseUnit, opcodeByte_unit, h]

/-- What holds of a part of the state that only the commands of one unit, and `SYS.RESET`, read and write: the other
commands can be left out. -/
theorem performAll_filter {U : Type} (get : State → U) (unit : Nat)
    (hrespond : ∀ (s : State) r, get (s.respond r) = get s)
    (hown : ∀ i s s', concerns unit i = true → get s = get s' → SameAnswer get s s' (exec i s) (exec i s'))
    (hother : ∀ i s t, i.opcode ≠ .sysReset → rowUnit i.opcode ≠ unit → UnitFrame i s t → get t = get s)
    (is : List Instr) {s s' : State} (hs : get s = get s')
    (hr : responsesOf unit s.responses = responsesOf unit s'.responses) :
    get (performAll is s) = get (performAll (is.filter (concerns unit)) s') ∧
      responsesOf unit (performAll is s).responses =
        responsesOf unit (performAll (is.filter (concerns unit)) s').responses := by
  induction is generalizing s s' with
  | nil => exact ⟨hs, hr⟩
  | cons i is ih =>
    cases hc : concerns unit i with
    | true =>
      obtain ⟨t, t', x, hexec, hexec', hresp, hresp', hget⟩ := hown i s s' hc hs
      rw [List.filter_cons_of_pos hc, performAll_cons_of_next hexec, performAll_cons_of_next hexec']
      refine ih (by rw [hrespond, hrespond, hget]) ?_
      rw [State.respond_responses, State.respond_responses, responsesOf_append, responsesOf_append, hresp, hresp', hr]
    | false =>
      have hnot : ¬(rowUnit i.opcode = unit ∨ i.opcode = .sysReset) := by
        rw [← concerns_iff, hc]
        exact Bool.false_ne_true
      obtain ⟨hunit, hreset⟩ := not_or.1 hnot
      obtain ⟨st, out, t, hexec, hanswer⟩ := exec_answers s i
      rw [List.filter_cons_of_neg (by rw [hc]; exact Bool.false_ne_true), performAll_cons_of_next hexec]
      refine ih (by rw [hrespond, hother i s t hreset hunit hanswer.frame, hs]) ?_
      rw [State.respond_responses, responsesOf_append, responsesOf_other st out hunit, List.append_nil,
        hanswer.frame.responses, hr]

/-- The commands that concern a unit are its own and `SYS.RESET`. -/
theorem exec_concerns_same {U : Type} (get : State → U) (unit : Nat)
    (hunit : ∀ {i : Instr}, rowUnit i.opcode = unit → ∀ {s s' : State}, get s = get s' →
      SameAnswer get s s' (exec i s) (exec i s'))
    (hzero : ∀ s s' : State, get s.zeroUnits = get s'.zeroUnits) (i : Instr) (s s' : State)
    (h : concerns unit i = true) (hs : get s = get s') : SameAnswer get s s' (exec i s) (exec i s') := by
  rcases (concerns_iff unit i).1 h with hi | hi
  · exact hunit hi hs
  · cases i with
    | sysReset p => exact exec_sysReset_same p hs (hzero s s')
    | _ => cases hi

/-- Settles O19: `performAll_filter` for each unit. -/
theorem unitsDoNotInterfere : Obligations.UnitsDoNotInterfere := fun is _ _ =>
  ⟨performAll_filter State.crc 1 (fun _ _ => rfl) (exec_concerns_same State.crc 1 exec_crc_same fun _ _ => rfl)
      (fun _ _ _ hreset hunit hframe => hframe.crc hreset hunit) is,
    performAll_filter State.cc 2 (fun _ _ => rfl) (exec_concerns_same State.cc 2 exec_cc_same fun _ _ => rfl)
      (fun _ _ _ hreset hunit hframe => hframe.cc hreset hunit) is,
    performAll_filter State.rr 3 (fun _ _ => rfl) (exec_concerns_same State.rr 3 exec_rr_same fun _ _ => rfl)
      (fun _ _ _ hreset hunit hframe => hframe.rr hreset hunit) is⟩

end Sys2Proof.Machine
end

section
/-! PROOFS. Programs of CRC commands (R71 of spec/30_encoding.md; R91, R92, R95 of spec/40_crc.md): data in pieces, the
empty message, `CRC.SUM`, and the native-width engines. -/

namespace Sys2Proof.Machine

/-! ### CRC.UPDATE in every phase (R91) -/

/-- The CRC unit after `CRC.UPDATE`: in `Ready` the state word has taken in the data. -/
def CrcUnit.fed (u : CrcUnit) (data : List Byte) : CrcUnit :=
  if u.phase = .ready then { u with s := updateBytes u.tab u.s data } else u

section
variable (u : CrcUnit)

theorem CrcUnit.fed_ready {u : CrcUnit} (h : u.phase = .ready) (data : List Byte) :
    u.fed data = { u with s := updateBytes u.tab u.s data } :=
  if_pos h

theorem CrcUnit.fed_of_not_ready {u : CrcUnit} (h : u.phase ≠ .ready) (data : List Byte) : u.fed data = u :=
  if_neg h

@[simp] theorem CrcUnit.fed_phase (data : List Byte) : (u.fed data).phase = u.phase := by
  unfold CrcUnit.fed
  split <;> rfl

@[simp] theorem CrcUnit.fed_nil : u.fed [] = u := by
  unfold CrcUnit.fed
  split <;> rfl

theorem CrcUnit.fed_append (xs ys : List Byte) : u.fed (xs ++ ys) = (u.fed xs).fed ys := by
  by_cases h : u.phase = .ready
  · rw [fed_ready h, fed_ready h, updateBytes_append]
    exact (fed_ready (u := { u with s := updateBytes u.tab u.s xs }) h ys).symm
  · rw [fed_of_not_ready h, fed_of_not_ready h, fed_of_not_ready h]

end

theorem exec_crcUpdate (data : List Byte) (s : State) : exec (.crcUpdate data) s =
    .next ((s.withCrc (s.crc.fed data)).respond ⟨0x11, crcStreamStatus s.crc.phase, []⟩) := by
  cases h : s.crc.phase with
  | ready => rw [exec_crcUpdate_ready data h, CrcUnit.fed_ready h]; rfl
  | idle => rw [exec_crcUpdate_idle data h, CrcUnit.fed_of_not_ready (by simp [h])]; rfl
  | finalized => rw [exec_crcUpdate_finalized data h, CrcUnit.fed_of_not_ready (by simp [h])]; rfl

/-- The pieces feed the unit their concatenation and are answered by its phase. -/
theorem performAll_crcUpdates (chunks : List (List Byte)) (s : State) :
    (performAll (chunks.map .crcUpdate) s).crc = s.crc.fed chunks.flatten ∧
      (performAll (chunks.map .crcUpdate) s).responses =
        s.responses ++ chunks.map fun _ => ⟨0x11, crcStreamStatus s.crc.phase, []⟩ := by
  induction chunks generalizing s with
  | nil => exact ⟨(s.crc.fed_nil).symm, (List.append_nil _).symm⟩
  | cons chunk chunks ih =>
    obtain ⟨hcrc, hresp⟩ := ih ((s.withCrc (s.crc.fed chunk)).respond ⟨0x11, crcStreamStatus s.crc.phase, []⟩)
    rw [List.map_cons, performAll_cons_of_next (exec_crcUpdate chunk s), hcrc, hresp]
    simp [CrcUnit.fed_append]

/-- Settles O34: the pieces and the one command feed the unit the same data. -/
theorem crcUpdateIsChunkIndependent : Obligations.CrcUpdateIsChunkIndependent := by
  intro s chunks
  rw [(performAll_crcUpdates chunks s).1, performAll_cons_of_next (exec_crcUpdate _ s)]
  rfl

/-! ### The empty message (R92) -/

theorem reflect_zero {bits : Nat} (hb : bits ≤ 64) : reflect 0 bits = 0 := by
  apply BitVec.eq_of_getLsbD_eq
  intro i _
  simp [reflect_getLsbD _ hb]

/-- Settles O35: the state word and the mask are both zero. -/
theorem emptyMessageHasZeroDigest : Obligations.EmptyMessageHasZeroDigest := by
  intro s w p hpos hle hpoly
  have hlegal : legalConfig ⟨w, p, 0, 0⟩ = true := (legalConfig_iff _).2 ⟨hpos, hle, hpoly⟩
  have hstate : (configureCrc ⟨w, p, 0, 0⟩).s = 0 := reflect_zero hle
  have hout : be64 ((configureCrc ⟨w, p, 0, 0⟩).s ^^^ (configureCrc ⟨w, p, 0, 0⟩).xorout) =
      [0, 0, 0, 0, 0, 0, 0, 0] := by
    rw [hstate]
    show be64 (0 ^^^ 0) = _
    decide
  rw [performAll_cons_of_next (exec_crcInit_legal s hlegal), performAll_cons_of_next (exec_crcFinal_ready rfl),
    ← hout]
  exact List.append_assoc _ _ _

/-! ### Long data (R71) -/

theorem splitData_flatten (fuel : Nat) (bs : List Byte) : (splitData fuel bs).flatten = bs := by
  induction fuel generalizing bs with
  | zero => exact List.flatten_singleton
  | succ fuel ih =>
    unfold splitData
    split
    · exact List.flatten_singleton
    · rw [List.flatten_cons, ih, List.take_append_drop]

/-- With a cut for every byte no piece is too long. -/
theorem splitData_length_le {fuel : Nat} {bs : List Byte} (h : bs.length ≤ fuel) :
    ∀ piece ∈ splitData fuel bs, piece.length ≤ Config.maxLen := by
  induction fuel generalizing bs with
  | zero =>
    intro piece hpiece
    obtain rfl := List.mem_singleton.1 hpiece
    omega
  | succ fuel ih =>
    unfold splitData
    split
    next hshort =>
      intro piece hpiece
      rwa [List.mem_singleton.1 hpiece]
    next hlong =>
      refine List.forall_mem_cons.2 ⟨List.length_take_le _ _, ih ?_⟩
      rw [List.length_drop]
      have hmax : Config.maxLen = 65535 := rfl
      omega

/-! ### CRC.SUM (R71) -/

/-- The answers to the updates of a sum: one for each piece, by the phase. -/
def updateAnswers (st : Status) (bs : List Byte) : List Response :=
  (splitData bs.length bs).map fun _ => ⟨0x11, st, []⟩

theorem performAll_dataCommands (bs : List Byte) (s : State) :
    (performAll (dataCommands .crcUpdate bs) s).crc = s.crc.fed bs ∧
      (performAll (dataCommands .crcUpdate bs) s).responses =
        s.responses ++ updateAnswers (crcStreamStatus s.crc.phase) bs := by
  have h := performAll_crcUpdates (splitData bs.length bs) s
  rwa [splitData_flatten] at h

/-- `CRC.FINAL` and `CRC.FREE` from `Ready`. -/
theorem performAll_finalFree_ready {s : State} (h : s.crc.phase = .ready) :
    performAll [.crcFinal (.fits ()), .crcFree (.fits ())] s =
      ((s.withCrc CrcUnit.zero).respond ⟨0x12, .ok, be64 (s.crc.s ^^^ s.crc.xorout)⟩).respond ⟨0x14, .ok, []⟩ := by
  rw [performAll_cons_of_next (exec_crcFinal_ready h), performAll_cons_of_next (exec_crcFree_fits _)]
  rfl

/-- `CRC.FINAL` and `CRC.FREE` from `Idle`. -/
theorem performAll_finalFree_idle {s : State} (h : s.crc.phase = .idle) :
    performAll [.crcFinal (.fits ()), .crcFree (.fits ())] s =
      ((s.withCrc CrcUnit.zero).respond ⟨0x12, .errNotInitialized, []⟩).respond ⟨0x14, .ok, []⟩ := by
  rw [performAll_cons_of_next (exec_crcFinal_idle h), performAll_cons_of_next (exec_crcFree_fits _)]
  rfl

/-- The result of answers that are all `OK`. -/
theorem oneShotResult_ok (bs out : List Byte) :
    oneShotResult .crcFinal
      (⟨0x10, .ok, []⟩ :: updateAnswers .ok bs ++ [⟨0x12, .ok, out⟩, ⟨0x14, .ok, []⟩]) = .ok out := by
  simp [oneShotResult, updateAnswers, opcodeByte, List.find?_append, List.filter_append]

/-- After `CRC.INIT` has left `t`: the updates, `CRC.FINAL`, `CRC.FREE`. -/
theorem performAll_pseudoCrcSum {c : CrcConfig} {s t : State} (h : exec (.crcInit (.fits c)) s = .next t)
    (bs : List Byte) : performAll (pseudoCrcSum c bs) s =
      performAll [.crcFinal (.fits ()), .crcFree (.fits ())] (performAll (dataCommands .crcUpdate bs) t) := by
  rw [pseudoCrcSum, List.cons_append, performAll_cons_of_next h, performAll_append]

theorem crcSum_legal {c : CrcConfig} (hlegal : legalConfig c = true) (s : State) (bs : List Byte) :
    (performAll (pseudoCrcSum c bs) s).crc = CrcUnit.zero ∧
      (performAll (pseudoCrcSum c bs) s).responses =
        s.responses ++ (⟨0x10, .ok, []⟩ :: updateAnswers .ok bs ++
          [⟨0x12, .ok, be64 (((configureCrc c).fed bs).s ^^^ c.xorout)⟩, ⟨0x14, .ok, []⟩]) := by
  have hinit : exec (.crcInit (.fits c)) s = .next ((s.withCrc (configureCrc c)).respond ⟨0x10, .ok, []⟩) :=
    exec_crcInit_legal s hlegal
  have hready : (configureCrc c).phase = .ready := rfl
  have hxorout : ((configureCrc c).fed bs).xorout = c.xorout := by
    rw [CrcUnit.fed_ready hready]
    rfl
  obtain ⟨hfed, hresp⟩ := performAll_dataCommands bs ((s.withCrc (configureCrc c)).respond ⟨0x10, .ok, []⟩)
  rw [performAll_pseudoCrcSum hinit, performAll_finalFree_ready (by rw [hfed, CrcUnit.fed_phase]; exact hready)]
  refine ⟨rfl, ?_⟩
  rw [State.respond_respond_responses, State.withCrc_responses, hfed, hresp]
  simp [hxorout, hready, crcStreamStatus]

theorem crcSum_illegal {c : CrcConfig} (hlegal : ¬ legalConfig c = true) (s : State) (bs : List Byte) :
    (performAll (pseudoCrcSum c bs) s).crc = CrcUnit.zero ∧
      (performAll (pseudoCrcSum c bs) s).responses =
        s.responses ++ (⟨0x10, .errConfig, []⟩ :: updateAnswers .errNotInitialized bs ++
          [⟨0x12, .errNotInitialized, []⟩, ⟨0x14, .ok, []⟩]) := by
  have hinit : exec (.crcInit (.fits c)) s = .next ((s.withCrc CrcUnit.zero).respond ⟨0x10, .errConfig, []⟩) :=
    exec_crcInit_illegal s hlegal
  have hidle : CrcUnit.zero.phase = .idle := rfl
  obtain ⟨hfed, hresp⟩ := performAll_dataCommands bs ((s.withCrc CrcUnit.zero).respond ⟨0x10, .errConfig, []⟩)
  rw [performAll_pseudoCrcSum hinit, performAll_finalFree_idle (by rw [hfed, CrcUnit.fed_phase]; exact hidle)]
  refine ⟨rfl, ?_⟩
  rw [State.respond_respond_responses, State.withCrc_responses, hresp]
  simp [hidle, crcStreamStatus]

/-- Settles O60: the two paths of `CRC.SUM`. -/
theorem crcSumReleasesTheUnit : Obligations.CrcSumReleasesTheUnit := by
  refine ⟨fun bs => ⟨splitData_flatten _ bs, splitData_length_le (Nat.le_refl _)⟩, fun s c bs => ?_⟩
  have hiff := legalConfig_iff c
  by_cases hlegal : legalConfig c = true
  · obtain ⟨hcrc, hresp⟩ := crcSum_legal hlegal s bs
    obtain ⟨hpos, hle, hpoly⟩ := hiff.1 hlegal
    refine ⟨_, hresp, hcrc, fun _ _ _ => oneShotResult_ok _ _, fun hbad => ?_⟩
    rcases hbad with h | h | h
    · omega
    · omega
    · exact absurd h hpoly
  · obtain ⟨hcrc, hresp⟩ := crcSum_illegal hlegal s bs
    exact ⟨_, hresp, hcrc, fun hpos hle hpoly => absurd (hiff.2 ⟨hpos, hle, hpoly⟩) hlegal, fun _ => rfl⟩

/-! ### Native-width engines (R95) -/

/-- One divide step on `w`-bit words. -/
def nativeStep {w : Nat} (rpoly c : BitVec w) : BitVec w := if c.getLsbD 0 then (c >>> 1) ^^^ rpoly else c >>> 1

theorem nativeEntry_eq_foldl {w : Nat} (rpoly : BitVec w) (i : Byte) :
    nativeEntry rpoly i = (List.range 8).foldl (fun c _ => nativeStep rpoly c) (i.setWidth w) := rfl

/-- The native state after one byte. -/
def nativeByte {w : Nat} (rpoly s : BitVec w) (b : Byte) : BitVec w :=
  nativeEntry rpoly (s.setWidth 8 ^^^ b) ^^^ (s >>> 8)

theorem nativeState_eq_foldl {w : Nat} (poly init : BitVec w) (data : List Byte) :
    nativeState poly init data = data.foldl (nativeByte poly.reverse) init.reverse := rfl

section
variable {w : Nat} (hw : w ≤ 64)
include hw

/-- `Reflect` on `w` bits is the library's reversal of a `w`-bit word. -/
theorem reflect_eq_reverse (x : Word64) : reflect x w = ((x.setWidth w).reverse).setWidth 64 := by
  apply BitVec.eq_of_getLsbD_eq
  intro i hi
  rw [reflect_getLsbD x hw, BitVec.getLsbD_setWidth, BitVec.getLsbD_reverse, BitVec.getMsbD_eq_getLsbD,
    BitVec.getLsbD_setWidth]
  by_cases h : i < w
  · simp [h, hi, show w - 1 - i < w by omega]
  · simp [h]

theorem setWidth_ushiftRight (c : BitVec w) (n : Nat) : (c >>> n).setWidth 64 = c.setWidth 64 >>> n := by
  apply BitVec.eq_of_toNat_eq
  simp only [BitVec.toNat_ushiftRight, BitVec.toNat_setWidth_of_le hw]

/-- The 64-bit divide step of a zero-extended word is the native one. -/
theorem setWidth_nativeStep (rpoly c : BitVec w) :
    (nativeStep rpoly c).setWidth 64 = divideStep (rpoly.setWidth 64) (c.setWidth 64) := by
  have hbit : (c.setWidth 64).getLsbD 0 = c.getLsbD 0 := by simp
  rw [divideStep, hbit, nativeStep]
  split
  · rw [BitVec.setWidth_xor, setWidth_ushiftRight hw]
  · rw [setWidth_ushiftRight hw]

theorem setWidth_nativeSteps (rpoly c : BitVec w) (n : Nat) :
    ((List.range n).foldl (fun c _ => nativeStep rpoly c) c).setWidth 64 =
      divideSteps (rpoly.setWidth 64) n (c.setWidth 64) := by
  induction n with
  | zero => rfl
  | succ n ih =>
    rw [List.range_succ, List.foldl_append, List.foldl_cons, List.foldl_nil, setWidth_nativeStep hw, ih,
      divideSteps_add _ n 1]
    rfl

theorem setWidth_lt (c : BitVec w) : (c.setWidth 64).toNat < 2 ^ w := by
  rw [BitVec.toNat_setWidth_of_le hw]
  exact c.isLt

/-- A table entry of the 64-bit engine is the native one. -/
theorem tableAt_native (h8 : 8 ≤ w) (rpoly : BitVec w) (i : Byte) :
    tableAt (buildTable (rpoly.setWidth 64) w) i = (nativeEntry rpoly i).setWidth 64 := by
  have hbyte : (i.setWidth w).setWidth 64 = i.setWidth 64 := by
    apply BitVec.eq_of_toNat_eq
    rw [BitVec.toNat_setWidth_of_le hw, BitVec.toNat_setWidth_of_le h8, BitVec.toNat_setWidth_of_le (by decide)]
  rw [tableAt_buildTable, tableEntry_eq_divideSteps _ _ hw (setWidth_lt hw rpoly), nativeEntry_eq_foldl,
    setWidth_nativeSteps hw, hbyte]

/-- The state of the 64-bit engine is the native one. -/
theorem updateBytes_native (h8 : 8 ≤ w) (rpoly s : BitVec w) (data : List Byte) :
    updateBytes (buildTable (rpoly.setWidth 64) w) (s.setWidth 64) data =
      (data.foldl (nativeByte rpoly) s).setWidth 64 := by
  induction data generalizing s with
  | nil => rfl
  | cons b bs ih =>
    have hindex : (s.setWidth 64 ^^^ b.setWidth 64).setWidth 8 = s.setWidth 8 ^^^ b := by
      rw [BitVec.setWidth_xor, BitVec.setWidth_setWidth_of_le _ (by omega),
        BitVec.setWidth_setWidth_of_le _ (by decide), BitVec.setWidth_eq]
    rw [updateBytes_cons, updateByte, hindex, tableAt_native hw h8, ← setWidth_ushiftRight hw, ← BitVec.setWidth_xor,
      List.foldl_cons, ← ih, nativeByte]

/-- The bytes of the low `w` bits, from the native word and from the 64-bit word. -/
theorem nativeBytesOf_setWidth (hmod : w % 8 = 0) (v : Word64) :
    nativeBytesOf (v.setWidth w) = beBytes (w / 8) (v &&& mask w) := by
  apply List.ext_getElem?
  intro k
  by_cases hk : k < w / 8
  · rw [beBytes_getElem? _ _ _ hk, extract_and_mask _ _ _ hw (by omega), nativeBytesOf, List.getElem?_map,
      List.getElem?_range hk, Option.map_some, show 8 * (w / 8 - 1 - k) = w - 8 * (k + 1) by omega]
    congr 1
    apply BitVec.eq_of_getLsbD_eq
    intro i hi
    simp [show w - 8 * (k + 1) + i < w by omega]
  · rw [List.getElem?_eq_none (by simp [nativeBytesOf]; omega), List.getElem?_eq_none (by rw [beBytes_length]; omega)]

end

/-- A unit whose state is a native word emits that word's bytes. -/
theorem performAll_final_native {s : State} {w : Nat} {v : BitVec w} (hready : s.crc.phase = .ready)
    (hwidth : s.crc.width.toNat = w) (hnative : w = 8 ∨ w = 16 ∨ w = 32 ∨ w = 64) (hs : s.crc.s = v.setWidth 64) :
    (performAll [.crcFinaln (.fits ())] s).responses =
        s.responses ++ [⟨0x13, .ok, nativeBytesOf (v ^^^ s.crc.xorout.setWidth w)⟩] ∧
      (performAll [.crcFinal (.fits ())] s).responses =
        s.responses ++ [⟨0x12, .ok, be64 (s.crc.s ^^^ s.crc.xorout)⟩] ∧
      nativeBytesOf (v ^^^ s.crc.xorout.setWidth w) = (be64 (s.crc.s ^^^ s.crc.xorout)).drop (8 - w / 8) := by
  have hw : w ≤ 64 := by omega
  have hword : v ^^^ s.crc.xorout.setWidth w = (s.crc.s ^^^ s.crc.xorout).setWidth w := by
    rw [hs, BitVec.setWidth_xor, BitVec.setWidth_setWidth_of_le _ hw, BitVec.setWidth_eq]
  have hbytes := nativeBytesOf_setWidth hw (by omega) (s.crc.s ^^^ s.crc.xorout)
  rw [← hword] at hbytes
  have hlast := beBytes_and_mask (s.crc.s ^^^ s.crc.xorout) (w / 8) (by omega)
  rw [show 8 * (w / 8) = w by omega] at hlast
  have hn : nativeBytes s.crc.width = some (w / 8) := by
    rw [nativeBytes_of_native (by rwa [hwidth]), hwidth]
  refine ⟨?_, ?_, hbytes.trans hlast⟩
  · rw [performAll_cons_of_next (exec_crcFinaln_native hready hn), hbytes, hwidth]
    rfl
  · rw [performAll_cons_of_next (exec_crcFinal_ready hready)]
    rfl

/-- The unit after `CRC.INIT` of a legal configuration and one `CRC.UPDATE`. -/
theorem performAll_init_update_crc {c : CrcConfig} (hlegal : legalConfig c = true) (data : List Byte) (s : State) :
    (performAll [.crcUpdate data] (performAll [.crcInit (.fits c)] s)).crc = (configureCrc c).fed data := by
  rw [performAll_cons_of_next (exec_crcInit_legal s hlegal), performAll_nil,
    performAll_cons_of_next (exec_crcUpdate data _)]
  rfl

/-- A configured unit computes the native state. -/
theorem configureCrc_fed_native {c : CrcConfig} {w : Nat} (hwidth : c.width.toNat = w) (h8 : 8 ≤ w) (hw : w ≤ 64)
    (data : List Byte) :
    ((configureCrc c).fed data).s = (nativeState (c.poly.setWidth w) (c.init.setWidth w) data).setWidth 64 := by
  rw [CrcUnit.fed_ready rfl, nativeState_eq_foldl, ← updateBytes_native hw h8, ← reflect_eq_reverse hw,
    ← reflect_eq_reverse hw]
  simp only [configureCrc, hwidth]

/-- Settles O36: the configured registers, the state and the emitted bytes are the native engine's. -/
theorem nativeWidthEnginesAgree : Obligations.NativeWidthEnginesAgree := by
  intro s w poly init xorout data hnative hpoly configured fed
  have hwidth : (BitVec.ofNat 8 w).toNat = w := by
    rw [BitVec.toNat_ofNat]
    omega
  have hlegal : legalConfig ⟨BitVec.ofNat 8 w, poly, init, xorout⟩ = true :=
    (legalConfig_iff _).2 ⟨hwidth.symm ▸ (by omega), hwidth.symm ▸ (by omega), hpoly⟩
  have hfed : fed.crc = (configureCrc ⟨BitVec.ofNat 8 w, poly, init, xorout⟩).fed data :=
    performAll_init_update_crc hlegal data s
  have hstate : fed.crc.s = (nativeState (poly.setWidth w) (init.setWidth w) data).setWidth 64 := by
    rw [hfed]
    exact configureCrc_fed_native hwidth (by omega) (by omega) data
  have hxorout : fed.crc.xorout = xorout := by
    rw [hfed, CrcUnit.fed_ready rfl]
    rfl
  have hcrcWidth : fed.crc.width.toNat = w := by
    rw [hfed, CrcUnit.fed_ready rfl]
    exact (configureCrc_width (hwidth.symm ▸ (by omega))).trans hwidth
  obtain ⟨hfinaln, hfinal, hlast⟩ := performAll_final_native (s := fed) (by rw [hfed, CrcUnit.fed_phase]; rfl)
    hcrcWidth hnative hstate
  rw [hxorout] at hfinaln hfinal hlast
  exact ⟨hstate, _, hfinaln, hfinal, hlast⟩

end Sys2Proof.Machine
end
